-- ==== Sys2Proof/Word.lean ====
section
/-! DEFINITION. The words of the block: bytes, 16-bit lengths and binary64 patterns (R10). -/

namespace Sys2Proof

/-- A byte, bit 0 least significant (R10). -/
abbrev Byte := BitVec 8

/-- A length operand, `u16` (R101). -/
abbrev Word16 := BitVec 16

/-- The 64-bit pattern of a binary64 value, `bits64(f)` (R11). The block carries floats as patterns. -/
abbrev F64 := BitVec 64

end Sys2Proof
end

