-- ==== Sys2Proof/Syntax.lean ====
section
/-! DEFINITION. The instructions: one constructor for each row of spec/opcode_table.json, and the types of
their operands. The operand types follow R111 to R116, R241 and R264. -/

namespace Sys2Proof

/-- Issuer classes of operations (R103): on whose behalf an operation is issued. -/
inductive Issuer where
  | fg        -- the foreground client program
  | int       -- the interrupt dispatcher
  | internal  -- the block's own rules
  | comp      -- a harness driving a ring buffer modelled alone
deriving DecidableEq, Repr, Inhabited

/-- The fault codes of R351. `panicPoisoned` is reserved and never raised (R403). -/
inductive FaultCode where
  | panicReqTag
  | panicSelection
  | panicMode
  | panicMethod
  | panicPoisoned
  | timerOverrun
deriving DecidableEq, Repr, Inhabited

/-- The numbers of the fault codes (R351). -/
def faultNumber : FaultCode → Byte
  | .panicReqTag => 0x01#8
  | .panicSelection => 0x02#8
  | .panicMode => 0x03#8
  | .panicMethod => 0x04#8
  | .panicPoisoned => 0x05#8
  | .timerOverrun => 0x10#8

/-- What a `FunctionPoints` request asks for (R112). -/
inductive Selection where
  | single (index : Byte)
  | system (index : Byte)
deriving DecidableEq, Repr, Inhabited

/-- Method of a single-equation `ComputeRoot` request (R114). -/
inductive Method where
  | chord
  | secant
  | simpleIterationSingle
deriving DecidableEq, Repr, Inhabited

/-- Equation mode of a `ComputeRoot` request (R114). -/
inductive Mode where
  | single (method : Method) (equation : Byte)
  | system (index : Byte)
deriving DecidableEq, Repr, Inhabited

/-- A decoded request packet, the result of `decode(p)` (R262). -/
inductive Request where
  | functionPoints (sel : Selection)
  | initialApproximations
  | computeRoot (eps : F64) (mode : Mode)
deriving DecidableEq, Repr, Inhabited

/-- The pass of a function-points response: first or second unknown (R264). -/
inductive Pass where
  | first
  | second
deriving DecidableEq, Repr, Inhabited

/-- A pair of binary64 values (R269). -/
structure Point where
  x : F64
  y : F64
deriving DecidableEq, Repr, Inhabited

/-- The failures a `ComputeRoot` response can carry (R116, R241). -/
inductive MethodError where
  | noRootInRange
  | moreThanOneRootInRange
  | diverges
deriving DecidableEq, Repr, Inhabited

/-- An answer of the compute-root handler port (R241). -/
inductive RootAnswer where
  | ok (p : Point)
  | err (e : MethodError)
deriving DecidableEq, Repr, Inhabited

/-- The response a receiver expects: a response is told by the protocol state, never by its bytes (R110, R115). -/
inductive ResponseKind where
  | approximations
  | root
  | pointsFirst
  | pointsSecond
deriving DecidableEq, Repr, Inhabited

/-- The kind of unit an instruction's bytes are: an operation of the operation port (R100) or a unit of the
wire (R109). -/
inductive UnitClass where
  | operation
  | request
  | response (expected : ResponseKind)
  | signature
deriving DecidableEq, Repr, Inhabited

/-- One constructor for each row of spec/opcode_table.json. The string of each docstring is the row's mnemonic. -/
inductive Instr where
  /-- `CS.ENTER` (R180). -/
  | csEnter
  /-- `CS.EXIT` (R181); the token byte as it stands on the port, legal when 0 or 1. -/
  | csExit (t : Byte)
  /-- `RB.PUSH_BACK_RXQ` (R153). -/
  | rbPushBackRxq (v : Byte)
  /-- `RB.POP_FRONT_RXQ` (R154). -/
  | rbPopFrontRxq
  /-- `RB.SIZE_RXQ` (R155). -/
  | rbSizeRxq
  /-- `RB.PUSH_BACK_TXQ` (R153). -/
  | rbPushBackTxq (v : Byte)
  /-- `RB.POP_FRONT_TXQ` (R154). -/
  | rbPopFrontTxq
  /-- `RB.SIZE_TXQ` (R155). -/
  | rbSizeTxq
  /-- `WRITE_BYTE` (R190). -/
  | writeByte (b : Byte)
  /-- `WRITE` (R192); the length operand is the length of the string. -/
  | write (bs : List Byte)
  /-- `READ_BYTE` (R194). -/
  | readByte
  /-- `READ` (R196). -/
  | read (len : Word16)
  /-- `ISR.USART_RX` (R210). -/
  | isrUsartRx
  /-- `ISR.USART_UDRE` (R211). -/
  | isrUsartUdre
  /-- `ISR.PCINT` (R310). -/
  | isrPcint
  /-- `ISR.TIMER` (R315). -/
  | isrTimer
  /-- `TIMER.ARM` (R306); the tick count as it stands on the port, legal from 1 to TIMER_SPAN. -/
  | timerArm (d : Byte)
  /-- `TIMER.DISABLE` (R307). -/
  | timerDisable
  /-- `FR.HANDSHAKE` (R255). -/
  | frHandshake
  /-- `FR.SERVE_ONE` (R260). -/
  | frServeOne
  /-- `REQ_FunctionPoints_SingleEquation` (R112). -/
  | reqPointsSingle (index : Byte)
  /-- `REQ_FunctionPoints_SystemOfEquations` (R112). -/
  | reqPointsSystem (index : Byte)
  /-- `REQ_InitialApproximations` (R113). -/
  | reqApproximations
  /-- `REQ_ComputeRoot_Single_Chord` (R114). -/
  | reqRootChord (eps : F64) (equation : Byte)
  /-- `REQ_ComputeRoot_Single_Secant` (R114). -/
  | reqRootSecant (eps : F64) (equation : Byte)
  /-- `REQ_ComputeRoot_Single_SimpleIterationSingle` (R114). -/
  | reqRootSimpleIteration (eps : F64) (equation : Byte)
  /-- `REQ_ComputeRoot_SystemOfEquations` (R114). -/
  | reqRootSystem (eps : F64) (system : Byte)
  /-- `RSP_InitialApproximations` (R116, R267). -/
  | rspApproximations (left right : F64)
  /-- `RSP_ComputeRoot_Ok` (R116, R268). -/
  | rspRootOk (x y : F64)
  /-- `RSP_ComputeRoot_Err_NoRootInRange` (R116, R268). -/
  | rspRootNoRoot
  /-- `RSP_ComputeRoot_Err_MoreThanOneRootInRange` (R116, R268). -/
  | rspRootMoreThanOne
  /-- `RSP_ComputeRoot_Err_Diverges` (R116, R268). -/
  | rspRootDiverges
  /-- `RSP_FunctionPoints__pass_First` (R116, R264): the 256 point records of the long packet. -/
  | rspPointsFirst (points : List Point)
  /-- `RSP_FunctionPointsSecond__pass_Second__systems_only` (R116, R264). -/
  | rspPointsSecond (points : List Point)
  /-- `SIG_Signature` (R109, R255). -/
  | sigSignature
deriving DecidableEq, Repr

/-- The unit an instruction's bytes are (R104, R109). -/
def unitClass : Instr → UnitClass
  | .csEnter | .csExit _ | .rbPushBackRxq _ | .rbPopFrontRxq | .rbSizeRxq | .rbPushBackTxq _
  | .rbPopFrontTxq | .rbSizeTxq | .writeByte _ | .write _ | .readByte | .read _ | .isrUsartRx
  | .isrUsartUdre | .isrPcint | .isrTimer | .timerArm _ | .timerDisable | .frHandshake | .frServeOne =>
    .operation
  | .reqPointsSingle _ | .reqPointsSystem _ | .reqApproximations | .reqRootChord _ _ | .reqRootSecant _ _
  | .reqRootSimpleIteration _ _ | .reqRootSystem _ _ => .request
  | .rspApproximations _ _ => .response .approximations
  | .rspRootOk _ _ | .rspRootNoRoot | .rspRootMoreThanOne | .rspRootDiverges => .response .root
  | .rspPointsFirst _ => .response .pointsFirst
  | .rspPointsSecond _ => .response .pointsSecond
  | .sigSignature => .signature

/-- The issuer classes of an operation (the issuer column of R104); a packet has none. -/
def issuerClass : Instr → Option (List Issuer)
  | .csEnter | .csExit _ => some [.fg, .internal]
  | .rbPushBackRxq _ | .rbPopFrontRxq | .rbSizeRxq | .rbPushBackTxq _ | .rbPopFrontTxq | .rbSizeTxq =>
    some [.internal, .comp]
  | .writeByte _ | .write _ | .readByte | .read _ | .frHandshake | .frServeOne => some [.fg]
  | .isrUsartRx | .isrUsartUdre | .isrPcint | .isrTimer => some [.int]
  | .timerArm _ | .timerDisable => some [.internal]
  | .reqPointsSingle _ | .reqPointsSystem _ | .reqApproximations | .reqRootChord _ _ | .reqRootSecant _ _
  | .reqRootSimpleIteration _ _ | .reqRootSystem _ _ | .rspApproximations _ _ | .rspRootOk _ _
  | .rspRootNoRoot | .rspRootMoreThanOne | .rspRootDiverges | .rspPointsFirst _ | .rspPointsSecond _
  | .sigSignature => none

/-- How an instruction ends (R31, R205): at once, when its attempt does not answer WouldBlock, or after several
atomic steps. -/
inductive EndRule where
  | atOnce
  | attempt
  | manySteps
deriving DecidableEq, Repr

/-- Which end rule an instruction has: the four USART operations and the signature are attempts (R205, R255);
FR.HANDSHAKE, FR.SERVE_ONE and the long packets take many atomic steps (R250, R264). -/
def endRule : Instr → EndRule
  | .writeByte _ | .write _ | .readByte | .read _ | .sigSignature => .attempt
  | .frHandshake | .frServeOne | .rspPointsFirst _ | .rspPointsSecond _ => .manySteps
  | .csEnter | .csExit _ | .rbPushBackRxq _ | .rbPopFrontRxq | .rbSizeRxq | .rbPushBackTxq _
  | .rbPopFrontTxq | .rbSizeTxq | .isrUsartRx | .isrUsartUdre | .isrPcint | .isrTimer | .timerArm _
  | .timerDisable | .reqPointsSingle _ | .reqPointsSystem _ | .reqApproximations | .reqRootChord _ _
  | .reqRootSecant _ _ | .reqRootSimpleIteration _ _ | .reqRootSystem _ _ | .rspApproximations _ _
  | .rspRootOk _ _ | .rspRootNoRoot | .rspRootMoreThanOne | .rspRootDiverges => .atOnce

end Sys2Proof
end

