-- ==== Sys2Proof/Config.lean ====
section
/-! DEFINITION. What an implementation fixes (R8): the constants of the parameter table, the OPEN parameters as a
record that State carries, and the free values of the environment, which are opaque: nothing can be proved of them. -/

namespace Sys2Proof

/-- Number of buttons (R8, R301). -/
def numButtons : Nat := 2

/-- A button of the block (R301). -/
abbrev Button := Fin 2

/-- The pin level of a pressed button (R8, D24). -/
def pressedLevel : Bool := true

/-- Maximum tick span of the timer (R8). -/
def timerSpan : Nat := 16

/-- Points of one pass (R8). -/
def pointsPerPass : Nat := 256

/-- Bytes of a short packet (R8). -/
def shortLen : Nat := 16

/-- Bytes of a long packet (R8). -/
def longLen : Nat := 4096

/-- Bytes of the signature (R8). -/
def sigLen : Nat := 8

/-- How often the device sends the signature (R8, conflict C6). -/
def sigRepeat : Nat := 2

/-- Remaining time of a button pressed while the timer runs (R8, R311, conflict C4). -/
inductive DebounceMode where
  | compensated
  | literal
deriving DecidableEq, Repr, Inhabited

/-- How the handshake recognises the signature (R8, R256, R257, conflict C3). -/
inductive HandshakeMatch where
  | sliding
  | chunked8
deriving DecidableEq, Repr, Inhabited

/-- What the foreground runs (R31, R240): the framer sequencer, or a client program on the operation port. -/
inductive Launch where
  | fullEngine
  | component
deriving DecidableEq, Repr, Inhabited

/-- The configuration: every OPEN parameter of R8, the two parameters with alternatives, what the foreground runs
(R31) and whether boot enables interrupts (R405, R406). No rule changes it. -/
structure Config where
  launch : Launch
  bootEnablesInterrupts : Bool
  rxqN : Nat
  txqN : Nat
  debounceDelay : Nat
  debounceMode : DebounceMode
  handshakeMatch : HandshakeMatch
  signature : BitVec 64
  leftBorder : F64
  rightBorder : F64
  hasPoints : Bool
  hasApprox : Bool
  hasRoot : Bool
  hasCallback0 : Bool
  hasCallback1 : Bool
deriving DecidableEq, Repr

/-- `CB_PRESENT[i]` (R8). -/
def hasCallback (c : Config) (i : Button) : Bool :=
  if i = 0 then c.hasCallback0 else c.hasCallback1

/-- The configuration `State.reset` carries. DESIGN CHOICE (log 3, unsafe for claims about the run from reset): the
OPEN parameters have the values of the spec's test programs. -/
def defaultConfig : Config where
  launch := .fullEngine
  bootEnablesInterrupts := true
  rxqN := 32
  txqN := 32
  debounceDelay := 4
  debounceMode := .compensated
  handshakeMatch := .sliding
  signature := 0x0123456789ABCDEF#64
  leftBorder := 0#64
  rightBorder := 0x4070000000000000#64
  hasPoints := true
  hasApprox := true
  hasRoot := true
  hasCallback0 := true
  hasCallback1 := true

/-- The interrupt sources (R352). -/
inductive Source where
  | usartRx
  | usartUdre
  | pinChange
  | timer
deriving DecidableEq, Repr, Inhabited

/-- Which agent takes the next step, with the choice the agent makes in it (R16, R302, R354). -/
inductive Turn where
  | fg
  | int (src : Source)
  | lineTx
  | host
  | pins (i : Button)
  | timebase
deriving DecidableEq, Repr, Inhabited

/-- FREE VALUE (log 1): the environment's choice of the agent that steps next, once `State.turns` is used up. -/
opaque Config.freeTurn : Nat → Turn

/-- FREE VALUE (log 10): the answer of H_APPROX at the n-th draw (R241). -/
opaque Config.freeApprox : Nat → F64 × F64

/-- FREE VALUE (log 10): the answer of H_POINTS at the n-th draw (R241). -/
opaque Config.freePoint : Nat → Selection → Pass → F64 → Point

/-- FREE VALUE (log 10): the answer of H_ROOT at the n-th draw (R241). -/
opaque Config.freeRoot : Nat → F64 → Mode → RootAnswer

/-- FREE VALUE (log 11): sign and payload of the quiet NaN that a binary64 operation on these operands gives. -/
opaque Config.freeNaN : F64 → F64 → F64

end Sys2Proof
end

