-- ==== Sys2Proof/WellFormed.lean ====
section
/-! DEFINITION. Which instruction terms stand for a legal encoding (R101, R102, R106, R116). -/

namespace Sys2Proof

/-- The NaN pattern of a failed `ComputeRoot` (R116). -/
def sentinelNaN : F64 := 0x7FF8000000000000#64

/-- A `T` operand is 0x00 or 0x01 (R102, R106). -/
def legalToken (t : Byte) : Bool := t.toNat ≤ 1

/-- A `D` operand is 1 to TIMER_SPAN (R102, R106). -/
def legalTicks (d : Byte) : Bool := 1 ≤ d.toNat && d.toNat ≤ timerSpan

/-- A string operand fits its `u16` length operand (R101). -/
def legalString (bs : List Byte) : Bool := bs.length < 65536

/-- The two values of a success do not spell one of the three failure packets of R116. That only these are shut out, and
no other success whose x is a NaN (R416), goes with the model's reading of a response (log 30). -/
def legalSuccess (x y : F64) : Bool := x != sentinelNaN || 2 < y.toNat

/-- A long packet holds 256 point records (R109, R116). -/
def legalPoints (ps : List Point) : Bool := ps.length == pointsPerPass

/-- The check of an instruction's operands against the encodings of its row. -/
def wellFormed : Instr → Bool
  | .csExit t => legalToken t
  | .timerArm d => legalTicks d
  | .write bs => legalString bs
  | .rspRootOk x y => legalSuccess x y
  | .rspPointsFirst ps => legalPoints ps
  | .rspPointsSecond ps => legalPoints ps
  | .csEnter | .rbPushBackRxq _ | .rbPopFrontRxq | .rbSizeRxq | .rbPushBackTxq _ | .rbPopFrontTxq
  | .rbSizeTxq | .writeByte _ | .readByte | .read _ | .isrUsartRx | .isrUsartUdre | .isrPcint
  | .isrTimer | .timerDisable | .frHandshake | .frServeOne | .reqPointsSingle _ | .reqPointsSystem _
  | .reqApproximations | .reqRootChord _ _ | .reqRootSecant _ _ | .reqRootSimpleIteration _ _
  | .reqRootSystem _ _ | .rspApproximations _ _ | .rspRootNoRoot | .rspRootMoreThanOne
  | .rspRootDiverges | .sigSignature => true

end Sys2Proof
end

