-- ==== Sys2Proof/Decode.lean ====
section
/-! DEFINITION. Byte order (R11, R82), the request decoder (R262), the packet encoders (R267 to R269), the decoder of
a unit (R100 to R106, R109 to R118) and, after it, the encoder. -/

namespace Sys2Proof

/-! ## Byte order -/

/-- `LE_n(v)` (R11): the low `n` bytes of `v`, least significant first. -/
def leBytes : Nat → Nat → List Byte
  | 0, _ => []
  | n + 1, v => BitVec.ofNat 8 v :: leBytes n (v / 256)

/-- `fromLE(s)` (R11). -/
def fromLe : List Byte → Nat
  | [] => 0
  | b :: bs => b.toNat + 256 * fromLe bs

/-- `LE_8(v)` of a 64-bit pattern (R11). -/
def le8 (v : BitVec 64) : List Byte := leBytes 8 v.toNat

/-- The 64-bit pattern of eight bytes, `f64(fromLE(s))` as a pattern (R11). -/
def word64 (bs : List Byte) : BitVec 64 := BitVec.ofNat 64 (fromLe bs)

/-- Byte `i` of a packet, `p[i]` (R11). -/
def byteAt (p : List Byte) (i : Nat) : Byte := p.getD i 0#8

/-! ## Requests -/

/-- Tags of the request packets (R8, R111). -/
def tagFunctionPoints : Byte := 0x00#8
/-- See `tagFunctionPoints`. -/
def tagInitialApproximations : Byte := 0x01#8
/-- See `tagFunctionPoints`. -/
def tagComputeRoot : Byte := 0x02#8

/-- The method tag at byte 10 (R114, R262). -/
def decodeMethod (p : List Byte) : Except FaultCode Method :=
  match (byteAt p 10).toNat with
  | 0x00 => .ok .chord
  | 0x01 => .ok .secant
  | 0x02 => .ok .simpleIterationSingle
  | _ => .error .panicMethod

/-- The mode descriptor at bytes 9 to 11 (R114, R262). -/
def decodeMode (p : List Byte) : Except FaultCode Mode :=
  match (byteAt p 9).toNat with
  | 0x00 =>
    match decodeMethod p with
    | .ok m => .ok (.single m (byteAt p 11))
    | .error c => .error c
  | 0x01 => .ok (.system (byteAt p 10))
  | _ => .error .panicMode

/-- The selection at bytes 1 and 2 (R112, R262). -/
def decodeSelection (p : List Byte) : Except FaultCode Selection :=
  match (byteAt p 1).toNat with
  | 0x00 => .ok (.single (byteAt p 2))
  | 0x01 => .ok (.system (byteAt p 2))
  | _ => .error .panicSelection

/-- `decode(p)` (R262); its tests come in the order of R364. Padding is not read. -/
def decodeRequest (p : List Byte) : Except FaultCode Request :=
  if byteAt p 0 = tagFunctionPoints then
    match decodeSelection p with
    | .ok sel => .ok (.functionPoints sel)
    | .error c => .error c
  else if byteAt p 0 = tagInitialApproximations then .ok .initialApproximations
  else if byteAt p 0 = tagComputeRoot then
    match decodeMode p with
    | .ok m => .ok (.computeRoot (word64 ((p.drop 1).take 8)) m)
    | .error c => .error c
  else .error .panicReqTag

/-- The table row of a decoded request. -/
def requestInstr : Request → Instr
  | .functionPoints (.single i) => .reqPointsSingle i
  | .functionPoints (.system i) => .reqPointsSystem i
  | .initialApproximations => .reqApproximations
  | .computeRoot eps (.single .chord e) => .reqRootChord eps e
  | .computeRoot eps (.single .secant e) => .reqRootSecant eps e
  | .computeRoot eps (.single .simpleIterationSingle e) => .reqRootSimpleIteration eps e
  | .computeRoot eps (.system i) => .reqRootSystem eps i

/-- A request packet with its padding zero (R112 to R114): sixteen bytes. -/
def encodeRequest : Request → List Byte
  | .functionPoints (.single i) => [tagFunctionPoints, 0x00#8, i] ++ List.replicate 13 0#8
  | .functionPoints (.system i) => [tagFunctionPoints, 0x01#8, i] ++ List.replicate 13 0#8
  | .initialApproximations => [tagInitialApproximations] ++ List.replicate 15 0#8
  | .computeRoot eps (.single .chord e) =>
    [tagComputeRoot] ++ le8 eps ++ [0x00#8, 0x00#8, e] ++ List.replicate 4 0#8
  | .computeRoot eps (.single .secant e) =>
    [tagComputeRoot] ++ le8 eps ++ [0x00#8, 0x01#8, e] ++ List.replicate 4 0#8
  | .computeRoot eps (.single .simpleIterationSingle e) =>
    [tagComputeRoot] ++ le8 eps ++ [0x00#8, 0x02#8, e] ++ List.replicate 4 0#8
  | .computeRoot eps (.system i) =>
    [tagComputeRoot] ++ le8 eps ++ [0x01#8, i] ++ List.replicate 5 0#8

/-! ## Responses -/

/-- `encode_approx(left, right)` (R267). -/
def encodeApprox (left right : F64) : List Byte := le8 left ++ le8 right

/-- `encode_point(p)` (R269). -/
def encodePoint (p : Point) : List Byte := le8 p.x ++ le8 p.y

/-- The status code of a failure (R116, R268). -/
def errorCode : MethodError → Byte
  | .noRootInRange => 0x00#8
  | .moreThanOneRootInRange => 0x01#8
  | .diverges => 0x02#8

/-- The failure packet of `encode_root` (R268). -/
def failurePacket (e : MethodError) : List Byte :=
  le8 sentinelNaN ++ [errorCode e] ++ List.replicate 7 0#8

/-- `encode_root(res)` (R268). -/
def encodeRoot : RootAnswer → List Byte
  | .ok p => encodePoint p
  | .err e => failurePacket e

/-- The two values of a 16-byte record (R116). -/
def decodePoint (bs : List Byte) : Point :=
  ⟨word64 (bs.take 8), word64 ((bs.drop 8).take 8)⟩

/-- `n` records of 16 bytes each (R116). -/
def decodePoints : Nat → List Byte → List Point
  | 0, _ => []
  | n + 1, bs => decodePoint (bs.take shortLen) :: decodePoints n (bs.drop shortLen)

/-! ## The decoder of a unit -/

/-- Why bytes spell no instruction. -/
inductive Reject where
  /-- The opcode byte is reserved (R106). -/
  | reservedOpcode
  /-- A request packet is malformed, with the fault it raises (R117, R265). -/
  | malformed (code : FaultCode)
  /-- The bytes end inside the unit, or a packet has another length than its kind (R102, R109). -/
  | wrongLength
  /-- A signature unit that is not `LE_8(SIGNATURE)` (R109). -/
  | notSignature
deriving DecidableEq, Repr

/-- Format `B`, `T` or `D`: one operand byte (R102). -/
def withByte (f : Byte → Instr) : List Byte → Except Reject (Instr × List Byte)
  | b :: rest => .ok (f b, rest)
  | [] => .error .wrongLength

/-- Format `L`: a little-endian length (R101, R102). -/
def withLength (f : Word16 → Instr) : List Byte → Except Reject (Instr × List Byte)
  | lo :: hi :: rest => .ok (f (BitVec.ofNat 16 (fromLe [lo, hi])), rest)
  | _ => .error .wrongLength

/-- Format `LS`: a little-endian length and that many bytes (R101, R102). -/
def withString (f : List Byte → Instr) : List Byte → Except Reject (Instr × List Byte)
  | lo :: hi :: rest =>
    if fromLe [lo, hi] ≤ rest.length then
      .ok (f (rest.take (fromLe [lo, hi])), rest.drop (fromLe [lo, hi]))
    else .error .wrongLength
  | _ => .error .wrongLength

/-- The operation at the front of the bytes, and the bytes after it (R102, R104, R106). A token or tick operand out
of range is decoded as it stands: issuing it is refused (R106). -/
def decodeOp : List Byte → Except Reject (Instr × List Byte)
  | [] => .error .wrongLength
  | op :: rest =>
    match op.toNat with
    | 0x00 => .ok (.csEnter, rest)
    | 0x01 => withByte .csExit rest
    | 0x10 => withByte .rbPushBackRxq rest
    | 0x11 => .ok (.rbPopFrontRxq, rest)
    | 0x12 => .ok (.rbSizeRxq, rest)
    | 0x18 => withByte .rbPushBackTxq rest
    | 0x19 => .ok (.rbPopFrontTxq, rest)
    | 0x1A => .ok (.rbSizeTxq, rest)
    | 0x20 => withByte .writeByte rest
    | 0x21 => withString .write rest
    | 0x22 => .ok (.readByte, rest)
    | 0x23 => withLength .read rest
    | 0x30 => .ok (.isrUsartRx, rest)
    | 0x31 => .ok (.isrUsartUdre, rest)
    | 0x32 => .ok (.isrPcint, rest)
    | 0x33 => .ok (.isrTimer, rest)
    | 0x40 => withByte .timerArm rest
    | 0x41 => .ok (.timerDisable, rest)
    | 0x50 => .ok (.frHandshake, rest)
    | 0x51 => .ok (.frServeOne, rest)
    | _ => .error .reservedOpcode

/-- A request unit: one short packet (R110, R262). -/
def decodeRequestUnit (bs : List Byte) : Except Reject Instr :=
  if bs.length = shortLen then
    match decodeRequest bs with
    | .ok r => .ok (requestInstr r)
    | .error c => .error (.malformed c)
  else .error .wrongLength

/-- A `ComputeRoot` response, whose success and failure share their sixteen bytes (R116). The block never decodes one, and
the spec leaves open what a packet stands for that selects a failure's row and the success's empty row alike (R119), or
whose x is another NaN (R416, U8): that the three exact failure packets are read as failures and all else as a success
is the model's choice (DESIGN CHOICE, log 30). -/
def decodeRootResponse (bs : List Byte) : Instr :=
  if bs = failurePacket .noRootInRange then .rspRootNoRoot
  else if bs = failurePacket .moreThanOneRootInRange then .rspRootMoreThanOne
  else if bs = failurePacket .diverges then .rspRootDiverges
  else .rspRootOk (decodePoint bs).x (decodePoint bs).y

/-- A response unit of the kind the protocol state expects (R110, R115). -/
def decodeResponse (kind : ResponseKind) (bs : List Byte) : Except Reject Instr :=
  match kind with
  | .approximations =>
    if bs.length = shortLen then .ok (.rspApproximations (decodePoint bs).x (decodePoint bs).y)
    else .error .wrongLength
  | .root => if bs.length = shortLen then .ok (decodeRootResponse bs) else .error .wrongLength
  | .pointsFirst =>
    if bs.length = longLen then .ok (.rspPointsFirst (decodePoints pointsPerPass bs))
    else .error .wrongLength
  | .pointsSecond =>
    if bs.length = longLen then .ok (.rspPointsSecond (decodePoints pointsPerPass bs))
    else .error .wrongLength

/-- The instruction a unit's bytes spell, or why they spell none; `sig` is the SIGNATURE parameter. An operation is
read from the front of the bytes; what follows it is not read (log 19). -/
def decodeUnit (sig : BitVec 64) (cls : UnitClass) (bs : List Byte) : Except Reject Instr :=
  match cls with
  | .operation =>
    match decodeOp bs with
    | .ok r => .ok r.1
    | .error e => .error e
  | .request => decodeRequestUnit bs
  | .response k => decodeResponse k bs
  | .signature => if bs = le8 sig then .ok .sigSignature else .error .notSignature

/-! ## The encoder -/

/-- The bytes of an instruction (R104, R109 to R116), padding zero. -/
def encode (sig : BitVec 64) : Instr → List Byte
  | .csEnter => [0x00#8]
  | .csExit t => [0x01#8, t]
  | .rbPushBackRxq v => [0x10#8, v]
  | .rbPopFrontRxq => [0x11#8]
  | .rbSizeRxq => [0x12#8]
  | .rbPushBackTxq v => [0x18#8, v]
  | .rbPopFrontTxq => [0x19#8]
  | .rbSizeTxq => [0x1A#8]
  | .writeByte b => [0x20#8, b]
  | .write bs => [0x21#8] ++ leBytes 2 bs.length ++ bs
  | .readByte => [0x22#8]
  | .read len => [0x23#8] ++ leBytes 2 len.toNat
  | .isrUsartRx => [0x30#8]
  | .isrUsartUdre => [0x31#8]
  | .isrPcint => [0x32#8]
  | .isrTimer => [0x33#8]
  | .timerArm d => [0x40#8, d]
  | .timerDisable => [0x41#8]
  | .frHandshake => [0x50#8]
  | .frServeOne => [0x51#8]
  | .reqPointsSingle i => encodeRequest (.functionPoints (.single i))
  | .reqPointsSystem i => encodeRequest (.functionPoints (.system i))
  | .reqApproximations => encodeRequest .initialApproximations
  | .reqRootChord eps e => encodeRequest (.computeRoot eps (.single .chord e))
  | .reqRootSecant eps e => encodeRequest (.computeRoot eps (.single .secant e))
  | .reqRootSimpleIteration eps e => encodeRequest (.computeRoot eps (.single .simpleIterationSingle e))
  | .reqRootSystem eps i => encodeRequest (.computeRoot eps (.system i))
  | .rspApproximations l r => encodeApprox l r
  | .rspRootOk x y => encodeRoot (.ok ⟨x, y⟩)
  | .rspRootNoRoot => encodeRoot (.err .noRootInRange)
  | .rspRootMoreThanOne => encodeRoot (.err .moreThanOneRootInRange)
  | .rspRootDiverges => encodeRoot (.err .diverges)
  | .rspPointsFirst ps => ps.flatMap encodePoint
  | .rspPointsSecond ps => ps.flatMap encodePoint
  | .sigSignature => le8 sig

/-! ## The opcode table's numbering -/

/-- The kind and the bytes of the unit whose table bits are `w` (R119): one byte, or a first byte that is no request
tag, is an operation followed by operand bytes of zeros; sixteen bytes that are a failure packet are that response;
256 records are a long packet; anything else is a request padded to sixteen bytes (log 21). -/
def tableUnit (nbits w : Nat) : UnitClass × List Byte :=
  let n := (nbits + 7) / 8
  let bs := leBytes n (w % 2 ^ nbits)
  if n ≤ 1 ∨ 3 ≤ (byteAt bs 0).toNat then
    let head := bs ++ List.replicate (3 - n) 0#8
    let len := if byteAt head 0 = 0x21#8 then fromLe [byteAt head 1, byteAt head 2] else 0
    (.operation, head ++ List.replicate (len - (head.length - 3)) 0#8)
  else if bs = failurePacket .noRootInRange ∨ bs = failurePacket .moreThanOneRootInRange
      ∨ bs = failurePacket .diverges then (.response .root, bs)
  else if n = longLen then (.response .pointsFirst, bs)
  else (.request, bs ++ List.replicate (shortLen - n) 0#8)

/-- The instruction the decoder reads from the unit whose table bits are `w`; the signature is that of
`defaultConfig`. -/
def decodeTableWord (nbits w : Nat) : Option Instr :=
  match decodeUnit defaultConfig.signature (tableUnit nbits w).1 (tableUnit nbits w).2 with
  | .ok i => some i
  | .error _ => none

/-- The `match` and `mask` bytes of an instruction's row of spec/opcode_table.json (R119), byte 0 first. -/
def tableRow : Instr → List (Byte × Byte)
  | .csEnter => [(0x00#8, 0xFF#8)]
  | .csExit _ => [(0x01#8, 0xFF#8)]
  | .rbPushBackRxq _ => [(0x10#8, 0xFF#8)]
  | .rbPopFrontRxq => [(0x11#8, 0xFF#8)]
  | .rbSizeRxq => [(0x12#8, 0xFF#8)]
  | .rbPushBackTxq _ => [(0x18#8, 0xFF#8)]
  | .rbPopFrontTxq => [(0x19#8, 0xFF#8)]
  | .rbSizeTxq => [(0x1A#8, 0xFF#8)]
  | .writeByte _ => [(0x20#8, 0xFF#8)]
  | .write _ => [(0x21#8, 0xFF#8)]
  | .readByte => [(0x22#8, 0xFF#8)]
  | .read _ => [(0x23#8, 0xFF#8)]
  | .isrUsartRx => [(0x30#8, 0xFF#8)]
  | .isrUsartUdre => [(0x31#8, 0xFF#8)]
  | .isrPcint => [(0x32#8, 0xFF#8)]
  | .isrTimer => [(0x33#8, 0xFF#8)]
  | .timerArm _ => [(0x40#8, 0xFF#8)]
  | .timerDisable => [(0x41#8, 0xFF#8)]
  | .frHandshake => [(0x50#8, 0xFF#8)]
  | .frServeOne => [(0x51#8, 0xFF#8)]
  | .reqPointsSingle _ => [(0x00#8, 0xFF#8), (0x00#8, 0xFF#8)]
  | .reqPointsSystem _ => [(0x00#8, 0xFF#8), (0x01#8, 0xFF#8)]
  | .reqApproximations => [(0x01#8, 0xFF#8)]
  | .reqRootChord _ _ =>
    [(0x02#8, 0xFF#8)] ++ List.replicate 8 (0x00#8, 0x00#8) ++ [(0x00#8, 0xFF#8), (0x00#8, 0xFF#8)]
  | .reqRootSecant _ _ =>
    [(0x02#8, 0xFF#8)] ++ List.replicate 8 (0x00#8, 0x00#8) ++ [(0x00#8, 0xFF#8), (0x01#8, 0xFF#8)]
  | .reqRootSimpleIteration _ _ =>
    [(0x02#8, 0xFF#8)] ++ List.replicate 8 (0x00#8, 0x00#8) ++ [(0x00#8, 0xFF#8), (0x02#8, 0xFF#8)]
  | .reqRootSystem _ _ =>
    [(0x02#8, 0xFF#8)] ++ List.replicate 8 (0x00#8, 0x00#8) ++ [(0x01#8, 0xFF#8)]
  | .rspRootNoRoot =>
    List.replicate 6 (0x00#8, 0xFF#8) ++ [(0xF8#8, 0xFF#8), (0x7F#8, 0xFF#8), (0x00#8, 0xFF#8)]
      ++ List.replicate 7 (0x00#8, 0xFF#8)
  | .rspRootMoreThanOne =>
    List.replicate 6 (0x00#8, 0xFF#8) ++ [(0xF8#8, 0xFF#8), (0x7F#8, 0xFF#8), (0x01#8, 0xFF#8)]
      ++ List.replicate 7 (0x00#8, 0xFF#8)
  | .rspRootDiverges =>
    List.replicate 6 (0x00#8, 0xFF#8) ++ [(0xF8#8, 0xFF#8), (0x7F#8, 0xFF#8), (0x02#8, 0xFF#8)]
      ++ List.replicate 7 (0x00#8, 0xFF#8)
  | .rspApproximations _ _ | .rspRootOk _ _ | .rspPointsFirst _ | .rspPointsSecond _ | .sigSignature => []

/-- A packet or operation selects a row when every byte the row covers agrees under its mask (R119). -/
def rowSelects : List (Byte × Byte) → List Byte → Bool
  | [], _ => true
  | _ :: _, [] => false
  | (m, k) :: row, b :: bs => (b &&& k == m) && rowSelects row bs

end Sys2Proof
end

