-- ==== Sys2Proof/Machine/State.lean ====
section
/-! DEFINITION. The state of the block (10_state.md) as plain data, the reasons a step can stop, and the machine right
after reset (R400). -/

namespace Sys2Proof.Machine

/-- A ring buffer (R36): its slots and its two indices. The capacity is a parameter (R8). -/
structure RingBuf where
  slot : List (Option Byte)
  front : Nat
  back : Nat
deriving DecidableEq, Repr

/-- The empty ring buffer of capacity `n` (R37). -/
def emptyRing (n : Nat) : RingBuf := ⟨List.replicate n none, 0, 1⟩

/-- The two queues (R35). -/
inductive Queue where
  | rxq
  | txq
deriving DecidableEq, Repr

/-- Transmit-direction state (R38). -/
inductive TxState where
  | idle
  | buffering
deriving DecidableEq, Repr

/-- State of one button (R44). -/
inductive ButtonState where
  | up
  | down (remaining : Nat)
  | pressed
deriving DecidableEq, Repr

/-- One value for each of the two buttons (R301). -/
structure PerButton (α : Type) where
  b0 : α
  b1 : α
deriving DecidableEq, Repr

/-- The value of button `i`. -/
def buttonGet {α : Type} (p : PerButton α) (i : Button) : α := if i = 0 then p.b0 else p.b1

/-- The value of button `i` replaced. -/
def buttonSet {α : Type} (p : PerButton α) (i : Button) (v : α) : PerButton α :=
  if i = 0 then { p with b0 := v } else { p with b1 := v }

/-- State of the shared timer (R47). -/
inductive TimerState where
  | disabled
  | running
  | expired
deriving DecidableEq, Repr

/-- The shared compare-match timer (R47, R48). -/
structure Timer where
  state : TimerState
  tcnt : Nat
  ocr : Nat
deriving DecidableEq, Repr

/-- The sequencer phases of R250. The pass and index of SRV_POINTS and SRV_PT_SEND stand in `State.pass` and
`State.k` (R51). -/
inductive Phase where
  | hsSend (c : Nat)
  | hsRecv
  | srvRead
  | srvDispatch
  | srvSend
  | srvPoints
  | srvPtSend
deriving DecidableEq, Repr

/-- The result an operation ends with (R105, and R154 for a pop). `pending` is the model's own: an operation of many
atomic steps has not ended (log 16). -/
inductive OpResult where
  | ok
  | okByte (b : Byte)
  | okBytes (bs : List Byte)
  | okCount (n : Nat)
  | okToken (t : Bool)
  | popped (v : Option Byte)
  | wouldBlock
  | success
  | bufferFull
  | pending
deriving DecidableEq, Repr

/-- Reasons of a refusal of the operation port (R362). -/
inductive RefuseReason where
  | illegalOp
  | illegalOperand
  | wrongIssuer
deriving DecidableEq, Repr

/-- A call of a handler port with its arguments (R241). -/
inductive HandlerCall where
  | points (sel : Selection) (pass : Pass) (x : F64)
  | approx
  | root (eps : F64) (mode : Mode)
deriving DecidableEq, Repr

/-- How a client issues a port entry (R108): once, or again while it answers WouldBlock (the *_BLOCKING forms), or as
the entry or exit of a CRITICAL region, whose token the client keeps in between (R182). -/
inductive IssueMode where
  | once
  | blocking
  | saveToken
  | restoreToken
deriving DecidableEq, Repr

/-- One unit of the client's operation list (R31, R100): on whose behalf it is issued (R103), how, what kind of unit
its bytes are, and the bytes. -/
structure PortEntry where
  issuer : Issuer
  mode : IssueMode
  cls : UnitClass
  bytes : List Byte
deriving DecidableEq, Repr

/-- Why a machine stops for good. -/
inductive Fault where
  /-- Raised by `step` in a state whose `S.fault` holds a code: no agent has a step until reset (R360, R361). Safe: it is
  what the spec says. -/
  | halted (code : FaultCode)
deriving DecidableEq, Repr

/-- Why a step has no meaning. -/
inductive Refusal where
  /-- Raised by an arm of `exec` that has no meaning yet. Safe: nothing can be proved of the instruction. -/
  | notModelled (mnemonic : String)
  /-- Raised by `step`: the configuration breaks a constraint of R8 and is refused, not run. Safe. -/
  | illegalConfiguration
  /-- Raised by `step`: a port entry's bytes end inside the unit, or a packet has not its kind's length or is no
  signature; the spec says nothing of such bytes (log 19). Safe: the run stops. -/
  | incompleteUnit
deriving DecidableEq, Repr

/-- The state of the block. INVENTORY.md names each field's rule under State, and says which fields are the model's own
(log 6): `booted`, `refusals`, `sel`, `issuer`, `tokens`, `turns`, `turnNo`, the three answer lists, `draws`, `calls`. -/
structure State where
  cfg : Config
  booted : Bool
  gie : Bool
  fault : Option FaultCode
  refused : Bool
  refusals : List (Issuer × RefuseReason)
  rxq : RingBuf
  txq : RingBuf
  txState : TxState
  udrie : Bool
  txDr : Option Byte
  udre : Bool
  rxDr : Option Byte
  rxc : Bool
  dor : Bool
  rxcie : Bool
  txLine : List Byte
  hostRx : List Byte
  hostRxPos : Nat
  btn : PerButton ButtonState
  pin : PerButton Bool
  pcie : Bool
  pcif : Bool
  tmr : Timer
  press : List Button
  phase : Phase
  idx : Nat
  hsWin : List Byte
  req : List Byte
  pass : Pass
  k : Nat
  out : List Byte
  sel : Selection
  port : List PortEntry
  issuer : Issuer
  result : Option OpResult
  tokens : List Bool
  turns : List Turn
  turnNo : Nat
  approxAnswers : List (F64 × F64)
  pointAnswers : List Point
  rootAnswers : List RootAnswer
  draws : Nat
  calls : List HandlerCall
deriving DecidableEq, Repr

/-- The block with configuration `c` right after reset (R400), nothing loaded on the port. -/
def resetWith (c : Config) : State where
  cfg := c
  booted := false
  gie := false
  fault := none
  refused := false
  refusals := []
  rxq := emptyRing c.rxqN
  txq := emptyRing c.txqN
  txState := .idle
  udrie := false
  txDr := none
  udre := true
  rxDr := none
  rxc := false
  dor := false
  rxcie := true
  txLine := []
  hostRx := []
  hostRxPos := 0
  btn := ⟨.up, .up⟩
  pin := ⟨false, false⟩
  pcie := true
  pcif := false
  tmr := ⟨.disabled, 0, 1⟩
  press := []
  phase := .hsSend 0
  idx := 0
  hsWin := []
  req := List.replicate shortLen 0#8
  pass := .first
  k := 0
  out := []
  sel := .single 0#8
  port := []
  issuer := .fg
  result := none
  tokens := []
  turns := []
  turnNo := 0
  approxAnswers := []
  pointAnswers := []
  rootAnswers := []
  draws := 0
  calls := []

/-- The machine right after reset (R400). -/
def State.reset : State := resetWith defaultConfig

end Sys2Proof.Machine
end

