-- ==== Sys2Proof/Machine/Flags.lean ====
section
/-! DEFINITION. The flags: when a source requests (R352, R353), the transmit enable (R39), the packed register view
(R52) and the byte form of results (R105). -/

namespace Sys2Proof.Machine

/-- A source is pending (R352). -/
def pending (src : Source) (s : State) : Bool :=
  match src with
  | .usartRx => s.rxc
  | .usartUdre => s.udre
  | .pinChange => s.pcif
  | .timer => s.tmr.state == .expired

/-- A source is enabled (R352); the timer's enable is implied by its not being Disabled (R49). -/
def enabled (src : Source) (s : State) : Bool :=
  match src with
  | .usartRx => s.rxcie
  | .usartUdre => s.udrie
  | .pinChange => s.pcie
  | .timer => s.tmr.state != .disabled

/-- A source is requesting: pending and enabled (R353). -/
def requesting (src : Source) (s : State) : Bool := pending src s && enabled src s

/-- The vector code of a source (R352). -/
def vectorCode : Source → Byte
  | .usartRx => 0x30#8
  | .usartUdre => 0x31#8
  | .pinChange => 0x32#8
  | .timer => 0x33#8

/-- Transition to Buffering with the transmit interrupt enabled, if the driver was Idle (R190). -/
def startTransmit (s : State) : State :=
  match s.txState with
  | .idle => { s with txState := .buffering, udrie := true }
  | .buffering => s

/-- Transition to Idle with the transmit interrupt disabled (R211). -/
def stopTransmit (s : State) : State := { s with txState := .idle, udrie := false }

/-- The receive direction's derived state (R42): Buffering exactly when RXQ is not empty. -/
def rxState (rxqIsEmpty : Bool) : TxState := if rxqIsEmpty then .idle else .buffering

/-- A button is pressed (R300, R45). -/
def pinPressed (level : Bool) : Bool := level == pressedLevel

/-! ## The packed register view (R52): naming only, no rule reads it

R52 names some bits of each register and gives no register a width. That every one is eight bits, that the bits it does
not name show 0, and that reading a state back from a byte ignores them, is the model's choice (DESIGN CHOICE, log 28). -/

/-- One bit of a packed register. -/
def bitAt (i : Nat) (b : Bool) : Nat := if b then 2 ^ i else 0

/-- `CORE` (R52); its width and its bits 7:1, which show 0, are the model's choice (log 28). -/
def packedCore (s : State) : Byte := BitVec.ofNat 8 (bitAt 0 s.gie)

/-- `USART_CTRL` (R52); its width and its bits 7:3 are the model's choice (log 28). -/
def packedUsartCtrl (s : State) : Byte :=
  BitVec.ofNat 8 (bitAt 0 s.rxcie + bitAt 1 s.udrie + bitAt 2 (s.txState == .buffering))

/-- `USART_STAT` (R52); its width and its bits 7:3 are the model's choice (log 28). -/
def packedUsartStat (s : State) : Byte :=
  BitVec.ofNat 8 (bitAt 0 s.rxc + bitAt 1 s.udre + bitAt 2 s.dor)

/-- `USART_TXD` (R52). -/
def packedUsartTxd (s : State) : Option Byte := s.txDr

/-- `USART_RXD` (R52). -/
def packedUsartRxd (s : State) : Option Byte := s.rxDr

/-- `PC_CTRL` (R52); its width and its bits 7:2 are the model's choice (log 28). -/
def packedPcCtrl (s : State) : Byte := BitVec.ofNat 8 (bitAt 0 s.pcie + bitAt 1 s.pcif)

/-- The two state bits of `TMR_CTRL` (R52). -/
def timerStateCode : TimerState → Byte
  | .disabled => 0x00#8
  | .running => 0x01#8
  | .expired => 0x02#8

/-- `TMR_CTRL` (R52); its width and its bits 7:2 are the model's choice (log 28). -/
def packedTmrCtrl (s : State) : Byte := timerStateCode s.tmr.state

/-- `TMR_CNT` (R52); its width and its bits 7:5 are the model's choice (log 28). -/
def packedTmrCnt (s : State) : Byte := BitVec.ofNat 8 (s.tmr.tcnt % 32)

/-- `TMR_OCR` (R52); its width and its bits 7:5 are the model's choice (log 28). -/
def packedTmrOcr (s : State) : Byte := BitVec.ofNat 8 (s.tmr.ocr % 32)

/-- `BTN[i]` of a button state (R52). `remaining` has a meaning only when Down; that bits 5:0 show 0 while the button is
Pressed, or Up at another time than reset, is the model's choice (DESIGN CHOICE, log 28). -/
def packedButton : ButtonState → Byte
  | .up => 0x00#8
  | .down r => BitVec.ofNat 8 (64 + r % 64)
  | .pressed => 0x80#8

/-- `BTN[i]` (R52). -/
def packedBtn (i : Button) (s : State) : Byte := packedButton (buttonGet s.btn i)

/-- The timer state a value of the `TMR_CTRL` state field stands for; 3 is reserved and has none (R52, U23). That
bits 7:2 of the byte are ignored is the model's choice (log 28). -/
def timerStateOf (code : Byte) : Option TimerState :=
  match code.toNat % 4 with
  | 0 => some .disabled
  | 1 => some .running
  | 2 => some .expired
  | _ => none

/-- The button state a `BTN[i]` value stands for; state 3 is reserved and has none (R52, U23). That a Down state with
`remaining` from 33 to 63, outside R52's legal values 0 to 32, is read as it stands, and that bits 5:0 are ignored in the
other states, is the model's choice (DESIGN CHOICE, log 28). -/
def buttonStateOf (code : Byte) : Option ButtonState :=
  match code.toNat / 64 with
  | 0 => some .up
  | 1 => some (.down (code.toNat % 64))
  | 2 => some .pressed
  | _ => none

/-! ## Results as bytes (R105) -/

/-- The byte form of a result (R105): a status byte and the data of an `Ok` form. `none` and `some v` of a pop and the
model's `pending` have no byte form in R105. `LE_2` cannot carry a count above 65535, which RB.SIZE of a large queue can
answer; that its low 16 bits stand for it then is the model's choice (DESIGN CHOICE, log 29). -/
def resultBytes : OpResult → Option (List Byte)
  | .ok => some [0x00#8]
  | .success => some [0x00#8]
  | .okByte b => some [0x00#8, b]
  | .okBytes bs => some (0x00#8 :: bs)
  | .okCount n => some (0x00#8 :: leBytes 2 n)
  | .okToken t => some [0x00#8, if t then 0x01#8 else 0x00#8]
  | .wouldBlock => some [0x01#8]
  | .bufferFull => some [0x02#8]
  | .popped _ => none
  | .pending => none

end Sys2Proof.Machine
end

