-- ==== Sys2Proof/Machine/Float64.lean ====
section
/-! DEFINITION. The binary64 arithmetic of the sample positions (R10, R270): subtraction, division, multiplication and
addition rounded to nearest, ties to even, each computed exactly on dyadic numbers and narrowed once at the end. -/

namespace Sys2Proof.Machine

/-- A binary64 value taken apart. `finite s m e` is (-1)^s * m * 2^e. -/
inductive Unpacked where
  | nan
  | infinite (negative : Bool)
  | finite (negative : Bool) (mantissa : Nat) (exponent : Int)
deriving DecidableEq, Repr

/-- Sign bit of a pattern (R10). -/
def f64Sign (w : F64) : Bool := w.toNat / 2 ^ 63 == 1

/-- Biased exponent field of a pattern (R10). -/
def f64Exponent (w : F64) : Nat := w.toNat / 2 ^ 52 % 2 ^ 11

/-- Fraction field of a pattern (R10). -/
def f64Fraction (w : F64) : Nat := w.toNat % 2 ^ 52

/-- The value a pattern stands for (R10). -/
def f64Unpack (w : F64) : Unpacked :=
  if f64Exponent w = 2047 then
    if f64Fraction w = 0 then .infinite (f64Sign w) else .nan
  else if f64Exponent w = 0 then .finite (f64Sign w) (f64Fraction w) (-1074)
  else .finite (f64Sign w) (2 ^ 52 + f64Fraction w) ((f64Exponent w : Int) - 1075)

/-- The sign bit of a result. -/
def f64SignBit (negative : Bool) : Nat := if negative then 2 ^ 63 else 0

/-- The infinity of a sign. -/
def f64Infinity (negative : Bool) : F64 := BitVec.ofNat 64 (f64SignBit negative + 2047 * 2 ^ 52)

/-- The zero of a sign. -/
def f64Zero (negative : Bool) : F64 := BitVec.ofNat 64 (f64SignBit negative)

/-- `m / 2^n` rounded to nearest, ties to even (R270). -/
def roundShift (m n : Nat) : Nat :=
  let q := m / 2 ^ n
  let twice := 2 * (m % 2 ^ n)
  if twice > 2 ^ n ∨ (twice = 2 ^ n ∧ q % 2 = 1) then q + 1 else q

/-- The pattern of (-1)^negative * m * 2^e rounded to nearest, ties to even (R270): the kept mantissa has at most 53
bits and its least bit weighs at least 2^-1074; a value past the largest finite one is infinite. -/
def f64Round (negative : Bool) (m : Nat) (e : Int) : F64 :=
  if m = 0 then f64Zero negative
  else
    let least : Int := max (e + Nat.log2 m - 52) (-1074)
    let kept := if e ≤ least then roundShift m (least - e).toNat else m * 2 ^ (e - least).toNat
    let bits := (least + 1074).toNat * 2 ^ 52 + kept
    if 2047 * 2 ^ 52 ≤ bits then f64Infinity negative
    else BitVec.ofNat 64 (f64SignBit negative + bits)

/-- The quiet NaN an operation on `a` and `b` gives; its sign and payload are a free value (log 11). -/
def f64NaN (a b : F64) : F64 := 0x7FF8000000000000#64 ||| Config.freeNaN a b

/-- The exact value as a signed multiple of a power of two. -/
def signedMantissa (negative : Bool) (m : Nat) : Int := if negative then -(m : Int) else m

/-- binary64 addition (R270). An exact zero sum is +0 unless both operands are -0. -/
def f64Add (a b : F64) : F64 :=
  match f64Unpack a, f64Unpack b with
  | .nan, _ => f64NaN a b
  | _, .nan => f64NaN a b
  | .infinite s, .infinite t => if s = t then f64Infinity s else f64NaN a b
  | .infinite s, .finite _ _ _ => f64Infinity s
  | .finite _ _ _, .infinite t => f64Infinity t
  | .finite s m e, .finite t n f =>
    let g := min e f
    let sum := signedMantissa s (m * 2 ^ (e - g).toNat) + signedMantissa t (n * 2 ^ (f - g).toNat)
    if sum = 0 then f64Zero (s && t && m == 0 && n == 0)
    else f64Round (decide (sum < 0)) sum.natAbs g

/-- The pattern with its sign bit changed. -/
def f64Neg (a : F64) : F64 := a ^^^ 0x8000000000000000#64

/-- binary64 subtraction (R270). -/
def f64Sub (a b : F64) : F64 :=
  match f64Unpack b with
  | .nan => f64NaN a b
  | _ =>
    match f64Unpack a with
    | .nan => f64NaN a b
    | _ => f64Add a (f64Neg b)

/-- binary64 multiplication (R270). -/
def f64Mul (a b : F64) : F64 :=
  match f64Unpack a, f64Unpack b with
  | .nan, _ => f64NaN a b
  | _, .nan => f64NaN a b
  | .infinite s, .infinite t => f64Infinity (s ^^ t)
  | .infinite s, .finite t n _ => if n = 0 then f64NaN a b else f64Infinity (s ^^ t)
  | .finite s m _, .infinite t => if m = 0 then f64NaN a b else f64Infinity (s ^^ t)
  | .finite s m e, .finite t n f => f64Round (s ^^ t) (m * n) (e + f)

/-- binary64 division (R270). The quotient carries 120 extra bits and a last bit that says whether a remainder is
left, which decides every rounding. -/
def f64Div (a b : F64) : F64 :=
  match f64Unpack a, f64Unpack b with
  | .nan, _ => f64NaN a b
  | _, .nan => f64NaN a b
  | .infinite _, .infinite _ => f64NaN a b
  | .infinite s, .finite t _ _ => f64Infinity (s ^^ t)
  | .finite s _ _, .infinite t => f64Zero (s ^^ t)
  | .finite s m e, .finite t n f =>
    if n = 0 then
      if m = 0 then f64NaN a b else f64Infinity (s ^^ t)
    else
      let num := m * 2 ^ 120
      let sticky := if num % n = 0 then 0 else 1
      f64Round (s ^^ t) (2 * (num / n) + sticky) (e - f - 121)

/-- The binary64 value of a natural number, `k as binary64` (R270). -/
def f64OfNat (k : Nat) : F64 := f64Round false k 0

/-- A pattern is finite (the border constraint of R8). -/
def f64Finite (w : F64) : Bool := f64Exponent w != 2047

/-- The order of finite values: sign and magnitude as an integer, both zeros equal. -/
def f64Key (w : F64) : Int := signedMantissa (f64Sign w) (w.toNat % 2 ^ 63)

/-- `a < b` on finite values (the border constraint of R8). -/
def f64Less (a b : F64) : Bool := decide (f64Key a < f64Key b)

/-- 256.0 as a pattern (R270). -/
def f64TwoFiftySix : F64 := 0x4070000000000000#64

/-- `step = (RIGHT_BORDER - LEFT_BORDER) / 256.0` (R270). -/
def sampleStep (c : Config) : F64 := f64Div (f64Sub c.rightBorder c.leftBorder) f64TwoFiftySix

/-- `x_k = LEFT_BORDER + (k as binary64) * step` (R270). -/
def sampleX (c : Config) (k : Nat) : F64 := f64Add c.leftBorder (f64Mul (f64OfNat k) (sampleStep c))

/-- The constraints on a configuration (R8, R158, U4): one that breaks a constraint is refused, not run. -/
def configLegal (c : Config) : Bool :=
  2 ≤ c.rxqN && 2 ≤ c.txqN && 1 ≤ c.debounceDelay && c.debounceDelay ≤ timerSpan
    && f64Finite c.leftBorder && f64Finite c.rightBorder && f64Less c.leftBorder c.rightBorder

end Sys2Proof.Machine
end

