-- ==== Sys2Proof/Machine/Operands.lean ====
section
/-! DEFINITION. The operands of the operations as the meanings use them (R101, R102). -/

namespace Sys2Proof.Machine

/-- The flag value of a token operand (R101, R181). -/
def tokenFlag (t : Byte) : Bool := t.toNat == 1

/-- The byte of a token (R101). -/
def tokenByte (t : Bool) : Byte := if t then 0x01#8 else 0x00#8

/-- The tick count of a `D` operand (R101, R306). -/
def tickCount (d : Byte) : Nat := d.toNat

/-- The length of an `L` operand (R101, R196). -/
def lengthOf (len : Word16) : Nat := len.toNat

end Sys2Proof.Machine
end

