-- ==== Sys2Proof/Machine/Ops.lean ====
section
/-! DEFINITION. The named operations: the critical section (R180 to R184), the ring buffer (R150 to R157), faults and
refusals (R360, R362), interrupt entry and return (R356, R357), the timer (R306, R307) and the handler ports (R241). -/

namespace Sys2Proof.Machine

/-! ## Results, faults and refusals -/

/-- End an operation with a result (R105). -/
def endWith (r : OpResult) (s : State) : State := { s with result := some r }

/-- `raise Fault(code)` (R14, R360). -/
def raise (code : FaultCode) (s : State) : State := { s with fault := some code }

/-- `refuse(reason)` (R362): no other effect; the issuing agent has no further step (see `stopped`). -/
def refuse (reason : RefuseReason) (s : State) : State :=
  { s with refused := true, refusals := s.refusals ++ [(s.issuer, reason)] }

/-- An agent whose operation was refused has no further step (R362). -/
def stopped (a : Issuer) (s : State) : Bool := s.refusals.any (fun r => r.1 == a)

/-- Move the foreground sequencer, `pc <- phase` (R15). -/
def setPhase (p : Phase) (s : State) : State := { s with phase := p }

/-! ## The critical section -/

/-- Set the global interrupt enable. -/
def setGie (b : Bool) (s : State) : State := { s with gie := b }

/-- CS.ENTER (R180): the token and the state with interrupts off. -/
def csEnter (s : State) : Bool × State := (s.gie, setGie false s)

/-- CS.EXIT t (R181). -/
def csExit (t : Bool) (s : State) : State := setGie t s

/-- `CS.ENTER -> t; body; CS.EXIT t` (R157, R182). -/
def critical {α : Type} (body : State → α × State) (s : State) : α × State :=
  let e := csEnter s
  let r := body e.2
  (r.1, csExit e.1 r.2)

/-! ## The ring buffer -/

/-- `SlotRead(q, i)` (R13). -/
def slotRead (q : RingBuf) (i : Nat) : Option Byte := q.slot.getD i none

/-- `SlotWrite(q, i, v)` (R13). -/
def slotWrite (q : RingBuf) (i : Nat) (v : Option Byte) : RingBuf := { q with slot := q.slot.set i v }

/-- `size(q)` (R150). -/
def ringSize (n : Nat) (q : RingBuf) : Nat := (((q.back : Int) - q.front - 1) % (n : Int)).toNat

/-- `is_full(q)` (R151). -/
def ringFull (q : RingBuf) : Bool := q.front == q.back

/-- `is_empty(q)` (R152). -/
def ringEmpty (n : Nat) (q : RingBuf) : Bool := (q.front + 1) % n == q.back

/-- Result of a push (R153). -/
inductive PushResult where
  | success
  | bufferFull
deriving DecidableEq, Repr

/-- `push(q, v)` (R153). -/
def ringPush (n : Nat) (v : Byte) (q : RingBuf) : PushResult × RingBuf :=
  if ringFull q then (.bufferFull, q)
  else (.success, { slotWrite q q.back (some v) with back := (q.back + 1) % n })

/-- `pop(q)` (R154). -/
def ringPop (n : Nat) (q : RingBuf) : Option Byte × RingBuf :=
  if ringEmpty n q then (none, q)
  else
    let f := (q.front + 1) % n
    (slotRead q f, { slotWrite q f none with front := f })

/-- The pushes of a string in order (R192). -/
def ringPushAll (n : Nat) : List Byte → RingBuf → RingBuf
  | [], q => q
  | b :: bs, q => ringPushAll n bs (ringPush n b q).2

/-- `len` pops in order and the bytes they give (R196). -/
def ringPopMany (n : Nat) : Nat → RingBuf → List Byte × RingBuf
  | 0, q => ([], q)
  | len + 1, q =>
    let r := ringPop n q
    let rest := ringPopMany n len r.2
    (r.1.toList ++ rest.1, rest.2)

/-- Capacity of a queue (R35). -/
def capacity (w : Queue) (s : State) : Nat :=
  match w with
  | .rxq => s.cfg.rxqN
  | .txq => s.cfg.txqN

/-- A queue of the block (R35). -/
def getQueue (w : Queue) (s : State) : RingBuf :=
  match w with
  | .rxq => s.rxq
  | .txq => s.txq

/-- A queue of the block replaced. -/
def setQueue (w : Queue) (q : RingBuf) (s : State) : State :=
  match w with
  | .rxq => { s with rxq := q }
  | .txq => { s with txq := q }

/-- RB.PUSH_BACK on a queue of the block, inside a critical section (R153, R157). -/
def queuePush (w : Queue) (v : Byte) (s : State) : PushResult × State :=
  critical (fun t =>
    let r := ringPush (capacity w t) v (getQueue w t)
    (r.1, setQueue w r.2 t)) s

/-- RB.POP_FRONT on a queue of the block, inside a critical section (R154, R157). -/
def queuePop (w : Queue) (s : State) : Option Byte × State :=
  critical (fun t =>
    let r := ringPop (capacity w t) (getQueue w t)
    (r.1, setQueue w r.2 t)) s

/-- RB.SIZE on a queue of the block, inside a critical section (R155, R157). -/
def queueSize (w : Queue) (s : State) : Nat × State :=
  critical (fun t => (ringSize (capacity w t) (getQueue w t), t)) s

/-- The slots that hold an element, oldest first: `front+1, ..., front+size` mod N (R152). -/
def occupied (n : Nat) (q : RingBuf) : List Nat :=
  (List.range (ringSize n q)).map (fun j => (q.front + 1 + j) % n)

/-- The elements held, oldest first (R152). -/
def contents (n : Nat) (q : RingBuf) : List Byte := (occupied n q).filterMap (slotRead q)

/-! ## Interrupt entry and return -/

/-- Entry (R356): clears GIE and saves nothing else. -/
def interruptEntry (s : State) : State := setGie false s

/-- Return (R357): sets GIE. -/
def interruptReturn (s : State) : State := setGie true s

/-- The dispatcher's step for a source (R355): entry, the ISR body, return, as one atomic step. It is enabled only while
GIE is set and the source requests; otherwise the dispatcher has no step and nothing changes (log 20). -/
def takeInterrupt (src : Source) (body : State → State) (s : State) : State :=
  if s.gie && requesting src s then interruptReturn (body (interruptEntry s)) else s

/-- Issue an operation (R103, R362): an agent outside the operation's class is refused. -/
def issue (allowed : List Issuer) (effect : State → State) (s : State) : State :=
  if allowed.contains s.issuer then effect s else refuse .wrongIssuer s

/-- Issue an operation whose operand must be legal (R106): the operand is checked first (log 17). -/
def issueChecked (legal : Bool) (allowed : List Issuer) (effect : State → State) (s : State) : State :=
  if legal then issue allowed effect s else refuse .illegalOperand s

/-! ## The timer -/

/-- TIMER.ARM d (R306). -/
def armTimer (d : Nat) (s : State) : State := { s with tmr := ⟨.running, 0, d⟩ }

/-- TIMER.DISABLE (R307); the compare value stays. -/
def disableTimer (s : State) : State := { s with tmr := ⟨.disabled, 0, s.tmr.ocr⟩ }

/-! ## The handler ports (R241)

A call is recorded with its arguments. The answer is the next one fixed at launch, and when none is left a free value. -/

/-- `call H_APPROX()` (R241). -/
def callApprox (s : State) : (F64 × F64) × State :=
  match s.approxAnswers with
  | a :: rest => (a, { s with approxAnswers := rest, calls := s.calls ++ [.approx] })
  | [] => (Config.freeApprox s.draws, { s with draws := s.draws + 1, calls := s.calls ++ [.approx] })

/-- `call H_POINTS(sel, pass, x)` (R241). -/
def callPoints (sel : Selection) (pass : Pass) (x : F64) (s : State) : Point × State :=
  match s.pointAnswers with
  | p :: rest => (p, { s with pointAnswers := rest, calls := s.calls ++ [.points sel pass x] })
  | [] =>
    (Config.freePoint s.draws sel pass x,
      { s with draws := s.draws + 1, calls := s.calls ++ [.points sel pass x] })

/-- `call H_ROOT(eps, mode)` (R241). -/
def callRoot (eps : F64) (mode : Mode) (s : State) : RootAnswer × State :=
  match s.rootAnswers with
  | r :: rest => (r, { s with rootAnswers := rest, calls := s.calls ++ [.root eps mode] })
  | [] =>
    (Config.freeRoot s.draws eps mode,
      { s with draws := s.draws + 1, calls := s.calls ++ [.root eps mode] })

end Sys2Proof.Machine
end

