-- ==== Sys2Proof/Machine/Agents.lean ====
section
/-! DEFINITION. Boot (R405) and the steps of the agents around the block: LINE_TX (R220), HOST (R222), PINS (R302) and
TIMEBASE (R304). An agent that is not enabled has no step: nothing changes (log 2). -/

namespace Sys2Proof.Machine

/-- Boot (R405): one atomic step after reset, before any agent steps. -/
def boot (s : State) : State := { s with booted := true, gie := s.cfg.bootEnablesInterrupts }

/-- LINE_TX (R220). -/
def lineTxStep (s : State) : State :=
  match s.txDr with
  | some b => { s with txLine := s.txLine ++ [b], txDr := none, udre := true }
  | none => s

/-- HOST delivery (R222): a byte that stands unread is lost and DOR is set. -/
def hostStep (s : State) : State :=
  match s.hostRx[s.hostRxPos]? with
  | some b =>
    { s with hostRxPos := s.hostRxPos + 1, dor := s.dor || s.rxc, rxDr := some b, rxc := true }
  | none => s

/-- PINS (R302). -/
def pinsStep (i : Button) (s : State) : State :=
  { s with pin := buttonSet s.pin i (!buttonGet s.pin i), pcif := true }

/-- TIMEBASE, one tick (R304). -/
def timebaseStep (s : State) : State :=
  match s.tmr.state with
  | .disabled => s
  | .running =>
    if s.tmr.tcnt + 1 = s.tmr.ocr then { s with tmr := ⟨.expired, s.tmr.tcnt + 1, s.tmr.ocr⟩ }
    else { s with tmr := ⟨.running, s.tmr.tcnt + 1, s.tmr.ocr⟩ }
  | .expired =>
    if s.tmr.tcnt = timerSpan then raise .timerOverrun s
    else { s with tmr := ⟨.expired, s.tmr.tcnt + 1, s.tmr.ocr⟩ }

end Sys2Proof.Machine
end

