-- ==== Sys2Proof/Machine/CriticalSection.lean ====
section
/-! DEFINITION. The meanings of CS.ENTER and CS.EXIT (41_critical_section.md). -/

namespace Sys2Proof.Machine

/-- CS.ENTER (R180): the token is GIE at entry. -/
def execCsEnter (s : State) : Host.Outcome State Fault Refusal :=
  .next (issue [.fg, .internal] (fun t => endWith (.okToken (csEnter t).1) (csEnter t).2) s)

/-- CS.EXIT t (R181): GIE takes the token, whichever CS.ENTER it came from (R183). -/
def execCsExit (t : Byte) (s : State) : Host.Outcome State Fault Refusal :=
  .next (issueChecked (legalToken t) [.fg, .internal] (fun u => endWith .ok (csExit (tokenFlag t) u)) s)

end Sys2Proof.Machine
end

