-- ==== Sys2Proof/Machine/Debouncer.lean ====
section
/-! DEFINITION. The button debouncer (44_debouncer.md): the pin-change and timer ISRs, and the meanings of ISR.PCINT,
ISR.TIMER, TIMER.ARM and TIMER.DISABLE. -/

namespace Sys2Proof.Machine

/-- The buttons in index order (R301). -/
def buttons : List Button := [0, 1]

/-- Ticks already counted when a press is sampled (R310, R311). -/
def pressOffset (s : State) : Nat :=
  match s.cfg.debounceMode, s.tmr.state with
  | .compensated, .running => s.tmr.tcnt
  | .compensated, .expired => s.tmr.tcnt
  | .compensated, .disabled => 0
  | .literal, _ => 0

/-- A button's state after its level is sampled (R300, R310); `remaining` is the time a new press gets. -/
def sampleButton (remaining : Nat) (level : Bool) (b : ButtonState) : ButtonState :=
  match pinPressed level, b with
  | true, .up => .down remaining
  | true, b => b
  | false, _ => .up

/-- Every button is Up (R310). -/
def allUp (p : PerButton ButtonState) : Bool := p.b0 == .up && p.b1 == .up

/-- Body of the pin-change ISR (R310). -/
def pcintBody (s : State) : State :=
  let r := s.cfg.debounceDelay + pressOffset s
  let t := { s with
    pcif := false
    btn := ⟨sampleButton r s.pin.b0 s.btn.b0, sampleButton r s.pin.b1 s.btn.b1⟩ }
  if allUp t.btn then disableTimer t
  else
    match t.tmr.state with
    | .disabled => armTimer t.cfg.debounceDelay t
    | .running => t
    | .expired => t

/-- `sat_sub(a, b)` (R12). -/
def satSub (a b : Nat) : Nat := if b ≤ a then a - b else 0

/-- A button's remaining time less the elapsed ticks (R315). -/
def elapse (e : Nat) : ButtonState → ButtonState
  | .down r => .down (satSub r e)
  | .up => .up
  | .pressed => .pressed

/-- A button crosses the expiration threshold (R316). -/
def crosses (e : Nat) : ButtonState → Bool
  | .down r => r ≤ e
  | .up => false
  | .pressed => false

/-- The remaining time of a button that is Down with time left (R315). -/
def liveTime : ButtonState → Option Nat
  | .down r => if 0 < r then some r else none
  | .up => none
  | .pressed => none

/-- A button is Down (R315). -/
def isDown : ButtonState → Bool
  | .down _ => true
  | .up => false
  | .pressed => false

/-- The smallest remaining time among the buttons with time left (R315, R317). -/
def leastLive (p : PerButton ButtonState) : Option Nat :=
  match liveTime p.b0, liveTime p.b1 with
  | some a, some b => some (min a b)
  | some a, none => some a
  | none, some b => some b
  | none, none => none

/-- Fire button `i` (R315, R318): the press event if a callback is registered, then Pressed. -/
def fireButton (s : State) (i : Button) : State :=
  { s with
    press := if hasCallback s.cfg i then s.press ++ [i] else s.press
    btn := buttonSet s.btn i .pressed }

/-- Body of the timer ISR (R315): the timer is re-armed first, then the crossed buttons fire in index order. -/
def timerBody (s : State) : State :=
  let e := s.tmr.tcnt
  let crossed := buttons.filter (fun i => crosses e (buttonGet s.btn i))
  let t := { s with btn := ⟨elapse e s.btn.b0, elapse e s.btn.b1⟩ }
  let u :=
    match leastLive t.btn with
    | some m => armTimer (min m timerSpan) t
    | none => t
  let v := crossed.foldl fireButton u
  if isDown v.btn.b0 || isDown v.btn.b1 then v else disableTimer v

/-- ISR.PCINT (R310, R355). -/
def execIsrPcint (s : State) : Host.Outcome State Fault Refusal :=
  .next (issue [.int] (takeInterrupt .pinChange pcintBody) s)

/-- ISR.TIMER (R315, R355). -/
def execIsrTimer (s : State) : Host.Outcome State Fault Refusal :=
  .next (issue [.int] (takeInterrupt .timer timerBody) s)

/-- TIMER.ARM d (R306). -/
def execTimerArm (d : Byte) (s : State) : Host.Outcome State Fault Refusal :=
  .next (issueChecked (legalTicks d) [.internal] (armTimer (tickCount d)) s)

/-- TIMER.DISABLE (R307). -/
def execTimerDisable (s : State) : Host.Outcome State Fault Refusal :=
  .next (issue [.internal] disableTimer s)

end Sys2Proof.Machine
end

