-- ==== Sys2Proof/Machine/Usart.lean ====
section
/-! DEFINITION. The USART engine (42_usart.md): the four foreground operations as attempts that the framer shares, the
RX and UDRE interrupt service routines, and their meanings. -/

namespace Sys2Proof.Machine

/-! ## Attempts (R205): one atomic step each, with the result it answers -/

/-- WRITE_BYTE b (R190). -/
def writeByteAttempt (b : Byte) (s : State) : OpResult × State :=
  critical (fun t =>
    match queuePush .txq b t with
    | (.bufferFull, _) => (.wouldBlock, t)
    | (.success, u) => (.ok, startTransmit u)) s

/-- Free places of TXQ (R192). -/
def txqFree (s : State) : Nat := (s.cfg.txqN - 1) - ringSize s.cfg.txqN s.txq

/-- WRITE s (R192): all bytes or none. -/
def writeAttempt (bs : List Byte) (s : State) : OpResult × State :=
  critical (fun t =>
    if txqFree t < bs.length then (.wouldBlock, t)
    else
      let u := setQueue .txq (ringPushAll t.cfg.txqN bs t.txq) t
      (.ok, if bs.isEmpty then u else startTransmit u)) s

/-- READ_BYTE (R194). -/
def readByteAttempt (s : State) : OpResult × State :=
  critical (fun t =>
    match queuePop .rxq t with
    | (none, _) => (.wouldBlock, t)
    | (some b, u) => (.okByte b, u)) s

/-- READ len (R196): all bytes or none. -/
def readAttempt (len : Nat) (s : State) : OpResult × State :=
  critical (fun t =>
    if ringSize t.cfg.rxqN t.rxq < len then (.wouldBlock, t)
    else
      let r := ringPopMany t.cfg.rxqN len t.rxq
      (.okBytes r.1, setQueue .rxq r.2 t)) s

/-- An attempt that ends with its result (R205). -/
def endAttempt (r : OpResult × State) : State := endWith r.1 r.2

/-- WRITE_BYTE b (R190). -/
def execWriteByte (b : Byte) (s : State) : Host.Outcome State Fault Refusal :=
  .next (issue [.fg] (fun t => endAttempt (writeByteAttempt b t)) s)

/-- WRITE s (R192). -/
def execWrite (bs : List Byte) (s : State) : Host.Outcome State Fault Refusal :=
  .next (issue [.fg] (fun t => endAttempt (writeAttempt bs t)) s)

/-- READ_BYTE (R194). -/
def execReadByte (s : State) : Host.Outcome State Fault Refusal :=
  .next (issue [.fg] (fun t => endAttempt (readByteAttempt t)) s)

/-- READ len (R196). -/
def execRead (len : Word16) (s : State) : Host.Outcome State Fault Refusal :=
  .next (issue [.fg] (fun t => endAttempt (readAttempt (lengthOf len) t)) s)

/-! ## Interrupt service routines -/

/-- Body of the receive ISR (R210): the register is read and the byte pushed, or dropped when RXQ is full. -/
def usartRxBody (s : State) : State :=
  match s.rxDr with
  | some b => (queuePush .rxq b { s with rxDr := none, rxc := false }).2
  | none => { s with rxc := false }

/-- Body of the transmit-empty ISR (R211). -/
def usartUdreBody (s : State) : State :=
  match queuePop .txq s with
  | (some b, t) => { t with txDr := some b, udre := false }
  | (none, t) => stopTransmit t

/-- ISR.USART_RX (R210, R355). -/
def execIsrUsartRx (s : State) : Host.Outcome State Fault Refusal :=
  .next (issue [.int] (takeInterrupt .usartRx usartRxBody) s)

/-- ISR.USART_UDRE (R211, R355). -/
def execIsrUsartUdre (s : State) : Host.Outcome State Fault Refusal :=
  .next (issue [.int] (takeInterrupt .usartUdre usartUdreBody) s)

end Sys2Proof.Machine
end

