-- ==== Sys2Proof/Machine/Framer.lean ====
section
/-! DEFINITION. The wire-protocol framer (43_framer.md): the atomic step of every sequencer phase (R250), and the
meanings of FR.HANDSHAKE and FR.SERVE_ONE. -/

namespace Sys2Proof.Machine

/-! ## Handshake phases -/

/-- `LE_8(SIGNATURE)` (R109). -/
def signatureBytes (s : State) : List Byte := le8 s.cfg.signature

/-- Phase HS_SEND(c) (R250): attempt to write the signature. -/
def hsSendStep (c : Nat) (s : State) : State :=
  match writeAttempt (signatureBytes s) s with
  | (.ok, t) =>
    if c + 1 < sigRepeat then setPhase (.hsSend (c + 1)) t
    else { t with phase := .hsRecv, hsWin := [] }
  | (_, t) => t

/-- The handshake window after one more byte: the last `min(8, len+1)` bytes (R256). -/
def slideWindow (win : List Byte) (b : Byte) : List Byte :=
  (win ++ [b]).drop (win.length + 1 - min sigLen (win.length + 1))

/-- Receive attempt of the sliding reading (R256). -/
def hsRecvSliding (s : State) : State :=
  match readByteAttempt s with
  | (.okByte b, t) =>
    let u := { t with hsWin := slideWindow t.hsWin b }
    if u.hsWin = signatureBytes u then setPhase .srvRead u else u
  | (_, t) => t

/-- Receive attempt of the chunked reading (R257). -/
def hsRecvChunked (s : State) : State :=
  match readAttempt sigLen s with
  | (.okBytes w, t) => if w = signatureBytes t then setPhase .srvRead t else t
  | (_, t) => t

/-- Phase HS_RECV (R250, R255). -/
def hsRecvStep (s : State) : State :=
  match s.cfg.handshakeMatch with
  | .sliding => hsRecvSliding s
  | .chunked8 => hsRecvChunked s

/-! ## Serve phases -/

/-- Phase SRV_READ (R250): attempt to read one request packet. -/
def srvReadStep (s : State) : State :=
  match readAttempt shortLen s with
  | (.okBytes p, t) => { t with req := p, phase := .srvDispatch }
  | (_, t) => t

/-- A short response is prepared and the sequencer moves to send it (R261). -/
def prepareShort (bs : List Byte) (s : State) : State := { s with out := bs, phase := .srvSend }

/-- The first step of streaming the points of a selection (R261, R264). -/
def beginPoints (sel : Selection) (s : State) : State :=
  { s with sel := sel, pass := .first, k := 0, phase := .srvPoints }

/-- Dispatch of a well-formed request (R261, R266). -/
def dispatchRequest (r : Request) (s : State) : State :=
  match r with
  | .initialApproximations =>
    if s.cfg.hasApprox then
      let a := callApprox s
      prepareShort (encodeApprox a.1.1 a.1.2) a.2
    else setPhase .srvRead s
  | .computeRoot eps mode =>
    if s.cfg.hasRoot then
      let a := callRoot eps mode s
      prepareShort (encodeRoot a.1) a.2
    else setPhase .srvRead s
  | .functionPoints sel => if s.cfg.hasPoints then beginPoints sel s else setPhase .srvRead s

/-- Phase SRV_DISPATCH (R250, R261, R265): a malformed request raises its fault, the packet stays in `req`. -/
def srvDispatchStep (s : State) : State :=
  match decodeRequest s.req with
  | .ok r => dispatchRequest r s
  | .error code => raise code s

/-- Phase SRV_SEND (R250): attempt to write the prepared response. -/
def srvSendStep (s : State) : State :=
  match writeAttempt s.out s with
  | (.ok, t) => setPhase .srvRead t
  | (_, t) => t

/-- Step A of streaming (R264) once the point is known: it is encoded and the sequencer moves to send it. -/
def preparePoint (p : Point) (s : State) : State := { s with out := encodePoint p, phase := .srvPtSend }

/-- Phase SRV_POINTS(p, k): step A of R264. -/
def srvPointsStep (s : State) : State :=
  let a := callPoints s.sel s.pass (sampleX s.cfg s.k) s
  preparePoint a.1 a.2

/-- The sequencer's move after point `k` of a pass is written (R264). -/
def afterPoint (s : State) : State :=
  if s.k < pointsPerPass - 1 then { s with k := s.k + 1, phase := .srvPoints }
  else
    match s.pass, s.sel with
    | .first, .system _ => { s with pass := .second, k := 0, phase := .srvPoints }
    | .first, .single _ => setPhase .srvRead s
    | .second, _ => setPhase .srvRead s

/-- Phase SRV_PT_SEND(p, k): step B of R264. -/
def srvPtSendStep (s : State) : State :=
  match writeAttempt s.out s with
  | (.ok, t) => afterPoint t
  | (_, t) => t

/-! ## The sequencer -/

/-- One atomic step of the sequencer in its phase (R250). -/
def sequencerStep (s : State) : State :=
  match s.phase with
  | .hsSend c => hsSendStep c s
  | .hsRecv => hsRecvStep s
  | .srvRead => srvReadStep s
  | .srvDispatch => srvDispatchStep s
  | .srvSend => srvSendStep s
  | .srvPoints => srvPointsStep s
  | .srvPtSend => srvPtSendStep s

/-- The phases of the handshake (R250, R255). -/
def inHandshake : Phase → Bool
  | .hsSend _ => true
  | .hsRecv => true
  | .srvRead => false
  | .srvDispatch => false
  | .srvSend => false
  | .srvPoints => false
  | .srvPtSend => false

/-- One atomic step of FR.HANDSHAKE (R255): it starts at HS_SEND(0) unless a handshake is under way, and ends when the
signature has matched (log 12). -/
def handshakeOp (s : State) : State :=
  let t := if inHandshake s.phase then s else setPhase (.hsSend 0) s
  let u := sequencerStep t
  endWith (if inHandshake u.phase then .pending else .ok) u

/-- One atomic step of FR.SERVE_ONE (R260): it starts at SRV_READ unless a request is being served, and ends when the
sequencer is back there (log 12). -/
def serveOp (s : State) : State :=
  let t := if inHandshake s.phase then setPhase .srvRead s else s
  let u := sequencerStep t
  endWith (if u.phase = .srvRead ∧ t.phase ≠ .srvRead then .ok else .pending) u

/-- FR.HANDSHAKE (R255). -/
def execFrHandshake (s : State) : Host.Outcome State Fault Refusal :=
  .next (issue [.fg] handshakeOp s)

/-- FR.SERVE_ONE (R260). -/
def execFrServeOne (s : State) : Host.Outcome State Fault Refusal :=
  .next (issue [.fg] serveOp s)

end Sys2Proof.Machine
end

