-- ==== Sys2Proof/Machine/Packets.lean ====
section
/-! DEFINITION. The meanings of the packet rows (R109 to R118): a request is dispatched (R261), a response is prepared
by its encoder and handed to the phase that sends it (R261, R264), the signature is sent or awaited (R255). Packets
have no issuer class (R103 speaks of operations); see log 14. -/

namespace Sys2Proof.Machine

/-! ## Requests -/

/-- `FunctionPoints{SingleEquation, index}` (R112, R261). -/
def execReqPointsSingle (index : Byte) (s : State) : Host.Outcome State Fault Refusal :=
  .next (dispatchRequest (.functionPoints (.single index)) s)

/-- `FunctionPoints{SystemOfEquations, index}` (R112, R261). -/
def execReqPointsSystem (index : Byte) (s : State) : Host.Outcome State Fault Refusal :=
  .next (dispatchRequest (.functionPoints (.system index)) s)

/-- `InitialApproximations` (R113, R261). -/
def execReqApproximations (s : State) : Host.Outcome State Fault Refusal :=
  .next (dispatchRequest .initialApproximations s)

/-- `ComputeRoot{epsilon, Single{Chord, equation}}` (R114, R261). -/
def execReqRootChord (eps : F64) (equation : Byte) (s : State) : Host.Outcome State Fault Refusal :=
  .next (dispatchRequest (.computeRoot eps (.single .chord equation)) s)

/-- `ComputeRoot{epsilon, Single{Secant, equation}}` (R114, R261). -/
def execReqRootSecant (eps : F64) (equation : Byte) (s : State) : Host.Outcome State Fault Refusal :=
  .next (dispatchRequest (.computeRoot eps (.single .secant equation)) s)

/-- `ComputeRoot{epsilon, Single{SimpleIterationSingle, equation}}` (R114, R261). -/
def execReqRootSimpleIteration (eps : F64) (equation : Byte) (s : State) : Host.Outcome State Fault Refusal :=
  .next (dispatchRequest (.computeRoot eps (.single .simpleIterationSingle equation)) s)

/-- `ComputeRoot{epsilon, SystemOfEquations{system}}` (R114, R261). -/
def execReqRootSystem (eps : F64) (system : Byte) (s : State) : Host.Outcome State Fault Refusal :=
  .next (dispatchRequest (.computeRoot eps (.system system)) s)

/-! ## Short responses -/

/-- `InitialApproximations{left, right}` response (R116, R267). -/
def execRspApproximations (left right : F64) (s : State) : Host.Outcome State Fault Refusal :=
  .next (prepareShort (encodeApprox left right) s)

/-- `ComputeRoot(Ok(Point{x, y}))` response (R116, R268). -/
def execRspRootOk (x y : F64) (s : State) : Host.Outcome State Fault Refusal :=
  .next (prepareShort (encodeRoot (.ok ⟨x, y⟩)) s)

/-- `ComputeRoot(Err(NoRootInRange))` response (R116, R268). -/
def execRspRootNoRoot (s : State) : Host.Outcome State Fault Refusal :=
  .next (prepareShort (encodeRoot (.err .noRootInRange)) s)

/-- `ComputeRoot(Err(MoreThanOneRootInRange))` response (R116, R268). -/
def execRspRootMoreThanOne (s : State) : Host.Outcome State Fault Refusal :=
  .next (prepareShort (encodeRoot (.err .moreThanOneRootInRange)) s)

/-- `ComputeRoot(Err(Diverges))` response (R116, R268). -/
def execRspRootDiverges (s : State) : Host.Outcome State Fault Refusal :=
  .next (prepareShort (encodeRoot (.err .diverges)) s)

/-! ## Long responses -/

/-- The record of a pass that is to be prepared next: the current one while the pass is being streamed, else the
first (R264). -/
def nextRecord (p : Pass) (s : State) : Nat := if s.phase = .srvPoints ∧ s.pass = p then s.k else 0

/-- A record of the pass stands in `out` and is to be written (R264). -/
def recordWaits (p : Pass) (s : State) : Bool := s.phase == .srvPtSend && s.pass == p

/-- One atomic step of sending a long packet whose records are `ps` (R264): step B while a record waits, else step A
with the handler's answer replaced by the packet's own record. It ends when the last record is written. -/
def streamStep (p : Pass) (ps : List Point) (s : State) : State :=
  if recordWaits p s then
    let t := srvPtSendStep s
    endWith (if s.k < pointsPerPass - 1 ∨ t.phase = .srvPtSend then .pending else .ok) t
  else
    endWith .pending
      (preparePoint (ps.getD (nextRecord p s) ⟨0#64, 0#64⟩) { s with pass := p, k := nextRecord p s })

/-- `FunctionPoints` response, pass First (R116, R264): one atomic step of it. -/
def execRspPointsFirst (ps : List Point) (s : State) : Host.Outcome State Fault Refusal :=
  .next (streamStep .first ps s)

/-- `FunctionPointsSecond` response, pass Second, systems only (R116, R264): one atomic step of it. -/
def execRspPointsSecond (ps : List Point) (s : State) : Host.Outcome State Fault Refusal :=
  .next (streamStep .second ps s)

/-! ## The signature -/

/-- One attempt at the signature (R255): in HS_RECV to receive it, otherwise to send it; a handshake that is not under
way starts at HS_SEND(0). It answers WouldBlock while the phase is not left (log 14). -/
def signatureStep (s : State) : State :=
  let t := if inHandshake s.phase then s else setPhase (.hsSend 0) s
  let u := sequencerStep t
  endWith (if u.phase = t.phase then .wouldBlock else .ok) u

/-- `SIG` (R109, R255): one attempt to send the signature or to receive it. -/
def execSigSignature (s : State) : Host.Outcome State Fault Refusal :=
  .next (signatureStep s)

end Sys2Proof.Machine
end

