-- ==== Sys2Proof/Machine/RingBuffer.lean ====
section
/-! DEFINITION. The meanings of RB.PUSH_BACK, RB.POP_FRONT and RB.SIZE on the two queues (40_ringbuffer.md). -/

namespace Sys2Proof.Machine

/-- The result of a push as an operation result (R153). -/
def pushResult : PushResult → OpResult
  | .success => .success
  | .bufferFull => .bufferFull

/-- A push that ends with its result (R153). -/
def pushOp (w : Queue) (v : Byte) (s : State) : State :=
  let r := queuePush w v s
  endWith (pushResult r.1) r.2

/-- A pop that ends with its result (R154). -/
def popOp (w : Queue) (s : State) : State :=
  let r := queuePop w s
  endWith (.popped r.1) r.2

/-- A size query that ends with its result (R155). -/
def sizeOp (w : Queue) (s : State) : State :=
  let r := queueSize w s
  endWith (.okCount r.1) r.2

/-- RB.PUSH_BACK RXQ, v (R153). -/
def execRbPushBackRxq (v : Byte) (s : State) : Host.Outcome State Fault Refusal :=
  .next (issue [.internal, .comp] (pushOp .rxq v) s)

/-- RB.POP_FRONT RXQ (R154). -/
def execRbPopFrontRxq (s : State) : Host.Outcome State Fault Refusal :=
  .next (issue [.internal, .comp] (popOp .rxq) s)

/-- RB.SIZE RXQ (R155). -/
def execRbSizeRxq (s : State) : Host.Outcome State Fault Refusal :=
  .next (issue [.internal, .comp] (sizeOp .rxq) s)

/-- RB.PUSH_BACK TXQ, v (R153). -/
def execRbPushBackTxq (v : Byte) (s : State) : Host.Outcome State Fault Refusal :=
  .next (issue [.internal, .comp] (pushOp .txq v) s)

/-- RB.POP_FRONT TXQ (R154). -/
def execRbPopFrontTxq (s : State) : Host.Outcome State Fault Refusal :=
  .next (issue [.internal, .comp] (popOp .txq) s)

/-- RB.SIZE TXQ (R155). -/
def execRbSizeTxq (s : State) : Host.Outcome State Fault Refusal :=
  .next (issue [.internal, .comp] (sizeOp .txq) s)

end Sys2Proof.Machine
end

