-- ==== Sys2Proof/Machine/Dispatch.lean ====
section
/-! DEFINITION. The dispatch of an instruction to its meaning: one arm per constructor of Instr. -/

namespace Sys2Proof.Machine

def exec (i : Instr) (s : State) : Host.Outcome State Fault Refusal :=
  match i with
  | .csEnter => Sys2Proof.Machine.execCsEnter s
  | .csExit t => Sys2Proof.Machine.execCsExit t s
  | .rbPushBackRxq v => Sys2Proof.Machine.execRbPushBackRxq v s
  | .rbPopFrontRxq => Sys2Proof.Machine.execRbPopFrontRxq s
  | .rbSizeRxq => Sys2Proof.Machine.execRbSizeRxq s
  | .rbPushBackTxq v => Sys2Proof.Machine.execRbPushBackTxq v s
  | .rbPopFrontTxq => Sys2Proof.Machine.execRbPopFrontTxq s
  | .rbSizeTxq => Sys2Proof.Machine.execRbSizeTxq s
  | .writeByte b => Sys2Proof.Machine.execWriteByte b s
  | .write bs => Sys2Proof.Machine.execWrite bs s
  | .readByte => Sys2Proof.Machine.execReadByte s
  | .read len => Sys2Proof.Machine.execRead len s
  | .isrUsartRx => Sys2Proof.Machine.execIsrUsartRx s
  | .isrUsartUdre => Sys2Proof.Machine.execIsrUsartUdre s
  | .isrPcint => Sys2Proof.Machine.execIsrPcint s
  | .isrTimer => Sys2Proof.Machine.execIsrTimer s
  | .timerArm d => Sys2Proof.Machine.execTimerArm d s
  | .timerDisable => Sys2Proof.Machine.execTimerDisable s
  | .frHandshake => Sys2Proof.Machine.execFrHandshake s
  | .frServeOne => Sys2Proof.Machine.execFrServeOne s
  | .reqPointsSingle index => Sys2Proof.Machine.execReqPointsSingle index s
  | .reqPointsSystem index => Sys2Proof.Machine.execReqPointsSystem index s
  | .reqApproximations => Sys2Proof.Machine.execReqApproximations s
  | .reqRootChord eps equation => Sys2Proof.Machine.execReqRootChord eps equation s
  | .reqRootSecant eps equation => Sys2Proof.Machine.execReqRootSecant eps equation s
  | .reqRootSimpleIteration eps equation => Sys2Proof.Machine.execReqRootSimpleIteration eps equation s
  | .reqRootSystem eps system => Sys2Proof.Machine.execReqRootSystem eps system s
  | .rspApproximations left right => Sys2Proof.Machine.execRspApproximations left right s
  | .rspRootOk x y => Sys2Proof.Machine.execRspRootOk x y s
  | .rspRootNoRoot => Sys2Proof.Machine.execRspRootNoRoot s
  | .rspRootMoreThanOne => Sys2Proof.Machine.execRspRootMoreThanOne s
  | .rspRootDiverges => Sys2Proof.Machine.execRspRootDiverges s
  | .rspPointsFirst points => Sys2Proof.Machine.execRspPointsFirst points s
  | .rspPointsSecond points => Sys2Proof.Machine.execRspPointsSecond points s
  | .sigSignature => Sys2Proof.Machine.execSigSignature s

end Sys2Proof.Machine
end

