-- ==== Sys2Proof/Machine/Foreground.lean ====
section
/-! DEFINITION. How an agent's turn comes about (R16) and what the foreground issues (R31, R240): fetching a unit from
the operation port, ending an operation, the dispatcher's turn, and placing one unit to be run next. -/

namespace Sys2Proof.Machine

/-! ## Turns -/

/-- The agent that steps next (R16): the environment's choice (log 1). -/
def nextTurn (s : State) : Turn :=
  match s.turns with
  | t :: _ => t
  | [] => Config.freeTurn s.turnNo

/-- The state with that choice used up. -/
def takeTurn (s : State) : State := { s with turns := s.turns.drop 1, turnNo := s.turnNo + 1 }

/-! ## The operation port -/

/-- The instruction the full engine's foreground runs (R240): the two framer operations are its sequencer. -/
def engineInstr (s : State) : Instr := if inHandshake s.phase then .frHandshake else .frServeOne

/-- The unit at the client's position (R31). -/
def fetchEntry (s : State) : Option PortEntry := s.port[s.idx]?

/-- The bytes of a unit as the client issues it: the exit of a CRITICAL region carries the token its entry answered
(R108, R182; log 18). -/
def issuedBytes (e : PortEntry) (s : State) : List Byte :=
  match e.mode, s.tokens with
  | .restoreToken, t :: _ => [0x01#8, tokenByte t]
  | .restoreToken, [] => e.bytes
  | .once, _ => e.bytes
  | .blocking, _ => e.bytes
  | .saveToken, _ => e.bytes

/-- The state in which a unit is issued: the issuer drives the port, and a request packet stands in `req` as after
SRV_READ (R250). -/
def present (e : PortEntry) (s : State) : State :=
  match e.cls with
  | .request => { s with issuer := e.issuer, req := issuedBytes e s }
  | .operation => { s with issuer := e.issuer }
  | .response _ => { s with issuer := e.issuer }
  | .signature => { s with issuer := e.issuer }

/-- An issued instruction has ended (R31, R205): it raised no fault and was not refused; a blocking form ends at the
first attempt that does not answer WouldBlock; a framer operation ends when it says so. -/
def opEnded (e : PortEntry) (i : Instr) (t : State) : Bool :=
  t.fault.isNone && !stopped e.issuer t &&
    match endRule i with
    | .atOnce => true
    | .attempt => !(e.mode == .blocking && t.result == some .wouldBlock)
    | .manySteps => t.result != some .pending

/-- What the client does with a token (R108, R182, R183): the last entered region is the first left. -/
def keepToken (e : PortEntry) (t : State) : State :=
  match e.mode, t.result with
  | .saveToken, some (.okToken b) => { t with tokens := b :: t.tokens }
  | .restoreToken, _ => { t with tokens := t.tokens.drop 1 }
  | _, _ => t

/-- The client moves on when its operation has ended (R31). -/
def settle (e : PortEntry) (i : Instr) (t : State) : State :=
  if opEnded e i t then keepToken e { t with idx := t.idx + 1 } else t

/-- Apply a function to the next state of an outcome. -/
def mapNext (f : State → State) : Host.Outcome State Fault Refusal → Host.Outcome State Fault Refusal
  | .next s => .next (f s)
  | .fault r => .fault r
  | .refused r => .refused r

/-- Issue one unit (R100 to R106): decode its bytes and run the instruction. A reserved opcode is refused, a malformed
request raises its fault (R265). -/
def issueEntry (e : PortEntry) (s : State) : Host.Outcome State Fault Refusal :=
  match decodeUnit s.cfg.signature e.cls (issuedBytes e s) with
  | .ok i => mapNext (settle e i) (exec i (present e s))
  | .error .reservedOpcode => .next (refuse .illegalOp (present e s))
  | .error (.malformed code) => .next (raise code (present e s))
  | .error .wrongLength => .refused .incompleteUnit
  | .error .notSignature => .refused .incompleteUnit

/-- The foreground's step (R31, R240). A client at the end of its program, and an agent whose operation was refused
(R362), have no step. -/
def foregroundStep (s : State) : Host.Outcome State Fault Refusal :=
  match s.cfg.launch with
  | .fullEngine => if stopped .fg s then .next s else exec (engineInstr s) { s with issuer := .fg }
  | .component =>
    match fetchEntry s with
    | none => .next s
    | some e => if stopped e.issuer s then .next s else issueEntry e s

/-! ## The dispatcher -/

/-- The ISR of a source (R352). -/
def isrOf : Source → Instr
  | .usartRx => .isrUsartRx
  | .usartUdre => .isrUsartUdre
  | .pinChange => .isrPcint
  | .timer => .isrTimer

/-- The dispatcher's step for the source it chose (R354, R355); it has none while interrupts are off, the source does
not request, or an operation it issued was refused. -/
def interruptStep (src : Source) (s : State) : Host.Outcome State Fault Refusal :=
  if s.gie && requesting src s && !stopped .int s then exec (isrOf src) { s with issuer := .int }
  else .next s

/-- The step of the agent whose turn it is (R16). -/
def agentStep (t : Turn) (s : State) : Host.Outcome State Fault Refusal :=
  match t with
  | .fg => foregroundStep s
  | .int src => interruptStep src s
  | .lineTx => .next (lineTxStep s)
  | .host => .next (hostStep s)
  | .pins i => .next (pinsStep i s)
  | .timebase => .next (timebaseStep s)

/-! ## Placing one unit -/

/-- The issuer a placed unit is given: the first of its operation's class (R104), the foreground for a packet. -/
def wordIssuer (nbits w : Nat) : Issuer :=
  match decodeTableWord nbits w with
  | some i => ((issuerClass i).getD [.fg]).headD .fg
  | none => .fg

/-- The port entry of a unit given by its table bits. -/
def wordEntry (nbits w : Nat) : PortEntry :=
  { issuer := wordIssuer nbits w, mode := .once, cls := (tableUnit nbits w).1, bytes := (tableUnit nbits w).2 }

/-- The state in which the unit is the next thing that runs: booted (R405), component use, the unit alone on the port,
the foreground's turn (log 15). -/
def placeWord (nbits w : Nat) (s : State) : State :=
  let t := if s.booted then s else boot s
  { t with
    cfg := { t.cfg with launch := .component }
    port := [wordEntry nbits w]
    idx := 0
    turns := .fg :: t.turns }

end Sys2Proof.Machine
end

