-- ==== Sys2Proof/Machine/Step.lean ====
section
/-! DEFINITION. One step of the block. -/

namespace Sys2Proof.Machine

/-- One atomic step (R89): an illegal configuration is not run (R8), a faulted block has no step (R360), boot comes
before any agent (R405), and then the agent whose turn it is steps (R16). -/
def step (s : State) : Host.Outcome State Fault Refusal :=
  if configLegal s.cfg then
    match s.fault with
    | some code => .fault (.halted code)
    | none => if s.booted then agentStep (nextTurn s) (takeTurn s) else .next (boot s)
  else .refused .illegalConfiguration

/-- The state in which `step` fetches and runs exactly the instruction whose table bits are `w` (log 15). -/
def State.withFetchWord (s : State) (nbits w : Nat) : State := placeWord nbits w s

end Sys2Proof.Machine
end

