-- ==== Sys2Proof/Machine/Assembler.lean ====
section
/-! DEFINITION. The assembler syntax (R107) and the pseudo-operations (R108): a program text becomes a client's
operation list on the port, and its byte encoding. -/

namespace Sys2Proof.Machine

/-- One line of a client program: an operation, or a pseudo-operation of R108. -/
inductive ClientOp where
  | op (i : Instr)
  | writeByteBlocking (b : Byte)
  | writeBlocking (bs : List Byte)
  | readByteBlocking
  | readBlocking (len : Word16)
  | criticalEnter
  | criticalExit
deriving DecidableEq, Repr

/-- The real operation of a line (R108). The exit of a CRITICAL region is written with token 0; the client fills in the
token its entry answered. -/
def realOp : ClientOp → Instr
  | .op i => i
  | .writeByteBlocking b => .writeByte b
  | .writeBlocking bs => .write bs
  | .readByteBlocking => .readByte
  | .readBlocking len => .read len
  | .criticalEnter => .csEnter
  | .criticalExit => .csExit 0x00#8

/-- How a line is issued (R108). -/
def issueMode : ClientOp → IssueMode
  | .op _ => .once
  | .writeByteBlocking _ => .blocking
  | .writeBlocking _ => .blocking
  | .readByteBlocking => .blocking
  | .readBlocking _ => .blocking
  | .criticalEnter => .saveToken
  | .criticalExit => .restoreToken

/-- The port entry of a line issued by `who`. -/
def portEntry (sig : BitVec 64) (who : Issuer) (c : ClientOp) : PortEntry :=
  { issuer := who, mode := issueMode c, cls := unitClass (realOp c), bytes := encode sig (realOp c) }

/-- The byte encoding of a program (R101, R102). -/
def machineCode (sig : BitVec 64) (p : List ClientOp) : List Byte :=
  p.flatMap (fun c => encode sig (realOp c))

/-! ## Program text

R107 gives the syntax by example. Which texts beside its own forms are taken, and which are not, is the model's choice
(DESIGN CHOICE, log 26). -/

/-- The tokens of a line (R107). -/
inductive AsmToken where
  | word (w : List Char)
  | openList
  | closeList
  | comma
  | openBlock
  | closeBlock
deriving DecidableEq, Repr

/-- The opening and closing marks of a CRITICAL block (R108). -/
def blockMark (c : Char) : Option AsmToken :=
  if c.toNat = 123 then some .openBlock else if c.toNat = 125 then some .closeBlock else none

/-- A word token, if any letters were read. -/
def flushWord (w : List Char) : List AsmToken := if w.isEmpty then [] else [.word w.reverse]

/-- Split a line; a comment starts with a semicolon (R107). `w` holds the word being read, last letter first. -/
def tokenise : List Char → List Char → List AsmToken
  | [], w => flushWord w
  | c :: cs, w =>
    if c = ';' then flushWord w
    else if c = ' ' then flushWord w ++ tokenise cs []
    else if c = ',' then flushWord w ++ .comma :: tokenise cs []
    else if c = '[' then flushWord w ++ .openList :: tokenise cs []
    else if c = ']' then flushWord w ++ .closeList :: tokenise cs []
    else
      match blockMark c with
      | some t => flushWord w ++ t :: tokenise cs []
      | none => tokenise cs (c :: w)

/-- The value of a digit. -/
def digitValue (c : Char) : Option Nat :=
  if '0'.toNat ≤ c.toNat ∧ c.toNat ≤ '9'.toNat then some (c.toNat - '0'.toNat)
  else if 'A'.toNat ≤ c.toNat ∧ c.toNat ≤ 'F'.toNat then some (c.toNat - 'A'.toNat + 10)
  else if 'a'.toNat ≤ c.toNat ∧ c.toNat ≤ 'f'.toNat then some (c.toNat - 'a'.toNat + 10)
  else none

/-- A number in a base, most significant digit first. -/
def digitsFrom (base : Nat) : Nat → List Char → Option Nat
  | acc, [] => some acc
  | acc, c :: cs =>
    match digitValue c with
    | some d => if d < base then digitsFrom base (base * acc + d) cs else none
    | none => none

/-- A decimal or hexadecimal number (R10, R107). -/
def parseNumber : List Char → Option Nat
  | [] => none
  | ['0', 'x'] => none
  | '0' :: 'x' :: cs => digitsFrom 16 0 cs
  | cs => digitsFrom 10 0 cs

/-- A byte operand (R107). -/
def parseByte (w : List Char) : Option Byte :=
  match parseNumber w with
  | some n => if n < 256 then some (BitVec.ofNat 8 n) else none
  | none => none

/-- The bytes of a string operand after its opening bracket (R107). That a comma may stand before the closing bracket after
a byte, and that a string may hold no byte, is the model's choice (DESIGN CHOICE, log 26). -/
def parseBytes : List AsmToken → Option (List Byte)
  | [.closeList] => some []
  | [.word w, .closeList] => (parseByte w).map (fun b => [b])
  | .word w :: .comma :: rest =>
    match parseByte w, parseBytes rest with
    | some b, some bs => some (b :: bs)
    | _, _ => none
  | _ => none

/-- Operations without operand (R104). -/
def plainOps : List (String × ClientOp) :=
  [("CS.ENTER", .op .csEnter), ("READ_BYTE", .op .readByte), ("READ_BYTE_BLOCKING", .readByteBlocking),
    ("ISR.USART_RX", .op .isrUsartRx), ("ISR.USART_UDRE", .op .isrUsartUdre), ("ISR.PCINT", .op .isrPcint),
    ("ISR.TIMER", .op .isrTimer), ("TIMER.DISABLE", .op .timerDisable), ("FR.HANDSHAKE", .op .frHandshake),
    ("FR.SERVE_ONE", .op .frServeOne)]

/-- An operation without operand by its mnemonic. -/
def findPlain (w : List Char) : List (String × ClientOp) → Option ClientOp
  | [] => none
  | (m, c) :: rest => if m.toList = w then some c else findPlain w rest

/-- An operation with one number operand (R104, R107); a token is 0 or 1. -/
def parseUnary (m : List Char) (n : Nat) : Option ClientOp :=
  if m = "CS.EXIT".toList ∧ n < 2 then some (.op (.csExit (BitVec.ofNat 8 n)))
  else if m = "WRITE_BYTE".toList ∧ n < 256 then some (.op (.writeByte (BitVec.ofNat 8 n)))
  else if m = "WRITE_BYTE_BLOCKING".toList ∧ n < 256 then some (.writeByteBlocking (BitVec.ofNat 8 n))
  else if m = "TIMER.ARM".toList ∧ n < 256 then some (.op (.timerArm (BitVec.ofNat 8 n)))
  else if m = "READ".toList ∧ n < 65536 then some (.op (.read (BitVec.ofNat 16 n)))
  else if m = "READ_BLOCKING".toList ∧ n < 65536 then some (.readBlocking (BitVec.ofNat 16 n))
  else none

/-- A ring-buffer operation without value; the queue is part of the mnemonic's selection (R107). -/
def parseQueueOp (m q : List Char) : Option ClientOp :=
  if m = "RB.POP_FRONT".toList ∧ q = "RXQ".toList then some (.op .rbPopFrontRxq)
  else if m = "RB.POP_FRONT".toList ∧ q = "TXQ".toList then some (.op .rbPopFrontTxq)
  else if m = "RB.SIZE".toList ∧ q = "RXQ".toList then some (.op .rbSizeRxq)
  else if m = "RB.SIZE".toList ∧ q = "TXQ".toList then some (.op .rbSizeTxq)
  else none

/-- A push with its queue and value (R107). -/
def parsePush (m q : List Char) (v : Byte) : Option ClientOp :=
  if m = "RB.PUSH_BACK".toList ∧ q = "RXQ".toList then some (.op (.rbPushBackRxq v))
  else if m = "RB.PUSH_BACK".toList ∧ q = "TXQ".toList then some (.op (.rbPushBackTxq v))
  else none

/-- An operation with a string operand (R107). -/
def parseString (m : List Char) (bs : List Byte) : Option ClientOp :=
  if m = "WRITE".toList ∧ bs.length < 65536 then some (.op (.write bs))
  else if m = "WRITE_BLOCKING".toList ∧ bs.length < 65536 then some (.writeBlocking bs)
  else none

/-- The line of a token list: nothing for an empty line or a comment, none for a line outside the syntax (R107). -/
def parseLine : List AsmToken → Option (List ClientOp)
  | [] => some []
  | [.word m] => (findPlain m plainOps).map (fun c => [c])
  | [.word m, .openBlock] => if m = "CRITICAL".toList then some [.criticalEnter] else none
  | [.closeBlock] => some [.criticalExit]
  | [.word m, .word q, .comma, .word v] =>
    match parseByte v with
    | some b => (parsePush m q b).map (fun c => [c])
    | none => none
  | .word m :: .openList :: rest =>
    match parseBytes rest with
    | some bs => (parseString m bs).map (fun c => [c])
    | none => none
  | [.word m, .word v] =>
    match parseNumber v with
    | some n => (parseUnary m n).map (fun c => [c])
    | none => (parseQueueOp m v).map (fun c => [c])
  | _ => none

/-- The lines of a text, one operation per line (R107). Lines are assembled one by one: that a CRITICAL block which is
opened and not closed is assembled as its CS.ENTER, whose token the client keeps, and is not rejected, and that what
stands in a block is not looked at, is the model's choice (DESIGN CHOICE, log 26). -/
def assembleLines : List (List Char) → Option (List ClientOp)
  | [] => some []
  | l :: ls =>
    match parseLine (tokenise l []), assembleLines ls with
    | some c, some cs => some (c ++ cs)
    | _, _ => none

/-- The component-use block with a client program on its port (R31, R405; log 15). -/
def loadProgram (who : Issuer) (p : List ClientOp) (s : State) : State :=
  { s with
    cfg := { s.cfg with launch := .component }
    port := p.map (portEntry s.cfg.signature who)
    idx := 0 }

end Sys2Proof.Machine
end

