-- ==== Sys2Proof/Safety.lean ====
section
/-! DEFINITION. The terms claims are stated in: the invariants of R53 and of the state file, the streams of the serial
line (R225, R226), executions and weak fairness (R89, R431). -/

namespace Sys2Proof.Safety

open Sys2Proof.Machine

/-! ## Well-formed queues -/

/-- A ring buffer of capacity `n` is well formed (R36, R53(d)): `n` slots, indices below `n`, and exactly the `size`
slots after `front` hold an element. -/
abbrev RingWf (n : Nat) (q : RingBuf) : Prop :=
  q.slot.length = n ∧ q.front < n ∧ q.back < n ∧
    ∀ i, i < n → ((slotRead q i).isSome = true ↔ i ∈ occupied n q)

/-- `q'` is `q` with the bytes `bs` appended (R153, R192): the front stays, the back moves on by their number, and only
the slots they are stored in differ. -/
abbrev Appended (n : Nat) (q : RingBuf) (bs : List Byte) (q' : RingBuf) : Prop :=
  RingWf n q' ∧ q'.front = q.front ∧ q'.back = (q.back + bs.length) % n ∧
    contents n q' = contents n q ++ bs ∧
    ∀ i, (∀ j, j < bs.length → i ≠ (q.back + j) % n) → slotRead q' i = slotRead q i

/-- `q'` is `q` with its oldest bytes `bs` removed (R154, R196): the back stays, the front moves on by their number,
and only the slots they stood in differ. -/
abbrev Removed (n : Nat) (q : RingBuf) (bs : List Byte) (q' : RingBuf) : Prop :=
  RingWf n q' ∧ q'.front = (q.front + bs.length) % n ∧ q'.back = q.back ∧
    contents n q = bs ++ contents n q' ∧
    ∀ i, (∀ j, j < bs.length → i ≠ (q.front + 1 + j) % n) → slotRead q' i = slotRead q i

/-- Both queues are well formed (R53(d)). -/
abbrev QueuesWf (s : State) : Prop := RingWf s.cfg.rxqN s.rxq ∧ RingWf s.cfg.txqN s.txq

/-! ## The invariants of R53 and of the state file -/

/-- R53(a), R39. -/
abbrev TransmitEnableAgrees (s : State) : Prop := s.udrie = (s.txState == .buffering)

/-- R53(b). -/
abbrev IdleMeansEmpty (s : State) : Prop := s.txState = .idle → ringEmpty s.cfg.txqN s.txq = true

/-- R53(c), R40, R41. -/
abbrev RegisterFlagsAgree (s : State) : Prop := s.udre = s.txDr.isNone ∧ s.rxc = s.rxDr.isSome

/-- R53(e), R53(f), R48, and the cleared counter of a Disabled timer (R307). -/
abbrev TimerBounded (s : State) : Prop :=
  (s.tmr.state = .running → s.tmr.tcnt < s.tmr.ocr) ∧
  (s.tmr.state = .expired → s.tmr.ocr ≤ s.tmr.tcnt ∧ s.tmr.tcnt ≤ timerSpan) ∧
  (s.tmr.state = .disabled → s.tmr.tcnt = 0) ∧
  1 ≤ s.tmr.ocr ∧ s.tmr.ocr ≤ timerSpan

/-- What one button may hold (R53(g), R44, R317, R324): a Down button has time left, at most the debounce delay and the
ticks counted, and the timer is not Disabled and compares no later than that time. -/
abbrev ButtonBounded (s : State) (b : ButtonState) : Prop :=
  match b with
  | .up => True
  | .pressed => True
  | .down r =>
    1 ≤ r ∧ r ≤ s.cfg.debounceDelay + s.tmr.tcnt ∧ s.tmr.state ≠ .disabled ∧ s.tmr.ocr ≤ r

/-- Both buttons are bounded (R53(g)), and a timer that is not Disabled was armed for at most the debounce delay
(R310, R317). -/
abbrev ButtonsBounded (s : State) : Prop :=
  ButtonBounded s s.btn.b0 ∧ ButtonBounded s s.btn.b1 ∧
    (s.tmr.state ≠ .disabled → s.tmr.ocr ≤ s.cfg.debounceDelay)

/-- A legal sequencer phase (R250). -/
abbrev LegalPhase (p : Phase) : Prop :=
  match p with
  | .hsSend c => c < sigRepeat
  | .hsRecv => True
  | .srvRead => True
  | .srvDispatch => True
  | .srvSend => True
  | .srvPoints => True
  | .srvPtSend => True

/-- The framer's working registers keep their ranges (R51, R250). -/
abbrev FramerBounded (s : State) : Prop :=
  LegalPhase s.phase ∧ s.hsWin.length ≤ sigLen ∧ s.req.length = shortLen ∧ s.out.length ≤ shortLen ∧
    s.k < pointsPerPass

/-- The hardwired enables (R42, R46). -/
abbrev EnablesHardwired (s : State) : Prop := s.rxcie = true ∧ s.pcie = true

/-- The client issues as the foreground (R103): no unit of the port is a harness's, a dispatcher's or an internal one. -/
abbrev ForegroundClient (s : State) : Prop := ∀ e ∈ s.port, e.issuer = .fg

/-- Every invariant of R53 with the ranges of the state file, for a legal configuration (R8). -/
abbrev Inv (s : State) : Prop :=
  configLegal s.cfg = true ∧ EnablesHardwired s ∧ TransmitEnableAgrees s ∧ IdleMeansEmpty s ∧
    RegisterFlagsAgree s ∧ QueuesWf s ∧ TimerBounded s ∧ ButtonsBounded s ∧ FramerBounded s

/-! ## Streams -/

/-- Every byte accepted for transmission, oldest first (R225): on the line, in the data register, in TXQ. -/
def sent (s : State) : List Byte := s.txLine ++ s.txDr.toList ++ contents s.cfg.txqN s.txq

/-- The received bytes the block holds, oldest first (R226): in RXQ and in the data register. -/
def held (s : State) : List Byte := contents s.cfg.rxqN s.rxq ++ s.rxDr.toList

/-- What the block holds is a subsequence, in order, of what the host delivered (R226). -/
abbrev ReceiveOrdered (s : State) : Prop := List.Sublist (held s) (s.hostRx.take s.hostRxPos)

/-! ## Runs -/

/-- `n` steps of the block, while they answer a next state. -/
def runSteps : Nat → State → Option State
  | 0, s => some s
  | n + 1, s =>
    match step s with
    | .next t => runSteps n t
    | .fault _ => none
    | .refused _ => none

/-- An infinite execution (R89). -/
def Execution (run : Nat → State) : Prop := ∀ n, step (run n) = .next (run (n + 1))

/-- The dispatcher has a step (R355). -/
def dispatcherEnabled (s : State) : Bool :=
  s.gie && (requesting .usartRx s || requesting .usartUdre s || requesting .pinChange s || requesting .timer s)

/-- Weak fairness (R431): LINE_TX, INT and TIMEBASE, once they stay enabled, step; and a source that keeps requesting is
taken at some later dispatcher step (R354). R431 lists FG neither among the fair agents nor among the unfair ones; that
this predicate asks nothing of FG is the model's choice (DESIGN CHOICE, log 25). -/
def WeaklyFair (run : Nat → State) : Prop :=
  (∀ n, (∀ m, n ≤ m → (run m).txDr.isSome = true) → ∃ m, n ≤ m ∧ nextTurn (run m) = .lineTx) ∧
  (∀ n, (∀ m, n ≤ m → (run m).tmr.state ≠ .disabled) → ∃ m, n ≤ m ∧ nextTurn (run m) = .timebase) ∧
  (∀ n, (∀ m, n ≤ m → dispatcherEnabled (run m) = true) →
    ∃ m src, n ≤ m ∧ nextTurn (run m) = .int src ∧ requesting src (run m) = true) ∧
  (∀ n src, (∀ m, n ≤ m → (run m).gie = true ∧ requesting src (run m) = true) →
    ∃ m, n ≤ m ∧ nextTurn (run m) = .int src)

/-- The client hangs (R205, R410): an infinite execution from `s` that never leaves the operation, faults or refuses. -/
def Hangs (s : State) : Prop :=
  ∃ run, run 0 = s ∧ Execution run ∧
    ∀ n, (run n).idx = s.idx ∧ (run n).fault = none ∧ (run n).refusals = s.refusals

/-- A block that takes agents' steps: a legal configuration (R8), booted (R405), no fault (R360). -/
abbrev Running (s : State) : Prop := configLegal s.cfg = true ∧ s.fault = none ∧ s.booted = true

/-- How many of the next `n` turns are the timebase's. -/
def tickTurns : Nat → State → Nat
  | 0, _ => 0
  | n + 1, s =>
    match step s with
    | .next t => (if nextTurn s = .timebase then 1 else 0) + tickTurns n t
    | .fault _ => 0
    | .refused _ => 0

/-- `n` executions of one instruction, one after the other, while they answer a next state. -/
def execTimes (i : Instr) : Nat → State → Option State
  | 0, s => some s
  | n + 1, s =>
    match exec i s with
    | .next t => execTimes i n t
    | .fault _ => none
    | .refused _ => none

/-- `n` regions entered one inside the other: the tokens' bytes, innermost first (R183). -/
def enterRegions : Nat → State → Option (List Byte × State)
  | 0, s => some ([], s)
  | n + 1, s =>
    match enterRegions n s with
    | none => none
    | some (ts, t) =>
      match exec .csEnter t with
      | .next u =>
        match u.result with
        | some (.okToken b) => some (tokenByte b :: ts, u)
        | _ => none
      | .fault _ => none
      | .refused _ => none

/-- Regions left with these tokens, the first first (R183). -/
def leaveRegions : List Byte → State → Option State
  | [], s => some s
  | b :: ts, s =>
    match exec (.csExit b) s with
    | .next t => leaveRegions ts t
    | .fault _ => none
    | .refused _ => none

/-- The turns that empty a transmitter holding at most a byte in its register and `n` bytes in TXQ (R211, R220). -/
def drainTurns (n : Nat) : List Turn :=
  [.lineTx] ++ (List.replicate n [Turn.int .usartUdre, Turn.lineTx]).flatten ++ [.int .usartUdre]

/-- A selection of a system, which is streamed in two passes (R264). -/
def isSystem : Selection → Bool
  | .single _ => false
  | .system _ => true

/-- A blocking form whose condition does not hold (R200 to R203). -/
def blocked (c : ClientOp) (s : State) : Bool :=
  match c with
  | .writeByteBlocking _ => ringFull s.txq
  | .writeBlocking bs => txqFree s < bs.length && legalString bs
  | .readByteBlocking => ringEmpty s.cfg.rxqN s.rxq
  | .readBlocking len => ringSize s.cfg.rxqN s.rxq < len.toNat
  | .op _ => false
  | .criticalEnter => false
  | .criticalExit => false

/-! ## Binary64 values (R10, R270) -/

/-- The exact value (-1)^negative * m * 2^e. -/
def dyadic (negative : Bool) (m : Nat) (e : Int) : ℚ := (if negative then -(m : ℚ) else m) * 2 ^ e

/-- The value of a finite binary64 pattern (R10). -/
def f64Value (w : F64) : ℚ :=
  match f64Unpack w with
  | .finite s m e => dyadic s m e
  | .infinite _ => 0
  | .nan => 0

/-- `w` is the exact value `q` rounded to nearest, ties to even (R270): an exact zero is the zero of the given sign; from
half a unit past the largest finite value on it is an infinity; else it is finite, has the sign of `q`, no finite pattern
is nearer, and where one of another value is as near its last bit is 0. -/
def RoundedTo (q : ℚ) (zeroNegative : Bool) (w : F64) : Prop :=
  if q = 0 then w = f64Zero zeroNegative
  else if 2 ^ 1024 - 2 ^ 970 ≤ |q| then w = f64Infinity (decide (q < 0))
  else
    f64Finite w = true ∧ f64Sign w = decide (q < 0) ∧
      ∀ x, f64Finite x = true →
        |q - f64Value w| ≤ |q - f64Value x| ∧
        (|q - f64Value w| = |q - f64Value x| → f64Value x ≠ f64Value w → w.toNat % 2 = 0)

/-! ## A bounded queue, the picture of a ring buffer (R160 to R162) -/

/-- One operation on a ring buffer. -/
inductive QueueOp where
  | push (v : Byte)
  | pop
  | size
deriving DecidableEq, Repr

/-- A queue of at most `n - 1` elements: the result of an operation and the elements after it. -/
def queueStep (n : Nat) : QueueOp → List Byte → OpResult × List Byte
  | .push v, l => if l.length < n - 1 then (.success, l ++ [v]) else (.bufferFull, l)
  | .pop, [] => (.popped none, [])
  | .pop, b :: l => (.popped (some b), l)
  | .size, l => (.okCount l.length, l)

/-- The results of a list of operations on the queue, and the elements left. -/
def queueRun (n : Nat) : List QueueOp → List Byte → List OpResult × List Byte
  | [], l => ([], l)
  | o :: os, l =>
    let r := queueStep n o l
    let rest := queueRun n os r.2
    (r.1 :: rest.1, rest.2)

/-- The operation of the port for an operation on RXQ (R104). -/
def rxqInstr : QueueOp → Instr
  | .push v => .rbPushBackRxq v
  | .pop => .rbPopFrontRxq
  | .size => .rbSizeRxq

/-- The operation of the port for an operation on TXQ (R104). -/
def txqInstr : QueueOp → Instr
  | .push v => .rbPushBackTxq v
  | .pop => .rbPopFrontTxq
  | .size => .rbSizeTxq

/-- Run operations one after the other and collect the results they end with. -/
def execRun : List Instr → State → Option (List OpResult × State)
  | [], s => some ([], s)
  | i :: is, s =>
    match exec i s with
    | .next t =>
      match execRun is t with
      | some r => some (t.result.toList ++ r.1, r.2)
      | none => none
    | .fault _ => none
    | .refused _ => none

/-- A push that succeeded (R161). -/
def isSuccess (r : OpResult) : Bool := r == .success

/-- A pop that gave an element (R161). -/
def isSomePop : OpResult → Bool
  | .popped (some _) => true
  | .popped none => false
  | .ok => false
  | .okByte _ => false
  | .okBytes _ => false
  | .okCount _ => false
  | .okToken _ => false
  | .wouldBlock => false
  | .success => false
  | .bufferFull => false
  | .pending => false

end Sys2Proof.Safety
end

