-- ==== Sys2Proof/Certificates/Slice0/Obligations.lean ====
section
/-! DEFINITION. The statements for the provers. OBLIGATIONS.json gives each its title, its rule and its tier. -/

open Sys2Proof Sys2Proof.Machine Sys2Proof.Safety

/-! ## Critical section -/

/-- R180: CS.ENTER answers GIE as its token and clears it, and changes nothing else. -/
def Obligations.CsEnterAnswersAndClearsGie : Prop :=
  (∀ sig, encode sig .csEnter = [0x00#8]) ∧
  ∀ s : State, s.issuer ∈ [Issuer.fg, Issuer.internal] →
    exec .csEnter s = .next { s with gie := false, result := some (.okToken s.gie) }

/-- R181: CS.EXIT sets GIE to its token, 0 or 1; any other token byte is refused. -/
def Obligations.CsExitSetsGieToToken : Prop :=
  (∀ sig t, encode sig (.csExit t) = [0x01#8, t]) ∧
  ∀ s : State, s.issuer ∈ [Issuer.fg, Issuer.internal] →
    exec (.csExit 0x00#8) s = .next { s with gie := false, result := some .ok } ∧
    exec (.csExit 0x01#8) s = .next { s with gie := true, result := some .ok } ∧
    ∀ t : Byte, 1 < t.toNat →
      exec (.csExit t) s =
        .next { s with refused := true, refusals := s.refusals ++ [(s.issuer, .illegalOperand)] }

/-- R183: entering `n` regions and leaving them in last-in first-out order gives GIE its value before the first entry,
and no inner exit sets it. -/
def Obligations.NestedRegionsRestoreGie : Prop :=
  ∀ (n : Nat) (s : State), s.issuer ∈ [Issuer.fg, Issuer.internal] →
    ∃ ts u, enterRegions n s = some (ts, u) ∧ ts.length = n ∧ (0 < n → u.gie = false) ∧
      ∀ m, m ≤ n → ∃ v, leaveRegions (ts.take m) u = some v ∧ v.gie = (if m = n then s.gie else false)

/-! ## Ring buffer -/

/-- R153: RB.PUSH_BACK answers BufferFull and changes nothing, or stores the value in the slot at back and moves back
on by one. -/
def Obligations.PushBackStoresAtBack : Prop :=
  (∀ sig v, encode sig (.rbPushBackRxq v) = [0x10#8, v] ∧ encode sig (.rbPushBackTxq v) = [0x18#8, v]) ∧
  ∀ (v : Byte) (s : State), s.issuer ∈ [Issuer.internal, Issuer.comp] →
    (exec (.rbPushBackRxq v) s =
      if s.rxq.front = s.rxq.back then .next { s with result := some .bufferFull }
      else .next { s with
        rxq := ⟨s.rxq.slot.set s.rxq.back (some v), s.rxq.front, (s.rxq.back + 1) % s.cfg.rxqN⟩
        result := some .success }) ∧
    (exec (.rbPushBackTxq v) s =
      if s.txq.front = s.txq.back then .next { s with result := some .bufferFull }
      else .next { s with
        txq := ⟨s.txq.slot.set s.txq.back (some v), s.txq.front, (s.txq.back + 1) % s.cfg.txqN⟩
        result := some .success })

/-- R154: RB.POP_FRONT answers none and changes nothing, or moves front on by one, answers the slot there and clears
it; on a well-formed buffer that slot holds an element. -/
def Obligations.PopFrontTakesTheOldest : Prop :=
  (∀ sig, encode sig .rbPopFrontRxq = [0x11#8] ∧ encode sig .rbPopFrontTxq = [0x19#8]) ∧
  (∀ (n : Nat) (q : RingBuf), RingWf n q → (q.front + 1) % n ≠ q.back →
    (q.slot.getD ((q.front + 1) % n) none).isSome = true) ∧
  ∀ s : State, s.issuer ∈ [Issuer.internal, Issuer.comp] →
    (exec .rbPopFrontRxq s =
      if (s.rxq.front + 1) % s.cfg.rxqN = s.rxq.back then .next { s with result := some (.popped none) }
      else .next { s with
        rxq := ⟨s.rxq.slot.set ((s.rxq.front + 1) % s.cfg.rxqN) none, (s.rxq.front + 1) % s.cfg.rxqN, s.rxq.back⟩
        result := some (.popped (s.rxq.slot.getD ((s.rxq.front + 1) % s.cfg.rxqN) none)) }) ∧
    (exec .rbPopFrontTxq s =
      if (s.txq.front + 1) % s.cfg.txqN = s.txq.back then .next { s with result := some (.popped none) }
      else .next { s with
        txq := ⟨s.txq.slot.set ((s.txq.front + 1) % s.cfg.txqN) none, (s.txq.front + 1) % s.cfg.txqN, s.txq.back⟩
        result := some (.popped (s.txq.slot.getD ((s.txq.front + 1) % s.cfg.txqN) none)) })

/-- R155: RB.SIZE answers (back - front - 1) mod N and has no side effect. -/
def Obligations.SizeAnswersTheCount : Prop :=
  (∀ sig, encode sig .rbSizeRxq = [0x12#8] ∧ encode sig .rbSizeTxq = [0x1A#8]) ∧
  ∀ s : State, s.issuer ∈ [Issuer.internal, Issuer.comp] →
    exec .rbSizeRxq s = .next { s with
      result := some (.okCount (((s.rxq.back : Int) - s.rxq.front - 1) % s.cfg.rxqN).toNat) } ∧
    exec .rbSizeTxq s = .next { s with
      result := some (.okCount (((s.txq.back : Int) - s.txq.front - 1) % s.cfg.txqN).toNat) }

/-- R160, R162, R158: any list of pushes, pops and size queries on a queue of the block answers as a queue of at most
N - 1 elements does, and changes that queue alone. -/
def Obligations.RingIsABoundedFifoQueue : Prop :=
  ∀ (ops : List QueueOp) (s : State), s.issuer ∈ [Issuer.internal, Issuer.comp] →
    (2 ≤ s.cfg.rxqN → RingWf s.cfg.rxqN s.rxq →
      ∃ t, execRun (ops.map rxqInstr) s =
          some ((queueRun s.cfg.rxqN ops (contents s.cfg.rxqN s.rxq)).1, t) ∧
        RingWf s.cfg.rxqN t.rxq ∧
        contents s.cfg.rxqN t.rxq = (queueRun s.cfg.rxqN ops (contents s.cfg.rxqN s.rxq)).2 ∧
        t = { s with rxq := t.rxq, result := t.result }) ∧
    (2 ≤ s.cfg.txqN → RingWf s.cfg.txqN s.txq →
      ∃ t, execRun (ops.map txqInstr) s =
          some ((queueRun s.cfg.txqN ops (contents s.cfg.txqN s.txq)).1, t) ∧
        RingWf s.cfg.txqN t.txq ∧
        contents s.cfg.txqN t.txq = (queueRun s.cfg.txqN ops (contents s.cfg.txqN s.txq)).2 ∧
        t = { s with txq := t.txq, result := t.result })

/-- R161: from the reset queue, size is the number of Success pushes less the number of pops that gave an element. -/
def Obligations.SizeCountsPushesLessPops : Prop :=
  ∀ (ops : List QueueOp) (s : State), s.issuer ∈ [Issuer.internal, Issuer.comp] →
    (2 ≤ s.cfg.rxqN → s.rxq = emptyRing s.cfg.rxqN →
      ∃ rs t, execRun (ops.map rxqInstr) s = some (rs, t) ∧
        ringSize s.cfg.rxqN t.rxq + rs.countP isSomePop = rs.countP isSuccess) ∧
    (2 ≤ s.cfg.txqN → s.txq = emptyRing s.cfg.txqN →
      ∃ rs t, execRun (ops.map txqInstr) s = some (rs, t) ∧
        ringSize s.cfg.txqN t.txq + rs.countP isSomePop = rs.countP isSuccess)

/-! ## Issuers and refusals -/

/-- R103: an operation issued by an agent outside its class is refused, with no other effect; the reason is WrongIssuer,
or IllegalOperand (R106) where its operand is out of range as well. -/
def Obligations.WrongIssuerIsRefused : Prop :=
  ∀ (i : Instr) (cls : List Issuer) (s : State), issuerClass i = some cls → s.issuer ∉ cls →
    ∃ r, exec i s = .next { s with refused := true, refusals := s.refusals ++ [(s.issuer, r)] } ∧
      (wellFormed i = true → r = .wrongIssuer)

/-- R362: a refusal has no other effect, and the agent that made it has no further step in any later state. -/
def Obligations.RefusedAgentHasNoFurtherStep : Prop :=
  (∀ (r : RefuseReason) (s : State),
    refuse r s = { s with refused := true, refusals := s.refusals ++ [(s.issuer, r)] } ∧
    stopped s.issuer (refuse r s) = true) ∧
  (∀ s : State, s.cfg.launch = .fullEngine → stopped .fg s = true → foregroundStep s = .next s) ∧
  (∀ (s : State) (e : PortEntry), s.cfg.launch = .component → fetchEntry s = some e →
    stopped e.issuer s = true → foregroundStep s = .next s) ∧
  (∀ (src : Source) (s : State), stopped .int s = true → interruptStep src s = .next s) ∧
  ∀ (a : Issuer) (s t : State), stopped a s = true → step s = .next t → stopped a t = true

/-- R106: the opcode bytes outside the operation map are the reserved ones and are refused; so are a token outside
0..1 and a tick count outside 1..16. That an illegal operand from an issuer outside the class is refused with
IllegalOperand, the operand being checked before the issuer, is the model's choice (log 17). -/
def Obligations.ReservedAndIllegalEncodingsAreRefused : Prop :=
  (∀ (op : Byte) (rest : List Byte),
    decodeOp (op :: rest) = .error .reservedOpcode ↔
      op.toNat ∉ [0x00, 0x01, 0x10, 0x11, 0x12, 0x18, 0x19, 0x1A, 0x20, 0x21, 0x22, 0x23, 0x30, 0x31, 0x32,
        0x33, 0x40, 0x41, 0x50, 0x51]) ∧
  (∀ (e : PortEntry) (op : Byte) (rest : List Byte) (s : State),
    e.cls = .operation → e.mode ≠ .restoreToken → e.bytes = op :: rest → decodeOp (op :: rest) = .error .reservedOpcode →
    issueEntry e s = .next { s with
      issuer := e.issuer, refused := true, refusals := s.refusals ++ [(e.issuer, .illegalOp)] }) ∧
  (∀ (t : Byte) (s : State), 1 < t.toNat →
    exec (.csExit t) s =
      .next { s with refused := true, refusals := s.refusals ++ [(s.issuer, .illegalOperand)] }) ∧
  ∀ (d : Byte) (s : State), d.toNat = 0 ∨ 16 < d.toNat →
    exec (.timerArm d) s =
      .next { s with refused := true, refusals := s.refusals ++ [(s.issuer, .illegalOperand)] }

/-! ## USART: foreground operations -/

/-- R190: WRITE_BYTE answers WouldBlock on a full TXQ and changes nothing, else pushes the byte and, if the driver was
Idle, makes it Buffering with UDRIE set. -/
def Obligations.WriteByteQueuesAByte : Prop :=
  (∀ sig b, encode sig (.writeByte b) = [0x20#8, b]) ∧
  ∀ (b : Byte) (s : State), s.issuer = .fg →
    exec (.writeByte b) s =
      if s.txq.front = s.txq.back then .next { s with result := some .wouldBlock }
      else .next { s with
        txq := ⟨s.txq.slot.set s.txq.back (some b), s.txq.front, (s.txq.back + 1) % s.cfg.txqN⟩
        txState := .buffering
        udrie := if s.txState = .idle then true else s.udrie
        result := some .ok }

/-- R192: WRITE appends the whole string to TXQ or, if it does not fit, answers WouldBlock and changes nothing. -/
def Obligations.WriteIsAllOrNothing : Prop :=
  (∀ sig (bs : List Byte), encode sig (.write bs) =
    [0x21#8, BitVec.ofNat 8 bs.length, BitVec.ofNat 8 (bs.length / 256)] ++ bs) ∧
  ∀ (bs : List Byte) (s : State), s.issuer = .fg → 2 ≤ s.cfg.txqN → RingWf s.cfg.txqN s.txq →
    ((s.cfg.txqN - 1) - ringSize s.cfg.txqN s.txq < bs.length →
      exec (.write bs) s = .next { s with result := some .wouldBlock }) ∧
    (bs.length ≤ (s.cfg.txqN - 1) - ringSize s.cfg.txqN s.txq →
      ∃ q, Appended s.cfg.txqN s.txq bs q ∧
        exec (.write bs) s = .next { s with
          txq := q
          txState := if bs = [] then s.txState else .buffering
          udrie := if bs ≠ [] ∧ s.txState = .idle then true else s.udrie
          result := some .ok })

/-- R194: READ_BYTE answers WouldBlock on an empty RXQ and changes nothing, else takes the oldest byte. -/
def Obligations.ReadByteTakesTheOldest : Prop :=
  (∀ sig, encode sig .readByte = [0x22#8]) ∧
  ∀ s : State, s.issuer = .fg → RingWf s.cfg.rxqN s.rxq →
    (contents s.cfg.rxqN s.rxq = [] → exec .readByte s = .next { s with result := some .wouldBlock }) ∧
    (∀ b l, contents s.cfg.rxqN s.rxq = b :: l →
      ∃ q, Removed s.cfg.rxqN s.rxq [b] q ∧
        exec .readByte s = .next { s with rxq := q, result := some (.okByte b) })

/-- R196: READ takes the oldest `len` bytes of RXQ or, if it holds fewer, answers WouldBlock and changes nothing. -/
def Obligations.ReadIsAllOrNothing : Prop :=
  (∀ sig (len : Word16), encode sig (.read len) =
    [0x23#8, BitVec.ofNat 8 len.toNat, BitVec.ofNat 8 (len.toNat / 256)]) ∧
  ∀ (len : Word16) (s : State), s.issuer = .fg → RingWf s.cfg.rxqN s.rxq →
    (ringSize s.cfg.rxqN s.rxq < len.toNat → exec (.read len) s = .next { s with result := some .wouldBlock }) ∧
    (len.toNat ≤ ringSize s.cfg.rxqN s.rxq →
      ∃ bs q, bs.length = len.toNat ∧ Removed s.cfg.rxqN s.rxq bs q ∧
        exec (.read len) s = .next { s with rxq := q, result := some (.okBytes bs) })

/-- R410: a blocking form issued with interrupts off whose condition does not hold never leaves the operation and is not
refused, along every run; the only fault that can arise is a timer left running (R304). With the timer Disabled there is
an infinite execution, without a fault. -/
def Obligations.BlockingWithInterruptsOffHangs : Prop :=
  ∀ (c : ClientOp) (s : State), Running s → s.cfg.launch = .component → s.gie = false → stopped .fg s = false →
    fetchEntry s = some (portEntry s.cfg.signature .fg c) → blocked c s = true →
    (∀ (n : Nat) (t : State), runSteps n s = some t →
      t.idx = s.idx ∧ t.refusals = s.refusals ∧ (t.fault = none ∨ t.fault = some .timerOverrun)) ∧
    (s.tmr.state = .disabled → Hangs s)

/-! ## USART: interrupts, line and streams -/

/-- R210: the receive ISR empties the data register, clears RXC and pushes the byte, which a full RXQ drops. -/
def Obligations.ReceiveIsrPushesOrDrops : Prop :=
  (∀ sig, encode sig .isrUsartRx = [0x30#8]) ∧
  ∀ (b : Byte) (s : State), s.issuer = .int → s.gie = true → s.rxc = true → s.rxcie = true → s.rxDr = some b →
    exec .isrUsartRx s =
      if s.rxq.front = s.rxq.back then .next { s with rxDr := none, rxc := false }
      else .next { s with
        rxDr := none
        rxc := false
        rxq := ⟨s.rxq.slot.set s.rxq.back (some b), s.rxq.front, (s.rxq.back + 1) % s.cfg.rxqN⟩ }

/-- R211: the transmit-empty ISR moves the oldest byte of TXQ into the data register and clears UDRE or, on an empty
TXQ, makes the driver Idle and clears UDRIE. -/
def Obligations.TransmitIsrMovesAByteOrStops : Prop :=
  (∀ sig, encode sig .isrUsartUdre = [0x31#8]) ∧
  ∀ s : State, s.issuer = .int → s.gie = true → s.udre = true → s.udrie = true → RingWf s.cfg.txqN s.txq →
    (contents s.cfg.txqN s.txq = [] →
      exec .isrUsartUdre s = .next { s with txState := .idle, udrie := false }) ∧
    (∀ b l, contents s.cfg.txqN s.txq = b :: l →
      ∃ q, Removed s.cfg.txqN s.txq [b] q ∧
        exec .isrUsartUdre s = .next { s with txq := q, txDr := some b, udre := false })

/-- R352, R353, R355: a source is requesting when it is pending and enabled, and is not taken while it does not request
or while GIE is 0. That an ISR issued then changes nothing is the model's choice (log 20). -/
def Obligations.InterruptIsTakenOnlyOnRequest : Prop :=
  (∀ s : State, requesting .usartRx s = (s.rxc && s.rxcie) ∧ requesting .usartUdre s = (s.udre && s.udrie) ∧
    requesting .pinChange s = (s.pcif && s.pcie) ∧ requesting .timer s = (s.tmr.state == .expired)) ∧
  (∀ (src : Source) (sig : BitVec 64), encode sig (isrOf src) = [vectorCode src]) ∧
  ∀ (src : Source) (s : State), s.gie = false ∨ requesting src s = false →
    interruptStep src s = .next s ∧ (s.issuer = .int → exec (isrOf src) s = .next s)

/-- R212: UDRIE is cleared only by the transmit-empty ISR on an empty TXQ, and set only by a foreground step that takes
the driver from Idle to Buffering. -/
def Obligations.TransmitEnableIsWrittenByTwoRules : Prop :=
  ∀ s t : State, Inv s → ForegroundClient s → step s = .next t →
    (s.udrie = true → t.udrie = false →
      nextTurn s = .int .usartUdre ∧ ringEmpty s.cfg.txqN s.txq = true ∧ t.txState = .idle) ∧
    (s.udrie = false → t.udrie = true →
      nextTurn s = .fg ∧ s.txState = .idle ∧ t.txState = .buffering ∧
        ∃ bs, bs ≠ [] ∧ Appended s.cfg.txqN s.txq bs t.txq)

/-- R225: every byte accepted by WRITE_BYTE or WRITE is appended to the stream of accepted bytes (line, then data
register, then TXQ); no other agent changes that stream; along any run it only grows at its end. -/
def Obligations.TransmitStreamKeepsOrder : Prop :=
  (∀ (b : Byte) (s t : State), s.issuer = .fg → RingWf s.cfg.txqN s.txq → exec (.writeByte b) s = .next t →
    sent t = if t.result = some .ok then sent s ++ [b] else sent s) ∧
  (∀ (bs : List Byte) (s t : State), s.issuer = .fg → 2 ≤ s.cfg.txqN → RingWf s.cfg.txqN s.txq →
    exec (.write bs) s = .next t → sent t = if t.result = some .ok then sent s ++ bs else sent s) ∧
  (∀ s t : State, Inv s → ForegroundClient s → step s = .next t → nextTurn s ≠ .fg → sent t = sent s) ∧
  ∀ (n : Nat) (s t : State), Inv s → ForegroundClient s → runSteps n s = some t → sent s <+: sent t

/-- R226: if the bytes `got` so far and then the held ones are a subsequence of the delivered ones, they are so after
any step, with the bytes the foreground took in that step moved from the front of the held ones to `got`. -/
def Obligations.ReceivedBytesKeepHostOrder : Prop :=
  ∀ (s t : State) (got : List Byte), Inv s → ForegroundClient s → step s = .next t →
    List.Sublist (got ++ held s) (s.hostRx.take s.hostRxPos) →
    ∃ more, List.Sublist (got ++ more ++ held t) (t.hostRx.take t.hostRxPos) ∧
      (nextTurn s ≠ .fg → more = []) ∧ (nextTurn s = .fg → held s = more ++ held t)

/-- R227: if the foreground takes none of the next turns and the transmit-empty interrupt and the line take enough of
them, in any mixture with the other agents, then every accepted byte is on the line and the driver is Idle. -/
def Obligations.TransmitDrains : Prop :=
  ∀ (n : Nat) (s t : State), Inv s → ForegroundClient s → Running s → s.gie = true → stopped .int s = false →
    n ≤ s.turns.length → Turn.fg ∉ s.turns.take n →
    List.Sublist (drainTurns (contents s.cfg.txqN s.txq).length) (s.turns.take n) →
    runSteps n s = some t →
    t.txLine = sent s ∧ contents t.cfg.txqN t.txq = [] ∧ t.txDr = none ∧ t.txState = .idle ∧ t.udrie = false

/-- R220, R222: LINE_TX moves the data register to the line and sets UDRE; HOST delivers the next byte, and sets DOR
when RXC was set. -/
def Obligations.LineAgentsMoveOneByte : Prop :=
  ∀ s : State, Running s →
    (∀ b, nextTurn s = .lineTx → s.txDr = some b → ∃ ts n, step s = .next { s with
      turns := ts, turnNo := n
      txLine := s.txLine ++ [b], txDr := none, udre := true }) ∧
    ∀ b, nextTurn s = .host → s.hostRx[s.hostRxPos]? = some b → ∃ ts n, step s = .next { s with
      turns := ts, turnNo := n
      hostRxPos := s.hostRxPos + 1, dor := if s.rxc = true then true else s.dor
      rxDr := some b, rxc := true }

/-- Log 2, the model's choice: a turn given to an agent that is not enabled (R220, R222, R304, R355) uses up the turn and
changes nothing else. -/
def Obligations.DisabledAgentsOnlyUseTheirTurn : Prop :=
  ∀ s : State, Running s →
    (nextTurn s = .lineTx ∧ s.txDr = none) ∨ (nextTurn s = .host ∧ s.hostRx.length ≤ s.hostRxPos) ∨
      (nextTurn s = .timebase ∧ s.tmr.state = .disabled) ∨
      (∃ src, nextTurn s = .int src ∧ (s.gie = false ∨ requesting src s = false)) →
    step s = .next { s with turns := s.turns.drop 1, turnNo := s.turnNo + 1 }

/-! ## Debouncer -/

/-- R302, R304: PINS toggles one pin and sets PCIF; a tick counts, makes the compare match, and overruns at
TIMER_SPAN. -/
def Obligations.PinsAndTimebaseStep : Prop :=
  ∀ s : State, Running s →
    (nextTurn s = .pins 0 → ∃ ts n, step s = .next { s with
      turns := ts, turnNo := n, pin := ⟨!s.pin.b0, s.pin.b1⟩, pcif := true }) ∧
    (nextTurn s = .pins 1 → ∃ ts n, step s = .next { s with
      turns := ts, turnNo := n, pin := ⟨s.pin.b0, !s.pin.b1⟩, pcif := true }) ∧
    (nextTurn s = .timebase → s.tmr.state = .disabled → ∃ ts n, step s = .next { s with turns := ts, turnNo := n }) ∧
    (nextTurn s = .timebase → s.tmr.state = .running → ∃ ts n, step s = .next { s with
      turns := ts, turnNo := n
      tmr := ⟨if s.tmr.tcnt + 1 = s.tmr.ocr then .expired else .running, s.tmr.tcnt + 1, s.tmr.ocr⟩ }) ∧
    (nextTurn s = .timebase → s.tmr.state = .expired → s.tmr.tcnt = 16 → ∃ ts n, step s = .next { s with
      turns := ts, turnNo := n, fault := some .timerOverrun }) ∧
    (nextTurn s = .timebase → s.tmr.state = .expired → s.tmr.tcnt ≠ 16 → ∃ ts n, step s = .next { s with
      turns := ts, turnNo := n, tmr := ⟨.expired, s.tmr.tcnt + 1, s.tmr.ocr⟩ })

/-- R310: the pin-change ISR clears PCIF, samples both buttons, and disables the timer, arms it or leaves it. -/
def Obligations.PinChangeIsrSamplesTheButtons : Prop :=
  (∀ sig, encode sig .isrPcint = [0x32#8]) ∧
  ∀ s : State, s.issuer = .int → s.gie = true → s.pcif = true → s.pcie = true →
    let off := if s.cfg.debounceMode = .compensated ∧ s.tmr.state ≠ .disabled then s.tmr.tcnt else 0
    let sampled : Bool → ButtonState → ButtonState := fun level b =>
      if level = true then (if b = .up then .down (s.cfg.debounceDelay + off) else b) else .up
    exec .isrPcint s = .next { s with
      pcif := false
      btn := ⟨sampled s.pin.b0 s.btn.b0, sampled s.pin.b1 s.btn.b1⟩
      tmr :=
        if sampled s.pin.b0 s.btn.b0 = .up ∧ sampled s.pin.b1 s.btn.b1 = .up then ⟨.disabled, 0, s.tmr.ocr⟩
        else if s.tmr.state = .disabled then ⟨.running, 0, s.cfg.debounceDelay⟩
        else s.tmr }

/-- R315: the timer ISR subtracts the elapsed ticks, re-arms the timer for the least time left, fires the crossed
buttons in index order and disables the timer when no button is Down. -/
def Obligations.TimerIsrFiresCrossedButtons : Prop :=
  (∀ sig, encode sig .isrTimer = [0x33#8]) ∧
  ∀ s : State, s.issuer = .int → s.gie = true → s.tmr.state = .expired →
    let e := s.tmr.tcnt
    let fires : ButtonState → Bool := fun b => match b with | .down r => decide (r ≤ e) | _ => false
    let left : ButtonState → Option Nat := fun b =>
      match b with | .down r => if e < r then some (r - e) else none | _ => none
    let after : ButtonState → ButtonState := fun b =>
      match b with | .down r => if r ≤ e then .pressed else .down (r - e) | b => b
    exec .isrTimer s = .next { s with
      btn := ⟨after s.btn.b0, after s.btn.b1⟩
      press := s.press ++ (if fires s.btn.b0 && s.cfg.hasCallback0 then [0] else [])
        ++ (if fires s.btn.b1 && s.cfg.hasCallback1 then [1] else [])
      tmr :=
        match left s.btn.b0, left s.btn.b1 with
        | some a, some b => ⟨.running, 0, min (min a b) 16⟩
        | some a, none => ⟨.running, 0, min a 16⟩
        | none, some b => ⟨.running, 0, min b 16⟩
        | none, none => ⟨.disabled, 0, s.tmr.ocr⟩ }

/-- R306, R307: TIMER.ARM d restarts the timer for d ticks; TIMER.DISABLE stops it and clears its counter. -/
def Obligations.TimerArmAndDisable : Prop :=
  (∀ sig d, encode sig (.timerArm d) = [0x40#8, d] ∧ encode sig .timerDisable = [0x41#8]) ∧
  ∀ s : State, s.issuer = .internal →
    (∀ d : Byte, 1 ≤ d.toNat → d.toNat ≤ 16 →
      exec (.timerArm d) s = .next { s with tmr := ⟨.running, 0, d.toNat⟩ }) ∧
    (∀ d : Byte, d.toNat = 0 ∨ 16 < d.toNat → exec (.timerArm d) s =
      .next { s with refused := true, refusals := s.refusals ++ [(s.issuer, .illegalOperand)] }) ∧
    exec .timerDisable s = .next { s with tmr := ⟨.disabled, 0, s.tmr.ocr⟩ }

/-- R321: a press sampled in Compensated mode and held stays Down for the debounce delay and fires once exactly at its
last tick: for every run of any agents from the pin-change ISR that samples it in which the pin stays pressed and no tick
comes while a compare match waits for the timer ISR; and the run in which the timer ISR has a turn after every tick and
no other agent steps exists and reaches that tick. -/
def Obligations.HeldPressFiresOnceAfterTheDelay : Prop :=
  (∀ (i : Button) (n : Nat) (s p t : State), Inv s → ForegroundClient s → Running s → s.gie = true →
    stopped .int s = false → s.cfg.debounceMode = .compensated → s.pcif = true → buttonGet s.pin i = true →
    buttonGet s.btn i = .up → nextTurn s = .int .pinChange → step s = .next p →
    (∀ m, m ≤ n → ∀ v, runSteps m p = some v →
      buttonGet v.pin i = true ∧ (m < n → nextTurn v = .timebase → v.tmr.state ≠ .expired)) →
    runSteps n p = some t →
    (tickTurns n p < s.cfg.debounceDelay → isDown (buttonGet t.btn i) = true ∧ t.press.count i = s.press.count i) ∧
    (s.cfg.debounceDelay ≤ tickTurns n p → t.tmr.state ≠ .expired →
      buttonGet t.btn i = .pressed ∧
        t.press.count i = s.press.count i + (if hasCallback s.cfg i = true then 1 else 0))) ∧
  ∀ (i : Button) (s : State) (rest : List Turn), Inv s → Running s → s.gie = true → stopped .int s = false →
    s.cfg.debounceMode = .compensated → s.pcif = true → buttonGet s.pin i = true → buttonGet s.btn i = .up →
    s.turns = [.int .pinChange, .int .timer]
      ++ (List.replicate s.cfg.debounceDelay [Turn.timebase, Turn.int .timer]).flatten ++ rest →
    ∀ j, j ≤ s.cfg.debounceDelay → ∃ t, runSteps (2 + 2 * j) s = some t ∧
      (j < s.cfg.debounceDelay → isDown (buttonGet t.btn i) = true ∧ t.press.count i = s.press.count i) ∧
      (j = s.cfg.debounceDelay → buttonGet t.btn i = .pressed ∧
        t.press.count i = s.press.count i + (if hasCallback s.cfg i = true then 1 else 0))

/-- R322: in Compensated mode a press fires only after its debounce delay has been counted, whatever the other agents
do in between. -/
def Obligations.PressFiresOnlyAfterTheDelay : Prop :=
  ∀ (i : Button) (n : Nat) (s p t u : State), Inv s → ForegroundClient s → Running s →
    s.cfg.debounceMode = .compensated → nextTurn s = .int .pinChange → buttonGet s.btn i = .up →
    step s = .next p → isDown (buttonGet p.btn i) = true →
    (∀ m, m ≤ n → ∀ v, runSteps m p = some v → isDown (buttonGet v.btn i) = true) →
    runSteps n p = some t → step t = .next u → buttonGet u.btn i = .pressed →
    s.cfg.debounceDelay ≤ tickTurns n p

/-- R320: a press event of a button comes at most once in a step, only in a timer ISR that takes the button from Down to
Pressed; Down is entered from Up only; Pressed is left to Up only, by a pin-change ISR that samples a release. -/
def Obligations.AtMostOnePressEventPerPress : Prop :=
  ∀ (i : Button) (s t : State), Inv s → ForegroundClient s → step s = .next t →
    t.press.count i ≤ s.press.count i + 1 ∧
    (t.press.count i ≠ s.press.count i →
      nextTurn s = .int .timer ∧ isDown (buttonGet s.btn i) = true ∧ buttonGet t.btn i = .pressed) ∧
    (isDown (buttonGet t.btn i) = true → isDown (buttonGet s.btn i) = true ∨
      (buttonGet s.btn i = .up ∧ nextTurn s = .int .pinChange ∧ buttonGet s.pin i = true)) ∧
    (buttonGet s.btn i = .pressed → buttonGet t.btn i = .pressed ∨
      (buttonGet t.btn i = .up ∧ nextTurn s = .int .pinChange ∧ buttonGet s.pin i = false))

/-- R317, R324: after a timer ISR the timer is Disabled exactly when no button is Down; otherwise it is armed for the
least time left, which the clamp never cuts; after a pin-change ISR it is Disabled if every button is Up. -/
def Obligations.TimerIsArmedForTheLeastTimeLeft : Prop :=
  (∀ s t : State, s.issuer = .int → s.gie = true → s.pcif = true → s.pcie = true → exec .isrPcint s = .next t →
    t.btn = ⟨.up, .up⟩ → t.tmr.state = .disabled) ∧
  (∀ s t : State, s.issuer = .int → s.gie = true → s.tmr.state = .expired → exec .isrTimer s = .next t →
    (t.tmr.state = .disabled ↔ isDown t.btn.b0 = false ∧ isDown t.btn.b1 = false)) ∧
  ∀ s t : State, Inv s → s.issuer = .int → s.gie = true → s.tmr.state = .expired → exec .isrTimer s = .next t →
    (∀ i r, buttonGet t.btn i = .down r → t.tmr.ocr ≤ r ∧ r ≤ s.cfg.debounceDelay) ∧
    (t.tmr.state = .running → ∃ i, buttonGet t.btn i = .down t.tmr.ocr)

/-! ## Framer: handshake

The result `pending` of a framer operation that has not ended is the model's own (log 16). -/

/-- R250, R255: a send phase of the handshake writes the signature when it fits and moves on, else stays. That
FR.HANDSHAKE starts at the first send phase when no handshake is under way is the model's choice (log 12). -/
def Obligations.HandshakeSendsTheSignature : Prop :=
  (∀ sig, encode sig .frHandshake = [0x50#8]) ∧
  ∀ (c : Nat) (s : State), s.issuer = .fg → 2 ≤ s.cfg.txqN → RingWf s.cfg.txqN s.txq →
    (s.phase = .hsSend c ∧ c < 2) ∨ (inHandshake s.phase = false ∧ c = 0) →
    ((s.cfg.txqN - 1) - ringSize s.cfg.txqN s.txq < 8 →
      exec .frHandshake s = .next { s with phase := .hsSend c, result := some .pending }) ∧
    (8 ≤ (s.cfg.txqN - 1) - ringSize s.cfg.txqN s.txq →
      ∃ q, Appended s.cfg.txqN s.txq (le8 s.cfg.signature) q ∧
        exec .frHandshake s = .next { s with
          txq := q
          txState := .buffering
          udrie := if s.txState = .idle then true else s.udrie
          phase := if c = 0 then .hsSend 1 else .hsRecv
          hsWin := if c = 0 then s.hsWin else []
          result := some .pending })

/-- R256, R257: a receive attempt of the handshake, in both readings: it matches when the last eight bytes, or the
eight bytes read, are the signature. -/
def Obligations.HandshakeReceiveAttempt : Prop :=
  ∀ s : State, s.issuer = .fg → s.phase = .hsRecv → RingWf s.cfg.rxqN s.rxq →
    (s.cfg.handshakeMatch = .sliding →
      (contents s.cfg.rxqN s.rxq = [] → exec .frHandshake s = .next { s with result := some .pending }) ∧
      (∀ b l, contents s.cfg.rxqN s.rxq = b :: l →
        let w := ((s.hsWin ++ [b]).reverse.take (min 8 (s.hsWin.length + 1))).reverse
        ∃ q, Removed s.cfg.rxqN s.rxq [b] q ∧
          exec .frHandshake s = .next { s with
            rxq := q
            hsWin := w
            phase := if w = le8 s.cfg.signature then .srvRead else .hsRecv
            result := some (if w = le8 s.cfg.signature then .ok else .pending) })) ∧
    (s.cfg.handshakeMatch = .chunked8 →
      (ringSize s.cfg.rxqN s.rxq < 8 → exec .frHandshake s = .next { s with result := some .pending }) ∧
      (8 ≤ ringSize s.cfg.rxqN s.rxq →
        ∃ w q, w.length = 8 ∧ Removed s.cfg.rxqN s.rxq w q ∧
          exec .frHandshake s = .next { s with
            rxq := q
            phase := if w = le8 s.cfg.signature then .srvRead else .hsRecv
            result := some (if w = le8 s.cfg.signature then .ok else .pending) }))

/-- R256: in the sliding reading any number of spurious bytes before the signature is tolerated, at any alignment: the
handshake ends no later than at the signature's last byte. -/
def Obligations.SlidingHandshakeToleratesSpuriousBytes : Prop :=
  ∀ (junk rest : List Byte) (s : State), s.issuer = .fg → s.phase = .hsRecv → s.hsWin = [] →
    s.cfg.handshakeMatch = .sliding → RingWf s.cfg.rxqN s.rxq →
    contents s.cfg.rxqN s.rxq = junk ++ le8 s.cfg.signature ++ rest →
    ∃ k t, k ≤ junk.length + 8 ∧ execTimes .frHandshake k s = some t ∧ t.phase = .srvRead ∧
      t.result = some .ok ∧ contents t.cfg.rxqN t.rxq = (contents s.cfg.rxqN s.rxq).drop k

/-! ## Framer: serving a request (`pending`: log 16) -/

/-- R250: SRV_READ takes sixteen bytes as the request or stays; SRV_SEND writes the prepared response and ends the
operation or stays. That FR.SERVE_ONE starts at SRV_READ when it is issued in a phase of the handshake is the model's
choice (log 12). -/
def Obligations.ServeReadsAndSends : Prop :=
  (∀ sig, encode sig .frServeOne = [0x51#8]) ∧
  ∀ s : State, s.issuer = .fg →
    (s.phase = .srvRead ∨ inHandshake s.phase = true → RingWf s.cfg.rxqN s.rxq →
      (ringSize s.cfg.rxqN s.rxq < 16 →
        exec .frServeOne s = .next { s with phase := .srvRead, result := some .pending }) ∧
      (16 ≤ ringSize s.cfg.rxqN s.rxq →
        ∃ p q, p.length = 16 ∧ Removed s.cfg.rxqN s.rxq p q ∧
          exec .frServeOne s =
            .next { s with rxq := q, req := p, phase := .srvDispatch, result := some .pending })) ∧
    (s.phase = .srvSend → 2 ≤ s.cfg.txqN → RingWf s.cfg.txqN s.txq →
      ((s.cfg.txqN - 1) - ringSize s.cfg.txqN s.txq < s.out.length →
        exec .frServeOne s = .next { s with result := some .pending }) ∧
      (s.out.length ≤ (s.cfg.txqN - 1) - ringSize s.cfg.txqN s.txq →
        ∃ q, Appended s.cfg.txqN s.txq s.out q ∧
          exec .frServeOne s = .next { s with
            txq := q
            txState := if s.out = [] then s.txState else .buffering
            udrie := if s.out ≠ [] ∧ s.txState = .idle then true else s.udrie
            phase := .srvRead
            result := some .ok }))

/-- R261: SRV_DISPATCH does with a well-formed request what the request's row does, and ends the operation when the
handler is absent. -/
def Obligations.ServeDispatchesTheRequest : Prop :=
  ∀ (r : Request) (s : State), s.issuer = .fg → s.phase = .srvDispatch → decodeRequest s.req = .ok r →
    ∃ u, exec (requestInstr r) s = .next u ∧
      exec .frServeOne s = .next { u with result := some (if u.phase = .srvRead then .ok else .pending) }

/-- R262, R265: a malformed request raises the fault of the first test that fails and changes nothing else; the packet
stays in S.req, and no agent steps any more. -/
def Obligations.MalformedRequestHaltsTheBlock : Prop :=
  ∀ s : State, s.issuer = .fg → s.phase = .srvDispatch →
    let faulted : FaultCode → State := fun c => { s with fault := some c, result := some .pending }
    (2 < (byteAt s.req 0).toNat → exec .frServeOne s = .next (faulted .panicReqTag)) ∧
    ((byteAt s.req 0).toNat = 0 → 1 < (byteAt s.req 1).toNat →
      exec .frServeOne s = .next (faulted .panicSelection)) ∧
    ((byteAt s.req 0).toNat = 2 → 1 < (byteAt s.req 9).toNat →
      exec .frServeOne s = .next (faulted .panicMode)) ∧
    ((byteAt s.req 0).toNat = 2 → (byteAt s.req 9).toNat = 0 → 2 < (byteAt s.req 10).toNat →
      exec .frServeOne s = .next (faulted .panicMethod)) ∧
    ∀ c, configLegal s.cfg = true → step (faulted c) = .fault (.halted c)

/-- R112 to R114, R117: padding is ignored: packets that agree on the bytes their tag gives a meaning decode alike. -/
def Obligations.PaddingIsIgnored : Prop :=
  ∀ p q : List Byte, p.length = 16 → q.length = 16 → byteAt p 0 = byteAt q 0 →
    ((byteAt p 0).toNat = 0 → byteAt p 1 = byteAt q 1 ∧ byteAt p 2 = byteAt q 2) →
    ((byteAt p 0).toNat = 2 →
      (∀ i, 1 ≤ i → i ≤ 10 → byteAt p i = byteAt q i) ∧
      ((byteAt p 9).toNat = 0 → byteAt p 11 = byteAt q 11)) →
    decodeRequest p = decodeRequest q

/-- R261: a request whose handler is present: the answer of H_APPROX or H_ROOT is encoded and waits to be sent, the next
answer fixed at launch being used first and else any value; function points start at the first pass. -/
def Obligations.RequestRowsCallTheirHandlers : Prop :=
  ∀ s : State,
    (s.cfg.hasApprox = true →
      ∃ a : F64 × F64, (∀ b l, s.approxAnswers = b :: l → a = b) ∧
        exec .reqApproximations s = .next { s with
          out := le8 a.1 ++ le8 a.2
          phase := .srvSend
          calls := s.calls ++ [.approx]
          approxAnswers := s.approxAnswers.drop 1
          draws := if s.approxAnswers = [] then s.draws + 1 else s.draws }) ∧
    (s.cfg.hasRoot = true → ∀ (eps : F64) (i : Instr) (mode : Mode) (e : Byte),
      (i, mode) ∈ [(Instr.reqRootChord eps e, Mode.single .chord e),
        (Instr.reqRootSecant eps e, Mode.single .secant e),
        (Instr.reqRootSimpleIteration eps e, Mode.single .simpleIterationSingle e),
        (Instr.reqRootSystem eps e, Mode.system e)] →
      ∃ a : RootAnswer, (∀ b l, s.rootAnswers = b :: l → a = b) ∧
        exec i s = .next { s with
          out := encodeRoot a
          phase := .srvSend
          calls := s.calls ++ [.root eps mode]
          rootAnswers := s.rootAnswers.drop 1
          draws := if s.rootAnswers = [] then s.draws + 1 else s.draws }) ∧
    (s.cfg.hasPoints = true → ∀ index : Byte,
      exec (.reqPointsSingle index) s =
        .next { s with sel := .single index, pass := .first, k := 0, phase := .srvPoints } ∧
      exec (.reqPointsSystem index) s =
        .next { s with sel := .system index, pass := .first, k := 0, phase := .srvPoints })

/-- R266: a request whose handler is absent produces no response: the sequencer returns to SRV_READ. -/
def Obligations.AbsentHandlerIsSilent : Prop :=
  ∀ s : State,
    (s.cfg.hasApprox = false → exec .reqApproximations s = .next { s with phase := .srvRead }) ∧
    (s.cfg.hasRoot = false → ∀ (eps : F64) (e : Byte),
      exec (.reqRootChord eps e) s = .next { s with phase := .srvRead } ∧
      exec (.reqRootSecant eps e) s = .next { s with phase := .srvRead } ∧
      exec (.reqRootSimpleIteration eps e) s = .next { s with phase := .srvRead } ∧
      exec (.reqRootSystem eps e) s = .next { s with phase := .srvRead }) ∧
    (s.cfg.hasPoints = false → ∀ index : Byte,
      exec (.reqPointsSingle index) s = .next { s with phase := .srvRead } ∧
      exec (.reqPointsSystem index) s = .next { s with phase := .srvRead })

/-! ## Framer: responses -/

/-- R116, R267, R268: the sixteen bytes of a short response: two values, least significant byte first, or the quiet NaN,
the error code and seven zeros. That a response row prepares its packet and moves to SRV_SEND is the model's choice
(log 14). -/
def Obligations.ShortResponsesArePrepared : Prop :=
  (∀ (x y : F64) (s : State), ∃ bs : List Byte, bs.length = 16 ∧
    (∀ j, j < 8 → bs[j]? = some (x.extractLsb' (8 * j) 8) ∧ bs[8 + j]? = some (y.extractLsb' (8 * j) 8)) ∧
    exec (.rspApproximations x y) s = .next { s with out := bs, phase := .srvSend } ∧
    exec (.rspRootOk x y) s = .next { s with out := bs, phase := .srvSend }) ∧
  ∀ s : State,
    let failure : Byte → List Byte := fun code =>
      [0x00#8, 0x00#8, 0x00#8, 0x00#8, 0x00#8, 0x00#8, 0xF8#8, 0x7F#8, code,
        0x00#8, 0x00#8, 0x00#8, 0x00#8, 0x00#8, 0x00#8, 0x00#8]
    exec .rspRootNoRoot s = .next { s with out := failure 0x00#8, phase := .srvSend } ∧
    exec .rspRootMoreThanOne s = .next { s with out := failure 0x01#8, phase := .srvSend } ∧
    exec .rspRootDiverges s = .next { s with out := failure 0x02#8, phase := .srvSend }

/-- R264, R269: step A of streaming computes point k at x_k with the handler and encodes it; step B writes it and moves
on: next point, second pass of a system, or SRV_READ. x_k is `sampleX`, which RoundingIsToNearestTiesToEven states. -/
def Obligations.StreamingStepsAAndB : Prop :=
  ∀ s : State, s.issuer = .fg →
    (s.phase = .srvPoints →
      ∃ p : Point, (∀ b l, s.pointAnswers = b :: l → p = b) ∧
        exec .frServeOne s = .next { s with
          out := le8 p.x ++ le8 p.y
          phase := .srvPtSend
          calls := s.calls ++ [.points s.sel s.pass (sampleX s.cfg s.k)]
          pointAnswers := s.pointAnswers.drop 1
          draws := if s.pointAnswers = [] then s.draws + 1 else s.draws
          result := some .pending }) ∧
    (s.phase = .srvPtSend → 2 ≤ s.cfg.txqN → RingWf s.cfg.txqN s.txq → s.out ≠ [] →
      ((s.cfg.txqN - 1) - ringSize s.cfg.txqN s.txq < s.out.length →
        exec .frServeOne s = .next { s with result := some .pending }) ∧
      (s.out.length ≤ (s.cfg.txqN - 1) - ringSize s.cfg.txqN s.txq →
        let again := s.pass = .first ∧ isSystem s.sel = true
        ∃ q, Appended s.cfg.txqN s.txq s.out q ∧
          exec .frServeOne s = .next { s with
            txq := q
            txState := .buffering
            udrie := if s.txState = .idle then true else s.udrie
            k := if s.k < 255 then s.k + 1 else if again then 0 else s.k
            pass := if s.k < 255 then s.pass else if again then .second else s.pass
            phase := if s.k < 255 ∨ again then .srvPoints else .srvRead
            result := some (if s.k < 255 ∨ again then .pending else .ok) }))

/-- R264, R116: one step of sending a long packet given by its records. That a long-packet row is this stream, one step
at a time, is the model's choice (log 14). -/
def Obligations.LongPacketRowsStream : Prop :=
  ∀ (i : Instr) (p : Pass) (ps : List Point) (s : State),
    (i, p) ∈ [(Instr.rspPointsFirst ps, Pass.first), (Instr.rspPointsSecond ps, Pass.second)] → ps.length = 256 →
    (¬(s.phase = .srvPtSend ∧ s.pass = p) →
      let k := if s.phase = .srvPoints ∧ s.pass = p then s.k else 0
      ∀ r, ps[k]? = some r →
        exec i s = .next { s with
          pass := p, k := k, out := le8 r.x ++ le8 r.y, phase := .srvPtSend, result := some .pending }) ∧
    (s.phase = .srvPtSend → s.pass = p → 2 ≤ s.cfg.txqN → RingWf s.cfg.txqN s.txq → s.out ≠ [] →
      ((s.cfg.txqN - 1) - ringSize s.cfg.txqN s.txq < s.out.length →
        exec i s = .next { s with result := some .pending }) ∧
      (s.out.length ≤ (s.cfg.txqN - 1) - ringSize s.cfg.txqN s.txq →
        let again := p = .first ∧ isSystem s.sel = true
        ∃ q, Appended s.cfg.txqN s.txq s.out q ∧
          exec i s = .next { s with
            txq := q
            txState := .buffering
            udrie := if s.txState = .idle then true else s.udrie
            k := if s.k < 255 then s.k + 1 else if again then 0 else s.k
            pass := if s.k < 255 then p else if again then .second else p
            phase := if s.k < 255 ∨ again then .srvPoints else .srvRead
            result := some (if s.k < 255 then .pending else .ok) }))

/-- R116, R272: the 512 steps of a long-packet row put exactly the concatenation of its 256 records, 4096 bytes, into a
TXQ that has room for them. That a long-packet row is this stream, one step at a time, is the model's choice (log 14). -/
def Obligations.LongPacketIsItsRecordsInOrder : Prop :=
  ∀ (i : Instr) (p : Pass) (ps : List Point) (s : State),
    (i, p) ∈ [(Instr.rspPointsFirst ps, Pass.first), (Instr.rspPointsSecond ps, Pass.second)] → ps.length = 256 →
    s.phase ≠ .srvPoints → s.phase ≠ .srvPtSend → RingWf s.cfg.txqN s.txq →
    4096 ≤ (s.cfg.txqN - 1) - ringSize s.cfg.txqN s.txq →
    ∃ t, execTimes i 512 s = some t ∧ t.result = some .ok ∧
      (ps.flatMap (fun r => le8 r.x ++ le8 r.y)).length = 4096 ∧
      encode s.cfg.signature i = ps.flatMap (fun r => le8 r.x ++ le8 r.y) ∧
      contents t.cfg.txqN t.txq = contents s.cfg.txqN s.txq ++ encode s.cfg.signature i ∧
      t.phase = (if p = .first ∧ isSystem s.sel = true then .srvPoints else .srvRead)

/-- R264, R272: serving a FunctionPoints request from its first pass on calls H_POINTS at x_0, ..., x_255, in both
passes for a system, and puts the answered points in that order, 4096 bytes a pass, into a TXQ with room for them. The
answers are those fixed at launch while they last, which need be neither as many nor no more than the points asked for,
and then any values (log 10). x_k is `sampleX`, which RoundingIsToNearestTiesToEven states. -/
def Obligations.ServedPointsAreStreamedInOrder : Prop :=
  ∀ s : State, s.issuer = .fg → s.phase = .srvPoints → s.pass = .first → s.k = 0 → RingWf s.cfg.txqN s.txq →
    let total := if isSystem s.sel = true then 512 else 256
    16 * total ≤ (s.cfg.txqN - 1) - ringSize s.cfg.txqN s.txq →
    ∃ (ps : List Point) (t : State), execTimes .frServeOne (2 * total) s = some t ∧ ps.length = total ∧
      ps.take s.pointAnswers.length = s.pointAnswers.take total ∧ t.pointAnswers = s.pointAnswers.drop total ∧
      t.phase = .srvRead ∧ t.result = some .ok ∧
      contents t.cfg.txqN t.txq = contents s.cfg.txqN s.txq ++ ps.flatMap (fun r => le8 r.x ++ le8 r.y) ∧
      t.calls = s.calls
        ++ (List.range 256).map (fun k => .points s.sel .first (sampleX s.cfg k))
        ++ (if isSystem s.sel = true then
            (List.range 256).map (fun k => .points s.sel .second (sampleX s.cfg k)) else [])

/-- R255, R256, R257: one attempt at the signature: sent in a send phase, awaited in HS_RECV. That the signature's row
is such an attempt, and its result, are the model's choice (log 14). -/
def Obligations.SignatureRowAttempts : Prop :=
  ∀ s : State,
    (∀ c, 2 ≤ s.cfg.txqN → RingWf s.cfg.txqN s.txq →
      (s.phase = .hsSend c ∧ c < 2) ∨ (inHandshake s.phase = false ∧ c = 0) →
      ((s.cfg.txqN - 1) - ringSize s.cfg.txqN s.txq < 8 →
        exec .sigSignature s = .next { s with phase := .hsSend c, result := some .wouldBlock }) ∧
      (8 ≤ (s.cfg.txqN - 1) - ringSize s.cfg.txqN s.txq →
        ∃ q, Appended s.cfg.txqN s.txq (encode s.cfg.signature .sigSignature) q ∧
          exec .sigSignature s = .next { s with
            txq := q
            txState := .buffering
            udrie := if s.txState = .idle then true else s.udrie
            phase := if c = 0 then .hsSend 1 else .hsRecv
            hsWin := if c = 0 then s.hsWin else []
            result := some .ok })) ∧
    (s.phase = .hsRecv → RingWf s.cfg.rxqN s.rxq →
      (s.cfg.handshakeMatch = .sliding → ∀ b l, contents s.cfg.rxqN s.rxq = b :: l →
        let w := ((s.hsWin ++ [b]).reverse.take (min 8 (s.hsWin.length + 1))).reverse
        ∃ q, Removed s.cfg.rxqN s.rxq [b] q ∧
          exec .sigSignature s = .next { s with
            rxq := q
            hsWin := w
            phase := if w = encode s.cfg.signature .sigSignature then .srvRead else .hsRecv
            result := some (if w = encode s.cfg.signature .sigSignature then .ok else .wouldBlock) }) ∧
      (s.cfg.handshakeMatch = .chunked8 → 8 ≤ ringSize s.cfg.rxqN s.rxq →
        ∃ w q, w.length = 8 ∧ Removed s.cfg.rxqN s.rxq w q ∧
          exec .sigSignature s = .next { s with
            rxq := q
            phase := if w = encode s.cfg.signature .sigSignature then .srvRead else .hsRecv
            result := some (if w = encode s.cfg.signature .sigSignature then .ok else .wouldBlock) }) ∧
      ((s.cfg.handshakeMatch = .sliding ∧ contents s.cfg.rxqN s.rxq = []) ∨
          (s.cfg.handshakeMatch = .chunked8 ∧ ringSize s.cfg.rxqN s.rxq < 8) →
        exec .sigSignature s = .next { s with result := some .wouldBlock }))

/-- R270: each operation of the sample arithmetic gives the binary64 value nearest to the exact result, ties to even,
and x_k is the composition R270 gives of them, for finite borders whatever the sizes. What R270 takes from general
knowledge, the value of a pattern, the overflow to infinity, the signs of zeros and the NaN of 0 times infinity, is
presumed as IEEE 754 has it (log 11). -/
def Obligations.RoundingIsToNearestTiesToEven : Prop :=
  (∀ m n : Nat,
    2 * m ≤ 2 ^ n * (2 * roundShift m n + 1) ∧ 2 ^ n * (2 * roundShift m n) ≤ 2 * m + 2 ^ n ∧
    (2 * m = 2 ^ n * (2 * roundShift m n + 1) ∨ 2 * m + 2 ^ n = 2 ^ n * (2 * roundShift m n) →
      roundShift m n % 2 = 0)) ∧
  (∀ (negative : Bool) (m : Nat) (e : Int),
    RoundedTo (dyadic negative m e) negative (f64Round negative m e)) ∧
  (∀ a b : F64, f64Finite a = true → f64Finite b = true →
    RoundedTo (f64Value a + f64Value b) (f64Sign a && f64Sign b) (f64Add a b) ∧
    RoundedTo (f64Value a - f64Value b) (f64Sign a && !f64Sign b) (f64Sub a b) ∧
    RoundedTo (f64Value a * f64Value b) (f64Sign a ^^ f64Sign b) (f64Mul a b) ∧
    (f64Value b ≠ 0 → RoundedTo (f64Value a / f64Value b) (f64Sign a ^^ f64Sign b) (f64Div a b))) ∧
  (∀ k : Nat, k < 256 → f64Finite (f64OfNat k) = true ∧ f64Value (f64OfNat k) = k) ∧
  (∀ (c : Config) (k : Nat),
    sampleX c k = f64Add c.leftBorder
      (f64Mul (f64OfNat k) (f64Div (f64Sub c.rightBorder c.leftBorder) 0x4070000000000000#64))) ∧
  (f64Finite 0x4070000000000000#64 = true ∧ f64Value 0x4070000000000000#64 = 256) ∧
  ∀ c : Config, configLegal c = true → f64Sub c.rightBorder c.leftBorder = f64Infinity false →
    (f64Exponent (sampleX c 0) = 2047 ∧ f64Fraction (sampleX c 0) ≠ 0) ∧
    ∀ k : Nat, 0 < k → k < 256 → sampleX c k = f64Infinity false

/-! ## The machine as a whole -/

/-- R356, R357: an ISR leaves the foreground's state and GIE as they were. -/
def Obligations.InterruptsLeaveTheForegroundAlone : Prop :=
  ∀ (src : Source) (s t : State), s.issuer = .int → exec (isrOf src) s = .next t →
    t.gie = s.gie ∧ t.phase = s.phase ∧ t.idx = s.idx ∧ t.hsWin = s.hsWin ∧ t.req = s.req ∧ t.pass = s.pass ∧
    t.k = s.k ∧ t.out = s.out ∧ t.sel = s.sel ∧ t.port = s.port ∧ t.tokens = s.tokens ∧ t.result = s.result

/-- R360: raising a fault sets S.fault; in a faulted block no agent has a step. -/
def Obligations.FaultStopsEveryAgent : Prop :=
  (∀ (c : FaultCode) (s : State), raise c s = { s with fault := some c }) ∧
  ∀ (c : FaultCode) (s : State), configLegal s.cfg = true → s.fault = some c → step s = .fault (.halted c)

/-- R400, R37: what reset leaves, for every configuration. -/
def Obligations.ResetLeavesTheseValues : Prop :=
  (∀ c : Config,
    let s := resetWith c
    s.cfg = c ∧ s.gie = false ∧ s.fault = none ∧ s.refused = false ∧
    s.rxq.front = 0 ∧ s.rxq.back = 1 ∧ s.rxq.slot = List.replicate c.rxqN none ∧
    s.txq.front = 0 ∧ s.txq.back = 1 ∧ s.txq.slot = List.replicate c.txqN none ∧
    s.txState = .idle ∧ s.udrie = false ∧ s.txDr = none ∧ s.udre = true ∧
    s.rxDr = none ∧ s.rxc = false ∧ s.dor = false ∧ s.rxcie = true ∧ s.txLine = [] ∧ s.hostRxPos = 0 ∧
    s.btn = ⟨.up, .up⟩ ∧ s.pcie = true ∧ s.pcif = false ∧ s.tmr.state = .disabled ∧ s.tmr.tcnt = 0 ∧
    s.press = [] ∧ s.phase = .hsSend 0 ∧ s.idx = 0 ∧ s.hsWin = []) ∧
  State.reset = resetWith defaultConfig

/-- R405: the first step after reset is boot, which enables interrupts and changes nothing else; R406: a configuration may
leave them off, which the model offers as a configuration choice (log 3). -/
def Obligations.BootComesFirst : Prop :=
  ∀ s : State, configLegal s.cfg = true → s.fault = none → s.booted = false →
    (s.cfg.bootEnablesInterrupts = true → step s = .next { s with booted := true, gie := true }) ∧
    (s.cfg.bootEnablesInterrupts = false → step s = .next { s with booted := true, gie := false })

/-- R53: the invariants hold right after reset, for every legal configuration, and the empty port issues nothing. This
rests on the values the model chose where the spec gives none: `ocr`, `req`, `k` and `out` (log 5), the configuration of
`State.reset` (log 3) and its empty port (log 6). -/
def Obligations.InvHoldsAtReset : Prop :=
  Inv State.reset ∧ ForegroundClient State.reset ∧ ∀ c : Config, configLegal c = true → Inv (resetWith c)

/-- R53: every step keeps the invariants, for a client that issues as the foreground (log 27). -/
def Obligations.StepKeepsInv : Prop :=
  ∀ s t : State, Inv s → ForegroundClient s → step s = .next t → Inv t ∧ ForegroundClient t

/-- R16, R31, R205, R240, R355: a step runs the instruction its agent's unit decodes to, and the client's position
moves on when the operation has ended, which a blocking form that answers WouldBlock and a framer operation that answers
`pending` (log 16) have not, nor a refused one or one that raised a fault. R108, R182, R183: the entry of a CRITICAL
region is a CS.ENTER whose token the client keeps, its exit the CS.EXIT of the last token kept; that the client keeps
them in a list of the state is the model's choice (log 18). -/
def Obligations.StepRunsTheDecodedUnit : Prop :=
  (∀ s : State, takeTurn s = { s with turns := s.turns.drop 1, turnNo := s.turnNo + 1 }) ∧
  (∀ (s : State) (e : PortEntry) (i : Instr), Running s → s.cfg.launch = .component → nextTurn s = .fg →
    fetchEntry s = some e → stopped e.issuer s = false →
    decodeUnit s.cfg.signature e.cls (issuedBytes e s) = .ok i →
    step s = mapNext (settle e i) (exec i (present e (takeTurn s)))) ∧
  (∀ s : State, Running s → s.cfg.launch = .fullEngine → nextTurn s = .fg → stopped .fg s = false →
    step s = exec (if inHandshake s.phase then .frHandshake else .frServeOne) { takeTurn s with issuer := .fg }) ∧
  (∀ (s : State) (src : Source), Running s → nextTurn s = .int src → s.gie = true → requesting src s = true →
    stopped .int s = false → step s = exec (isrOf src) { takeTurn s with issuer := .int }) ∧
  (∀ (s : State), Running s → s.cfg.launch = .component → nextTurn s = .fg → stopped .fg s = false →
    (fetchEntry s = some (portEntry s.cfg.signature .fg .criticalEnter) →
      step s = .next { takeTurn s with
        issuer := .fg, gie := false, result := some (.okToken s.gie), tokens := s.gie :: s.tokens, idx := s.idx + 1 }) ∧
    (∀ b ts, fetchEntry s = some (portEntry s.cfg.signature .fg .criticalExit) → s.tokens = b :: ts →
      step s = .next { takeTurn s with
        issuer := .fg, gie := b, result := some .ok, tokens := ts, idx := s.idx + 1 })) ∧
  ∀ (e : PortEntry) (i : Instr) (t : State),
    (t.fault ≠ none ∨ stopped e.issuer t = true → settle e i t = t) ∧
    (endRule i = .manySteps → t.result = some .pending → settle e i t = t) ∧
    (e.mode = .blocking → endRule i = .attempt → t.result = some .wouldBlock → settle e i t = t) ∧
    (t.fault = none → stopped e.issuer t = false → ¬(endRule i = .manySteps ∧ t.result = some .pending) →
      ¬(e.mode = .blocking ∧ endRule i = .attempt ∧ t.result = some .wouldBlock) →
      (e.mode = .once ∨ e.mode = .blocking → settle e i t = { t with idx := t.idx + 1 }) ∧
      (∀ b, e.mode = .saveToken → t.result = some (.okToken b) →
        settle e i t = { t with idx := t.idx + 1, tokens := b :: t.tokens }) ∧
      (e.mode = .restoreToken → settle e i t = { t with idx := t.idx + 1, tokens := t.tokens.drop 1 }))

/-- Decode and encode agree, for every well-formed instruction with every operand; an operation is also read from the
front of any longer byte sequence, and operation bytes have one meaning only. That a ComputeRoot success whose x is a NaN,
other than one that spells a failure packet, is read back as a success is the model's choice (log 30): the device decodes
no response (R119), and the host reads such a packet as a failure (R116, R416). -/
def Obligations.DecodeAndEncodeAgree : Prop :=
  (∀ (sig : BitVec 64) (i : Instr), wellFormed i = true → decodeUnit sig (unitClass i) (encode sig i) = .ok i) ∧
  (∀ (sig : BitVec 64) (i : Instr) (rest : List Byte), wellFormed i = true → unitClass i = .operation →
    decodeOp (encode sig i ++ rest) = .ok (i, rest)) ∧
  ∀ (sig : BitVec 64) (bs : List Byte) (i : Instr) (rest : List Byte),
    decodeOp bs = .ok (i, rest) → unitClass i = .operation ∧ encode sig i ++ rest = bs

/-- A few words written out from the spec's encodings decode to their instructions. That a response on the port is decoded
at all, the failure packet as that failure, is the model's choice (log 30). -/
def Obligations.WrittenWordsDecode : Prop :=
  decodeOp [0x21#8, 0x02#8, 0x00#8, 0x41#8, 0x42#8] = .ok (.write [0x41#8, 0x42#8], []) ∧
  decodeOp [0x23#8, 0x01#8, 0x02#8] = .ok (.read 0x0201#16, []) ∧
  decodeOp [0x18#8, 0x7E#8, 0x00#8] = .ok (.rbPushBackTxq 0x7E#8, [0x00#8]) ∧
  decodeOp [0x40#8, 0x04#8] = .ok (.timerArm 0x04#8, []) ∧
  decodeUnit 0#64 .request
    ([0x02#8, 0x00#8, 0x00#8, 0x00#8, 0x00#8, 0x00#8, 0x00#8, 0xF0#8, 0x3F#8, 0x00#8, 0x01#8, 0x07#8]
      ++ List.replicate 4 0xFF#8) = .ok (.reqRootSecant 0x3FF0000000000000#64 0x07#8) ∧
  decodeUnit 0#64 (.response .root)
    ([0x00#8, 0x00#8, 0x00#8, 0x00#8, 0x00#8, 0x00#8, 0xF8#8, 0x7F#8, 0x02#8] ++ List.replicate 7 0x00#8) =
    .ok .rspRootDiverges ∧
  decodeUnit 0x0123456789ABCDEF#64 .signature
    [0xEF#8, 0xCD#8, 0xAB#8, 0x89#8, 0x67#8, 0x45#8, 0x23#8, 0x01#8] = .ok .sigSignature

/-- R41 to R46, R92: no instruction changes the configuration, the hardwired enables, the overrun flag, the line, the
host's bytes, the pins, the port or the turns. That every instruction answers a next state in every state is the model's
choice: a refusal is a next state (log 7), so is an ISR without a request (log 20), and so are the states that break R53
(log 22). -/
def Obligations.NoInstructionTouchesTheEnvironment : Prop :=
  ∀ (i : Instr) (s : State), ∃ t, exec i s = .next t ∧
    t.cfg = s.cfg ∧ t.booted = s.booted ∧ t.rxcie = s.rxcie ∧ t.pcie = s.pcie ∧ t.dor = s.dor ∧
    t.txLine = s.txLine ∧ t.hostRx = s.hostRx ∧ t.hostRxPos = s.hostRxPos ∧ t.pin = s.pin ∧ t.port = s.port ∧
    t.idx = s.idx ∧ t.turns = s.turns ∧ t.turnNo = s.turnNo ∧ t.issuer = s.issuer ∧ t.tokens = s.tokens

/-- R32, R41: over a whole step GIE changes only at boot or by the client's CS.ENTER or CS.EXIT; DOR is never cleared,
and set only when the host delivers a byte while RXC is set. -/
def Obligations.GieAndOverrunAreWrittenByTheirRules : Prop :=
  ∀ s t : State, step s = .next t →
    (t.gie ≠ s.gie → s.booted = false ∨
      (nextTurn s = .fg ∧ s.cfg.launch = .component ∧ ∃ e i, fetchEntry s = some e ∧
        decodeUnit s.cfg.signature e.cls (issuedBytes e s) = .ok i ∧ (i = .csEnter ∨ ∃ b, i = .csExit b))) ∧
    (s.dor = true → t.dor = true) ∧
    (t.dor = true → s.dor = true ∨ (nextTurn s = .host ∧ s.rxc = true))
end

