-- ==== Sys2Proof/Laws/Codec.lean ====
section
/-! SUPPORT. The byte order (R11, R82), the operand formats (R101, R102) and the packet records (R116, R267 to R269)
read back what they write. -/

namespace Sys2Proof.Laws

open Sys2Proof

/-! ## Byte order -/

theorem leBytes_length (n v : Nat) : (leBytes n v).length = n := by
  induction n generalizing v with
  | zero => rfl
  | succ n ih => simp [leBytes, ih]

theorem le8_length (v : BitVec 64) : (le8 v).length = 8 := leBytes_length 8 v.toNat

theorem fromLe_leBytes (n v : Nat) : fromLe (leBytes n v) = v % 256 ^ n := by
  induction n generalizing v with
  | zero => simp [leBytes, fromLe, Nat.mod_one]
  | succ n ih =>
    simp only [leBytes, fromLe, ih]
    rw [show (BitVec.ofNat 8 v).toNat = v % 256 from BitVec.toNat_ofNat _ _, Nat.pow_succ, Nat.mul_comm (256 ^ n),
      Nat.mod_mul]

theorem fromLe_lt (bs : List Byte) : fromLe bs < 256 ^ bs.length := by
  induction bs with
  | nil => simp [fromLe]
  | cons b bs ih =>
    simp only [fromLe, List.length_cons, Nat.pow_succ]
    have := b.isLt
    omega

theorem leBytes_fromLe (bs : List Byte) : leBytes bs.length (fromLe bs) = bs := by
  induction bs with
  | nil => rfl
  | cons b bs ih =>
    simp only [List.length_cons, leBytes, fromLe]
    have h := b.isLt
    congr 1
    · apply BitVec.eq_of_toNat_eq
      simp
      omega
    · rw [Nat.add_mul_div_left _ _ (by omega), Nat.div_eq_of_lt (by omega), Nat.zero_add, ih]

theorem word64_le8 (v : BitVec 64) : word64 (le8 v) = v := by
  unfold word64 le8
  rw [fromLe_leBytes]
  apply BitVec.eq_of_toNat_eq
  have := v.isLt
  simp
  omega

theorem le8_word64 {bs : List Byte} (h : bs.length = 8) : le8 (word64 bs) = bs := by
  have hlt := fromLe_lt bs
  have hb := leBytes_fromLe bs
  rw [h] at hlt hb
  unfold word64 le8
  rw [BitVec.toNat_ofNat, Nat.mod_eq_of_lt (by omega)]
  exact hb

/-! ## Operand formats -/

theorem fromLe_pair_lt (lo hi : Byte) : fromLe [lo, hi] < 65536 := by
  have h := fromLe_lt [lo, hi]
  simpa using h

theorem withLength_leBytes (f : Word16 → Instr) (len : Word16) (rest : List Byte) :
    withLength f (leBytes 2 len.toNat ++ rest) = .ok (f len, rest) := by
  have h := len.isLt
  have e := fromLe_leBytes 2 len.toNat
  simp only [leBytes] at e
  have e' : BitVec.ofNat 16 (fromLe [BitVec.ofNat 8 len.toNat, BitVec.ofNat 8 (len.toNat / 256)]) = len := by
    rw [e]
    apply BitVec.eq_of_toNat_eq
    simp
    omega
  show Except.ok (f (BitVec.ofNat 16 (fromLe [BitVec.ofNat 8 len.toNat, BitVec.ofNat 8 (len.toNat / 256)])), rest) = _
  rw [e']

theorem withString_leBytes (f : List Byte → Instr) {bs : List Byte} (rest : List Byte) (h : bs.length < 65536) :
    withString f (leBytes 2 bs.length ++ bs ++ rest) = .ok (f bs, rest) := by
  have e : fromLe [BitVec.ofNat 8 bs.length, BitVec.ofNat 8 (bs.length / 256)] = bs.length := by
    rw [show [BitVec.ofNat 8 bs.length, BitVec.ofNat 8 (bs.length / 256)] = leBytes 2 bs.length from rfl,
      fromLe_leBytes]
    simp
    omega
  rw [show leBytes 2 bs.length = [BitVec.ofNat 8 bs.length, BitVec.ofNat 8 (bs.length / 256)] from rfl]
  simp only [List.cons_append, List.nil_append, withString, e]
  simp

/-! ## Records and packets -/

theorem encodePoint_length (p : Point) : (encodePoint p).length = 16 := by simp [encodePoint, le8_length]

theorem decodePoint_encodePoint (p : Point) (rest : List Byte) : decodePoint (encodePoint p ++ rest) = p := by
  have hx := le8_length p.x
  have hy := le8_length p.y
  unfold decodePoint encodePoint
  rw [List.append_assoc, List.take_append_of_le_length (by omega), List.take_of_length_le (by omega),
    List.drop_append_of_le_length (by omega), List.drop_of_length_le (by omega), List.nil_append,
    List.take_append_of_le_length (by omega), List.take_of_length_le (by omega), word64_le8, word64_le8]

theorem points_length (ps : List Point) : (ps.flatMap encodePoint).length = 16 * ps.length := by
  induction ps with
  | nil => rfl
  | cons p ps ih =>
    simp only [List.flatMap_cons, List.length_append, encodePoint_length, ih, List.length_cons]
    omega

theorem decodePoints_points (ps : List Point) : decodePoints ps.length (ps.flatMap encodePoint) = ps := by
  induction ps with
  | nil => rfl
  | cons p ps ih =>
    have hl := encodePoint_length p
    have hp := decodePoint_encodePoint p []
    rw [List.append_nil] at hp
    simp only [List.length_cons, decodePoints, List.flatMap_cons, shortLen]
    rw [List.drop_append_of_le_length (by omega), List.drop_of_length_le (by omega), List.nil_append, ih,
      List.take_append_of_le_length (by omega), List.take_of_length_le (by omega), hp]

theorem failurePacket_eq (e : MethodError) :
    failurePacket e = encodePoint ⟨sentinelNaN, BitVec.ofNat 64 (errorCode e).toNat⟩ := by
  cases e <;> rfl

theorem decodeRequest_computeRoot (eps : F64) (rest : List Byte) :
    decodeRequest (tagComputeRoot :: (le8 eps ++ rest)) =
      match decodeMode (tagComputeRoot :: (le8 eps ++ rest)) with
      | .ok m => .ok (.computeRoot eps m)
      | .error c => .error c := by
  have hl := le8_length eps
  have e : ((tagComputeRoot :: (le8 eps ++ rest)).drop 1).take 8 = le8 eps := by
    rw [List.drop_succ_cons, List.drop_zero, List.take_append_of_le_length (by omega),
      List.take_of_length_le (by omega)]
  unfold decodeRequest
  rw [e, word64_le8]
  rfl

end Sys2Proof.Laws
end

