-- ==== Sys2Proof/Laws/Ring.lean ====
section
/-! SUPPORT. What the ring-buffer operations do to a well-formed buffer (R150 to R154): sizes, contents, and that every
operation keeps the buffer well formed. -/

namespace Sys2Proof.Laws

open Sys2Proof.Machine Sys2Proof.Safety

theorem ringSize_of_lt {n : Nat} {q : RingBuf} (hb : q.back < n) (h : q.front < q.back) :
    ringSize n q = q.back - q.front - 1 := by
  unfold ringSize
  rw [Int.emod_eq_of_lt (by omega) (by omega)]
  omega

theorem ringSize_of_ge {n : Nat} {q : RingBuf} (hf : q.front < n) (h : q.back ≤ q.front) :
    ringSize n q = n + q.back - q.front - 1 := by
  unfold ringSize
  rw [← Int.add_emod_right, Int.emod_eq_of_lt (by omega) (by omega)]
  omega

theorem ringSize_lt {n : Nat} {q : RingBuf} (hf : q.front < n) (hb : q.back < n) : ringSize n q < n := by
  rcases Nat.lt_or_ge q.front q.back with h | h
  · rw [ringSize_of_lt hb h]; omega
  · rw [ringSize_of_ge hf h]; omega

theorem mod_add_of_lt {n a : Nat} (h : a < n) : a % n = a := Nat.mod_eq_of_lt h

theorem mod_sub_of_ge {n a : Nat} (h : n ≤ a) (h' : a < 2 * n) : a % n = a - n := by
  rw [Nat.mod_eq_sub_mod h, Nat.mod_eq_of_lt (by omega)]

/-- The slot of the j-th element. -/
theorem position_cases {n f j : Nat} (hf : f < n) (hj : j < n) :
    ((f + 1 + j) % n = f + 1 + j ∧ f + 1 + j < n) ∨ ((f + 1 + j) % n = f + 1 + j - n ∧ n ≤ f + 1 + j) := by
  rcases Nat.lt_or_ge (f + 1 + j) n with h | h
  · exact .inl ⟨mod_add_of_lt h, h⟩
  · exact .inr ⟨mod_sub_of_ge h (by omega), h⟩

theorem position_lt {n : Nat} (f j : Nat) (hn : 0 < n) : (f + 1 + j) % n < n := Nat.mod_lt _ hn

/-- The slot after the last element is `back`. -/
theorem position_size {n : Nat} {q : RingBuf} (hf : q.front < n) (hb : q.back < n) :
    (q.front + 1 + ringSize n q) % n = q.back := by
  rcases Nat.lt_or_ge q.front q.back with h | h
  · rw [ringSize_of_lt hb h, mod_add_of_lt (by omega)]; omega
  · rw [ringSize_of_ge hf h, mod_sub_of_ge (by omega) (by omega)]; omega

theorem position_inj {n f i j : Nat} (hf : f < n) (hi : i < n) (hj : j < n)
    (h : (f + 1 + i) % n = (f + 1 + j) % n) : i = j := by
  rcases position_cases hf hi with ⟨a, _⟩ | ⟨a, _⟩ <;> rcases position_cases hf hj with ⟨b, _⟩ | ⟨b, _⟩ <;> omega

/-- A position below the size is neither `back` nor `front`. -/
theorem position_ne_back {n : Nat} {q : RingBuf} (hf : q.front < n) (hb : q.back < n) {j : Nat}
    (hj : j < ringSize n q) : (q.front + 1 + j) % n ≠ q.back := by
  have hs := ringSize_lt hf hb
  intro h
  rw [← position_size hf hb] at h
  exact absurd (position_inj hf (by omega) hs h) (by omega)

theorem mem_occupied {n : Nat} {q : RingBuf} {i : Nat} :
    i ∈ occupied n q ↔ ∃ j, j < ringSize n q ∧ (q.front + 1 + j) % n = i := by
  simp [occupied]

theorem ringFull_iff {n : Nat} {q : RingBuf} (hn : 2 ≤ n) (hf : q.front < n) (hb : q.back < n) :
    ringFull q = true ↔ ringSize n q = n - 1 := by
  simp only [ringFull, beq_iff_eq]
  rcases Nat.lt_or_ge q.front q.back with h | h
  · rw [ringSize_of_lt hb h]; omega
  · rw [ringSize_of_ge hf h]; omega

theorem ringEmpty_iff {n : Nat} {q : RingBuf} (hf : q.front < n) (hb : q.back < n) :
    ringEmpty n q = true ↔ ringSize n q = 0 := by
  simp only [ringEmpty, beq_iff_eq]
  constructor
  · intro h
    by_contra hne
    exact position_ne_back hf hb (j := 0) (by omega) (by simpa using h)
  · intro h
    have := position_size hf hb
    rw [h] at this
    simpa using this

/-! ## Slots -/

theorem slotRead_slotWrite_self {q : RingBuf} {i : Nat} (v : Option Byte) (h : i < q.slot.length) :
    slotRead (slotWrite q i v) i = v := by
  simp [slotRead, slotWrite, List.getD_eq_getElem?_getD, h]

theorem slotRead_slotWrite_ne {q : RingBuf} {i j : Nat} (v : Option Byte) (h : i ≠ j) :
    slotRead (slotWrite q i v) j = slotRead q j := by
  simp [slotRead, slotWrite, List.getD_eq_getElem?_getD, List.getElem?_set_ne h]

theorem slotRead_back_eq (q : RingBuf) (b i : Nat) : slotRead { q with back := b } i = slotRead q i := rfl

theorem slotRead_front_eq (q : RingBuf) (f i : Nat) : slotRead { q with front := f } i = slotRead q i := rfl

/-! ## Contents -/

theorem contents_length {n : Nat} {q : RingBuf} (h : RingWf n q) : (contents n q).length = ringSize n q := by
  have hall : ∀ i ∈ occupied n q, ∃ b, slotRead q i = some b := by
    intro i hi
    have hlt : i < n := by
      obtain ⟨j, _, rfl⟩ := mem_occupied.1 hi
      exact position_lt _ _ (by have := h.2.1; omega)
    exact Option.isSome_iff_exists.1 ((h.2.2.2 i hlt).2 hi)
  have : ∀ l : List Nat, (∀ i ∈ l, ∃ b, slotRead q i = some b) → (l.filterMap (slotRead q)).length = l.length := by
    intro l
    induction l with
    | nil => simp
    | cons a l ih =>
      intro hl
      obtain ⟨b, hb⟩ := hl a (by simp)
      rw [List.filterMap_cons_some hb]
      simp [ih fun i hi => hl i (by simp [hi])]
  rw [contents, this _ hall]
  simp [occupied]

theorem contents_empty_iff {n : Nat} {q : RingBuf} (h : RingWf n q) :
    ringEmpty n q = true ↔ contents n q = [] := by
  rw [ringEmpty_iff h.2.1 h.2.2.1, ← contents_length h, List.length_eq_zero_iff]

/-! ## Push -/

theorem ringPush_full {n : Nat} {q : RingBuf} (v : Byte) (h : ringFull q = true) :
    ringPush n v q = (.bufferFull, q) := by simp [ringPush, h]

theorem ringPush_notFull {n : Nat} {q : RingBuf} (v : Byte) (h : ringFull q = false) :
    ringPush n v q = (.success, { slotWrite q q.back (some v) with back := (q.back + 1) % n }) := by
  simp [ringPush, h]

theorem ringSize_pushed {n : Nat} {q : RingBuf} (v : Byte) (h : RingWf n q) (hf : ringFull q = false) :
    ringSize n { slotWrite q q.back (some v) with back := (q.back + 1) % n } = ringSize n q + 1 := by
  obtain ⟨_, h1, h2, _⟩ := h
  have hne : q.front ≠ q.back := by simpa [ringFull] using hf
  rcases Nat.lt_or_ge q.front q.back with hlt | hge
  · rw [ringSize_of_lt h2 hlt]
    rcases Nat.lt_or_ge (q.back + 1) n with hb | hb
    · rw [mod_add_of_lt hb, ringSize_of_lt (by simpa using hb) (by simp [slotWrite]; omega)]
      simp [slotWrite]; omega
    · rw [mod_sub_of_ge hb (by omega), ringSize_of_ge (by simpa [slotWrite] using h1) (by simp [slotWrite]; omega)]
      simp [slotWrite]; omega
  · rw [ringSize_of_ge h1 hge, mod_add_of_lt (by omega)]
    rw [ringSize_of_ge (by simpa [slotWrite] using h1) (by simp [slotWrite]; omega)]
    simp [slotWrite]; omega

theorem occupied_pushed {n : Nat} {q : RingBuf} (v : Byte) (h : RingWf n q) (hf : ringFull q = false) :
    occupied n { slotWrite q q.back (some v) with back := (q.back + 1) % n } = occupied n q ++ [q.back] := by
  have hs := ringSize_pushed v h hf
  unfold occupied
  rw [hs, List.range_succ]
  simp [slotWrite, position_size h.2.1 h.2.2.1]

theorem slotRead_pushed {n : Nat} {q : RingBuf} (v : Byte) (h : RingWf n q) (i : Nat) :
    slotRead { slotWrite q q.back (some v) with back := (q.back + 1) % n } i =
      if i = q.back then some v else slotRead q i := by
  rw [slotRead_back_eq]
  split
  · next hi => subst hi; exact slotRead_slotWrite_self _ (by rw [h.1]; exact h.2.2.1)
  · next hi => exact slotRead_slotWrite_ne _ (fun e => hi e.symm)

theorem back_not_occupied {n : Nat} {q : RingBuf} (h : RingWf n q) : q.back ∉ occupied n q := by
  intro hm
  obtain ⟨j, hj, he⟩ := mem_occupied.1 hm
  exact position_ne_back h.2.1 h.2.2.1 hj he

theorem contents_pushed {n : Nat} {q : RingBuf} (v : Byte) (h : RingWf n q) (hf : ringFull q = false) :
    contents n { slotWrite q q.back (some v) with back := (q.back + 1) % n } = contents n q ++ [v] := by
  unfold contents
  rw [occupied_pushed v h hf, List.filterMap_append]
  congr 1
  · apply List.filterMap_congr
    intro i hi
    rw [slotRead_pushed v h]
    split
    · next e => subst e; exact absurd hi (back_not_occupied h)
    · rfl
  · simp [slotRead_pushed v h]

theorem wf_pushed {n : Nat} {q : RingBuf} (v : Byte) (h : RingWf n q) (hf : ringFull q = false) :
    RingWf n { slotWrite q q.back (some v) with back := (q.back + 1) % n } := by
  refine ⟨by simp [slotWrite, h.1], by simpa [slotWrite] using h.2.1, Nat.mod_lt _ (by have := h.2.1; omega), ?_⟩
  intro i hi
  rw [slotRead_pushed v h, occupied_pushed v h hf]
  split
  · next e => simp [e]
  · next e => simp [e, h.2.2.2 i hi]

/-- A push (R153): on a full buffer nothing changes, else the element is appended. -/
theorem ringPush_spec {n : Nat} {q : RingBuf} (v : Byte) (h : RingWf n q) :
    (ringFull q = true ∧ ringPush n v q = (.bufferFull, q)) ∨
    (ringFull q = false ∧ ∃ q', ringPush n v q = (.success, q') ∧ Appended n q [v] q') := by
  cases hf : ringFull q
  · refine .inr ⟨rfl, _, ringPush_notFull v hf, wf_pushed v h hf, rfl, rfl, contents_pushed v h hf, ?_⟩
    intro i hi
    rw [slotRead_pushed v h, if_neg]
    have := hi 0 (by simp)
    rwa [Nat.add_zero, Nat.mod_eq_of_lt h.2.2.1] at this
  · exact .inl ⟨rfl, ringPush_full v hf⟩

/-! ## Pop -/

theorem ringPop_empty {n : Nat} {q : RingBuf} (h : ringEmpty n q = true) : ringPop n q = (none, q) := by
  simp [ringPop, h]

/-- The buffer after a pop. -/
theorem ringPop_notEmpty {n : Nat} {q : RingBuf} (h : ringEmpty n q = false) :
    ringPop n q = (slotRead q ((q.front + 1) % n),
      { slotWrite q ((q.front + 1) % n) none with front := (q.front + 1) % n }) := by
  simp [ringPop, h]

theorem ringSize_popped {n : Nat} {q : RingBuf} (h : RingWf n q) (he : ringEmpty n q = false) :
    ringSize n { slotWrite q ((q.front + 1) % n) none with front := (q.front + 1) % n } + 1 = ringSize n q := by
  obtain ⟨_, h1, h2, _⟩ := h
  have hne : (q.front + 1) % n ≠ q.back := by simpa [ringEmpty] using he
  rcases Nat.lt_or_ge (q.front + 1) n with hf | hf
  · rw [mod_add_of_lt hf] at hne ⊢
    rcases Nat.lt_or_ge q.front q.back with hlt | hge
    · rw [ringSize_of_lt h2 hlt, ringSize_of_lt (by simpa [slotWrite] using h2) (by simp [slotWrite]; omega)]
      simp [slotWrite]; omega
    · rw [ringSize_of_ge h1 hge, ringSize_of_ge (by simpa using hf) (by simp [slotWrite]; omega)]
      simp [slotWrite]; omega
  · rw [mod_sub_of_ge hf (by omega)] at hne ⊢
    rw [ringSize_of_ge h1 (by omega), ringSize_of_lt (by simpa [slotWrite] using h2) (by simp [slotWrite]; omega)]
    simp [slotWrite]; omega

theorem position_shift {n f j : Nat} (_hf : f < n) : ((f + 1) % n + 1 + j) % n = (f + 1 + (j + 1)) % n := by
  rw [Nat.add_assoc, Nat.mod_add_mod]
  congr 1
  omega

theorem occupied_popped {n : Nat} {q : RingBuf} (h : RingWf n q) (he : ringEmpty n q = false) :
    occupied n q = (q.front + 1) % n ::
      occupied n { slotWrite q ((q.front + 1) % n) none with front := (q.front + 1) % n } := by
  have hs := ringSize_popped h he
  unfold occupied
  rw [← hs, List.range_succ_eq_map, List.map_cons, List.map_map]
  congr 1
  apply List.map_congr_left
  intro j _
  simpa [slotWrite] using (position_shift h.2.1 (j := j)).symm

theorem front_not_occupied_popped {n : Nat} {q : RingBuf} (h : RingWf n q) (he : ringEmpty n q = false) :
    (q.front + 1) % n ∉
      occupied n { slotWrite q ((q.front + 1) % n) none with front := (q.front + 1) % n } := by
  have hs := ringSize_popped h he
  have hlt := ringSize_lt h.2.1 h.2.2.1
  intro hm
  obtain ⟨j, hj, e⟩ := mem_occupied.1 hm
  have e' : (q.front + 1 + (j + 1)) % n = (q.front + 1 + 0) % n := by
    rw [← position_shift h.2.1]
    simpa [slotWrite] using e
  have := position_inj h.2.1 (by omega) (by omega) e'
  omega

theorem slotRead_popped {n : Nat} {q : RingBuf} (h : RingWf n q) (i : Nat) :
    slotRead { slotWrite q ((q.front + 1) % n) none with front := (q.front + 1) % n } i =
      if i = (q.front + 1) % n then none else slotRead q i := by
  rw [slotRead_front_eq]
  split
  · next hi =>
    subst hi
    exact slotRead_slotWrite_self _ (by rw [h.1]; exact Nat.mod_lt _ (by have := h.2.1; omega))
  · next hi => exact slotRead_slotWrite_ne _ (fun e => hi e.symm)

theorem wf_popped {n : Nat} {q : RingBuf} (h : RingWf n q) (he : ringEmpty n q = false) :
    RingWf n { slotWrite q ((q.front + 1) % n) none with front := (q.front + 1) % n } := by
  refine ⟨by simp [slotWrite, h.1], Nat.mod_lt _ (by have := h.2.1; omega), by simpa [slotWrite] using h.2.2.1, ?_⟩
  intro i hi
  rw [slotRead_popped h]
  have hmem := h.2.2.2 i hi
  rw [occupied_popped h he, List.mem_cons] at hmem
  split
  · next e =>
    subst e
    simpa using front_not_occupied_popped h he
  · next e => simpa [e] using hmem

theorem oldest_isSome {n : Nat} {q : RingBuf} (h : RingWf n q) (he : ringEmpty n q = false) :
    ∃ b, slotRead q ((q.front + 1) % n) = some b := by
  have hi : (q.front + 1) % n < n := Nat.mod_lt _ (by have := h.2.1; omega)
  exact Option.isSome_iff_exists.1 ((h.2.2.2 _ hi).2 (by rw [occupied_popped h he]; simp))

theorem contents_popped {n : Nat} {q : RingBuf} (h : RingWf n q) (he : ringEmpty n q = false) {b : Byte}
    (hb : slotRead q ((q.front + 1) % n) = some b) :
    contents n q = b ::
      contents n { slotWrite q ((q.front + 1) % n) none with front := (q.front + 1) % n } := by
  unfold contents
  rw [occupied_popped h he, List.filterMap_cons_some hb]
  congr 1
  apply List.filterMap_congr
  intro i hi
  rw [slotRead_popped h]
  split
  · next e => subst e; exact absurd hi (front_not_occupied_popped h he)
  · rfl

/-- A pop (R154): nothing from an empty buffer, else the oldest element. -/
theorem ringPop_spec {n : Nat} {q : RingBuf} (h : RingWf n q) :
    (contents n q = [] ∧ ringPop n q = (none, q)) ∨
    (∃ b q', contents n q = b :: contents n q' ∧ ringPop n q = (some b, q') ∧ Removed n q [b] q') := by
  cases he : ringEmpty n q
  · obtain ⟨b, hb⟩ := oldest_isSome h he
    have hc := contents_popped h he hb
    refine .inr ⟨b, _, hc, by rw [ringPop_notEmpty he, hb], wf_popped h he, rfl, rfl, hc, ?_⟩
    intro i hi
    rw [slotRead_popped h, if_neg]
    exact hi 0 (by simp)
  · exact .inl ⟨(contents_empty_iff h).1 he, ringPop_empty he⟩

/-! ## Several elements -/

theorem appended_refl {n : Nat} {q : RingBuf} (h : RingWf n q) : Appended n q [] q :=
  ⟨h, rfl, by simp [Nat.mod_eq_of_lt h.2.2.1], by simp, fun _ _ => rfl⟩

theorem appended_trans {n : Nat} {q q' q'' : RingBuf} {as bs : List Byte} (h : Appended n q as q')
    (h' : Appended n q' bs q'') : Appended n q (as ++ bs) q'' := by
  obtain ⟨_, f, b, c, k⟩ := h
  obtain ⟨w', f', b', c', k'⟩ := h'
  refine ⟨w', by rw [f', f], by rw [b', b]; simp [Nat.add_assoc], by rw [c', c]; simp, ?_⟩
  intro i hi
  rw [k' i, k i]
  · intro j hj
    exact hi j (by simp; omega)
  · intro j hj
    rw [b]
    have := hi (as.length + j) (by simp; omega)
    simpa [Nat.add_assoc] using this

theorem removed_refl {n : Nat} {q : RingBuf} (h : RingWf n q) : Removed n q [] q :=
  ⟨h, by simp [Nat.mod_eq_of_lt h.2.1], rfl, by simp, fun _ _ => rfl⟩

theorem removed_trans {n : Nat} {q q' q'' : RingBuf} {as bs : List Byte} (h : Removed n q as q')
    (h' : Removed n q' bs q'') : Removed n q (as ++ bs) q'' := by
  obtain ⟨_, f, b, c, k⟩ := h
  obtain ⟨w', f', b', c', k'⟩ := h'
  refine ⟨w', by rw [f', f]; simp [Nat.add_assoc], by rw [b', b], by rw [c, c']; simp, ?_⟩
  intro i hi
  rw [k' i, k i]
  · intro j hj
    exact hi j (by simp; omega)
  · intro j hj
    rw [f]
    have := hi (as.length + j) (by simp; omega)
    rw [Nat.add_assoc, Nat.mod_add_mod]
    have e : q.front + as.length + (1 + j) = q.front + 1 + (as.length + j) := by omega
    rw [e]
    exact this

/-- Pushing a string that fits (R192): its bytes are appended in order. -/
theorem ringPushAll_spec {n : Nat} (bs : List Byte) {q : RingBuf} (hn : 2 ≤ n) (h : RingWf n q)
    (hfit : ringSize n q + bs.length ≤ n - 1) : Appended n q bs (ringPushAll n bs q) := by
  induction bs generalizing q with
  | nil => exact appended_refl h
  | cons b bs ih =>
    have hlen : (b :: bs).length = bs.length + 1 := rfl
    rcases ringPush_spec b h with ⟨hf, _⟩ | ⟨_, q', hp, ha⟩
    · have := (ringFull_iff hn h.2.1 h.2.2.1).1 hf
      omega
    · simp only [ringPushAll, hp]
      have hs : ringSize n q' = ringSize n q + 1 := by
        rw [← contents_length ha.1, ← contents_length h, ha.2.2.2.1]
        simp
      exact appended_trans ha (ih ha.1 (by omega))

/-- Popping no more than there is (R196): the oldest bytes in order. -/
theorem ringPopMany_spec {n : Nat} (len : Nat) {q : RingBuf} (h : RingWf n q)
    (hfit : len ≤ (contents n q).length) :
    (ringPopMany n len q).1 = (contents n q).take len ∧
      Removed n q ((contents n q).take len) (ringPopMany n len q).2 := by
  induction len generalizing q with
  | zero => exact ⟨by simp [ringPopMany], by simpa [ringPopMany] using removed_refl h⟩
  | succ len ih =>
    rcases ringPop_spec h with ⟨he, _⟩ | ⟨b, q', hc, hp, hr⟩
    · simp [he] at hfit
    · rw [hc] at hfit
      obtain ⟨a, w⟩ := ih hr.1 (by simpa using hfit)
      refine ⟨by simp [ringPopMany, hp, a, hc], ?_⟩
      have hw := removed_trans hr w
      simp only [ringPopMany, hp, hc, List.take_succ_cons]
      exact hw

theorem removed_contents {n : Nat} {q q' : RingBuf} {bs : List Byte} (h : Removed n q bs q') :
    contents n q' = (contents n q).drop bs.length := by
  rw [h.2.2.2.1]
  simp

/-- The empty buffer is well formed and holds nothing (R37). -/
theorem emptyRing_wf {n : Nat} (hn : 2 ≤ n) : RingWf n (emptyRing n) ∧ contents n (emptyRing n) = [] := by
  have hs : ringSize n (emptyRing n) = 0 := by
    rw [ringSize_of_lt (by simp [emptyRing]; omega) (by simp [emptyRing])]; simp [emptyRing]
  have hw : RingWf n (emptyRing n) := by
    refine ⟨by simp [emptyRing], by simp [emptyRing]; omega, by simp [emptyRing]; omega, ?_⟩
    intro i hi
    have ho : occupied n (emptyRing n) = [] := by simp [occupied, hs]
    rw [ho]
    simp [slotRead, emptyRing, List.getD_eq_getElem?_getD, hi]
  refine ⟨hw, ?_⟩
  rw [← List.length_eq_zero_iff, contents_length hw, hs]

end Sys2Proof.Laws
end

