-- ==== Sys2Proof/Laws/State.lean ====
section
/-! SUPPORT. The small lemmas of the named updates of State: one per field and update, so that no proof unfolds them. -/

namespace Sys2Proof.Laws

open Sys2Proof.Machine

/-! ## endWith -/

section
variable (r : OpResult) (s : State)
@[simp] theorem endWith_cfg : (endWith r s).cfg = s.cfg := rfl
@[simp] theorem endWith_booted : (endWith r s).booted = s.booted := rfl
@[simp] theorem endWith_gie : (endWith r s).gie = s.gie := rfl
@[simp] theorem endWith_fault : (endWith r s).fault = s.fault := rfl
@[simp] theorem endWith_refused : (endWith r s).refused = s.refused := rfl
@[simp] theorem endWith_refusals : (endWith r s).refusals = s.refusals := rfl
@[simp] theorem endWith_rxq : (endWith r s).rxq = s.rxq := rfl
@[simp] theorem endWith_txq : (endWith r s).txq = s.txq := rfl
@[simp] theorem endWith_txState : (endWith r s).txState = s.txState := rfl
@[simp] theorem endWith_udrie : (endWith r s).udrie = s.udrie := rfl
@[simp] theorem endWith_txDr : (endWith r s).txDr = s.txDr := rfl
@[simp] theorem endWith_udre : (endWith r s).udre = s.udre := rfl
@[simp] theorem endWith_rxDr : (endWith r s).rxDr = s.rxDr := rfl
@[simp] theorem endWith_rxc : (endWith r s).rxc = s.rxc := rfl
@[simp] theorem endWith_dor : (endWith r s).dor = s.dor := rfl
@[simp] theorem endWith_rxcie : (endWith r s).rxcie = s.rxcie := rfl
@[simp] theorem endWith_txLine : (endWith r s).txLine = s.txLine := rfl
@[simp] theorem endWith_hostRx : (endWith r s).hostRx = s.hostRx := rfl
@[simp] theorem endWith_hostRxPos : (endWith r s).hostRxPos = s.hostRxPos := rfl
@[simp] theorem endWith_btn : (endWith r s).btn = s.btn := rfl
@[simp] theorem endWith_pin : (endWith r s).pin = s.pin := rfl
@[simp] theorem endWith_pcie : (endWith r s).pcie = s.pcie := rfl
@[simp] theorem endWith_pcif : (endWith r s).pcif = s.pcif := rfl
@[simp] theorem endWith_tmr : (endWith r s).tmr = s.tmr := rfl
@[simp] theorem endWith_press : (endWith r s).press = s.press := rfl
@[simp] theorem endWith_phase : (endWith r s).phase = s.phase := rfl
@[simp] theorem endWith_idx : (endWith r s).idx = s.idx := rfl
@[simp] theorem endWith_hsWin : (endWith r s).hsWin = s.hsWin := rfl
@[simp] theorem endWith_req : (endWith r s).req = s.req := rfl
@[simp] theorem endWith_pass : (endWith r s).pass = s.pass := rfl
@[simp] theorem endWith_k : (endWith r s).k = s.k := rfl
@[simp] theorem endWith_out : (endWith r s).out = s.out := rfl
@[simp] theorem endWith_sel : (endWith r s).sel = s.sel := rfl
@[simp] theorem endWith_port : (endWith r s).port = s.port := rfl
@[simp] theorem endWith_issuer : (endWith r s).issuer = s.issuer := rfl
@[simp] theorem endWith_result : (endWith r s).result = some r := rfl
@[simp] theorem endWith_tokens : (endWith r s).tokens = s.tokens := rfl
@[simp] theorem endWith_turns : (endWith r s).turns = s.turns := rfl
@[simp] theorem endWith_turnNo : (endWith r s).turnNo = s.turnNo := rfl
@[simp] theorem endWith_approxAnswers : (endWith r s).approxAnswers = s.approxAnswers := rfl
@[simp] theorem endWith_pointAnswers : (endWith r s).pointAnswers = s.pointAnswers := rfl
@[simp] theorem endWith_rootAnswers : (endWith r s).rootAnswers = s.rootAnswers := rfl
@[simp] theorem endWith_draws : (endWith r s).draws = s.draws := rfl
@[simp] theorem endWith_calls : (endWith r s).calls = s.calls := rfl
end

/-! ## raise -/

section
variable (c : FaultCode) (s : State)
@[simp] theorem raise_cfg : (raise c s).cfg = s.cfg := rfl
@[simp] theorem raise_booted : (raise c s).booted = s.booted := rfl
@[simp] theorem raise_gie : (raise c s).gie = s.gie := rfl
@[simp] theorem raise_fault : (raise c s).fault = some c := rfl
@[simp] theorem raise_refused : (raise c s).refused = s.refused := rfl
@[simp] theorem raise_refusals : (raise c s).refusals = s.refusals := rfl
@[simp] theorem raise_rxq : (raise c s).rxq = s.rxq := rfl
@[simp] theorem raise_txq : (raise c s).txq = s.txq := rfl
@[simp] theorem raise_txState : (raise c s).txState = s.txState := rfl
@[simp] theorem raise_udrie : (raise c s).udrie = s.udrie := rfl
@[simp] theorem raise_txDr : (raise c s).txDr = s.txDr := rfl
@[simp] theorem raise_udre : (raise c s).udre = s.udre := rfl
@[simp] theorem raise_rxDr : (raise c s).rxDr = s.rxDr := rfl
@[simp] theorem raise_rxc : (raise c s).rxc = s.rxc := rfl
@[simp] theorem raise_dor : (raise c s).dor = s.dor := rfl
@[simp] theorem raise_rxcie : (raise c s).rxcie = s.rxcie := rfl
@[simp] theorem raise_txLine : (raise c s).txLine = s.txLine := rfl
@[simp] theorem raise_hostRx : (raise c s).hostRx = s.hostRx := rfl
@[simp] theorem raise_hostRxPos : (raise c s).hostRxPos = s.hostRxPos := rfl
@[simp] theorem raise_btn : (raise c s).btn = s.btn := rfl
@[simp] theorem raise_pin : (raise c s).pin = s.pin := rfl
@[simp] theorem raise_pcie : (raise c s).pcie = s.pcie := rfl
@[simp] theorem raise_pcif : (raise c s).pcif = s.pcif := rfl
@[simp] theorem raise_tmr : (raise c s).tmr = s.tmr := rfl
@[simp] theorem raise_press : (raise c s).press = s.press := rfl
@[simp] theorem raise_phase : (raise c s).phase = s.phase := rfl
@[simp] theorem raise_idx : (raise c s).idx = s.idx := rfl
@[simp] theorem raise_hsWin : (raise c s).hsWin = s.hsWin := rfl
@[simp] theorem raise_req : (raise c s).req = s.req := rfl
@[simp] theorem raise_pass : (raise c s).pass = s.pass := rfl
@[simp] theorem raise_k : (raise c s).k = s.k := rfl
@[simp] theorem raise_out : (raise c s).out = s.out := rfl
@[simp] theorem raise_sel : (raise c s).sel = s.sel := rfl
@[simp] theorem raise_port : (raise c s).port = s.port := rfl
@[simp] theorem raise_issuer : (raise c s).issuer = s.issuer := rfl
@[simp] theorem raise_result : (raise c s).result = s.result := rfl
@[simp] theorem raise_tokens : (raise c s).tokens = s.tokens := rfl
@[simp] theorem raise_turns : (raise c s).turns = s.turns := rfl
@[simp] theorem raise_turnNo : (raise c s).turnNo = s.turnNo := rfl
@[simp] theorem raise_approxAnswers : (raise c s).approxAnswers = s.approxAnswers := rfl
@[simp] theorem raise_pointAnswers : (raise c s).pointAnswers = s.pointAnswers := rfl
@[simp] theorem raise_rootAnswers : (raise c s).rootAnswers = s.rootAnswers := rfl
@[simp] theorem raise_draws : (raise c s).draws = s.draws := rfl
@[simp] theorem raise_calls : (raise c s).calls = s.calls := rfl
end

/-! ## refuse -/

section
variable (r : RefuseReason) (s : State)
@[simp] theorem refuse_cfg : (refuse r s).cfg = s.cfg := rfl
@[simp] theorem refuse_booted : (refuse r s).booted = s.booted := rfl
@[simp] theorem refuse_gie : (refuse r s).gie = s.gie := rfl
@[simp] theorem refuse_fault : (refuse r s).fault = s.fault := rfl
@[simp] theorem refuse_refused : (refuse r s).refused = true := rfl
@[simp] theorem refuse_refusals : (refuse r s).refusals = s.refusals ++ [(s.issuer, r)] := rfl
@[simp] theorem refuse_rxq : (refuse r s).rxq = s.rxq := rfl
@[simp] theorem refuse_txq : (refuse r s).txq = s.txq := rfl
@[simp] theorem refuse_txState : (refuse r s).txState = s.txState := rfl
@[simp] theorem refuse_udrie : (refuse r s).udrie = s.udrie := rfl
@[simp] theorem refuse_txDr : (refuse r s).txDr = s.txDr := rfl
@[simp] theorem refuse_udre : (refuse r s).udre = s.udre := rfl
@[simp] theorem refuse_rxDr : (refuse r s).rxDr = s.rxDr := rfl
@[simp] theorem refuse_rxc : (refuse r s).rxc = s.rxc := rfl
@[simp] theorem refuse_dor : (refuse r s).dor = s.dor := rfl
@[simp] theorem refuse_rxcie : (refuse r s).rxcie = s.rxcie := rfl
@[simp] theorem refuse_txLine : (refuse r s).txLine = s.txLine := rfl
@[simp] theorem refuse_hostRx : (refuse r s).hostRx = s.hostRx := rfl
@[simp] theorem refuse_hostRxPos : (refuse r s).hostRxPos = s.hostRxPos := rfl
@[simp] theorem refuse_btn : (refuse r s).btn = s.btn := rfl
@[simp] theorem refuse_pin : (refuse r s).pin = s.pin := rfl
@[simp] theorem refuse_pcie : (refuse r s).pcie = s.pcie := rfl
@[simp] theorem refuse_pcif : (refuse r s).pcif = s.pcif := rfl
@[simp] theorem refuse_tmr : (refuse r s).tmr = s.tmr := rfl
@[simp] theorem refuse_press : (refuse r s).press = s.press := rfl
@[simp] theorem refuse_phase : (refuse r s).phase = s.phase := rfl
@[simp] theorem refuse_idx : (refuse r s).idx = s.idx := rfl
@[simp] theorem refuse_hsWin : (refuse r s).hsWin = s.hsWin := rfl
@[simp] theorem refuse_req : (refuse r s).req = s.req := rfl
@[simp] theorem refuse_pass : (refuse r s).pass = s.pass := rfl
@[simp] theorem refuse_k : (refuse r s).k = s.k := rfl
@[simp] theorem refuse_out : (refuse r s).out = s.out := rfl
@[simp] theorem refuse_sel : (refuse r s).sel = s.sel := rfl
@[simp] theorem refuse_port : (refuse r s).port = s.port := rfl
@[simp] theorem refuse_issuer : (refuse r s).issuer = s.issuer := rfl
@[simp] theorem refuse_result : (refuse r s).result = s.result := rfl
@[simp] theorem refuse_tokens : (refuse r s).tokens = s.tokens := rfl
@[simp] theorem refuse_turns : (refuse r s).turns = s.turns := rfl
@[simp] theorem refuse_turnNo : (refuse r s).turnNo = s.turnNo := rfl
@[simp] theorem refuse_approxAnswers : (refuse r s).approxAnswers = s.approxAnswers := rfl
@[simp] theorem refuse_pointAnswers : (refuse r s).pointAnswers = s.pointAnswers := rfl
@[simp] theorem refuse_rootAnswers : (refuse r s).rootAnswers = s.rootAnswers := rfl
@[simp] theorem refuse_draws : (refuse r s).draws = s.draws := rfl
@[simp] theorem refuse_calls : (refuse r s).calls = s.calls := rfl
end

/-! ## setGie -/

section
variable (b : Bool) (s : State)
@[simp] theorem setGie_cfg : (setGie b s).cfg = s.cfg := rfl
@[simp] theorem setGie_booted : (setGie b s).booted = s.booted := rfl
@[simp] theorem setGie_gie : (setGie b s).gie = b := rfl
@[simp] theorem setGie_fault : (setGie b s).fault = s.fault := rfl
@[simp] theorem setGie_refused : (setGie b s).refused = s.refused := rfl
@[simp] theorem setGie_refusals : (setGie b s).refusals = s.refusals := rfl
@[simp] theorem setGie_rxq : (setGie b s).rxq = s.rxq := rfl
@[simp] theorem setGie_txq : (setGie b s).txq = s.txq := rfl
@[simp] theorem setGie_txState : (setGie b s).txState = s.txState := rfl
@[simp] theorem setGie_udrie : (setGie b s).udrie = s.udrie := rfl
@[simp] theorem setGie_txDr : (setGie b s).txDr = s.txDr := rfl
@[simp] theorem setGie_udre : (setGie b s).udre = s.udre := rfl
@[simp] theorem setGie_rxDr : (setGie b s).rxDr = s.rxDr := rfl
@[simp] theorem setGie_rxc : (setGie b s).rxc = s.rxc := rfl
@[simp] theorem setGie_dor : (setGie b s).dor = s.dor := rfl
@[simp] theorem setGie_rxcie : (setGie b s).rxcie = s.rxcie := rfl
@[simp] theorem setGie_txLine : (setGie b s).txLine = s.txLine := rfl
@[simp] theorem setGie_hostRx : (setGie b s).hostRx = s.hostRx := rfl
@[simp] theorem setGie_hostRxPos : (setGie b s).hostRxPos = s.hostRxPos := rfl
@[simp] theorem setGie_btn : (setGie b s).btn = s.btn := rfl
@[simp] theorem setGie_pin : (setGie b s).pin = s.pin := rfl
@[simp] theorem setGie_pcie : (setGie b s).pcie = s.pcie := rfl
@[simp] theorem setGie_pcif : (setGie b s).pcif = s.pcif := rfl
@[simp] theorem setGie_tmr : (setGie b s).tmr = s.tmr := rfl
@[simp] theorem setGie_press : (setGie b s).press = s.press := rfl
@[simp] theorem setGie_phase : (setGie b s).phase = s.phase := rfl
@[simp] theorem setGie_idx : (setGie b s).idx = s.idx := rfl
@[simp] theorem setGie_hsWin : (setGie b s).hsWin = s.hsWin := rfl
@[simp] theorem setGie_req : (setGie b s).req = s.req := rfl
@[simp] theorem setGie_pass : (setGie b s).pass = s.pass := rfl
@[simp] theorem setGie_k : (setGie b s).k = s.k := rfl
@[simp] theorem setGie_out : (setGie b s).out = s.out := rfl
@[simp] theorem setGie_sel : (setGie b s).sel = s.sel := rfl
@[simp] theorem setGie_port : (setGie b s).port = s.port := rfl
@[simp] theorem setGie_issuer : (setGie b s).issuer = s.issuer := rfl
@[simp] theorem setGie_result : (setGie b s).result = s.result := rfl
@[simp] theorem setGie_tokens : (setGie b s).tokens = s.tokens := rfl
@[simp] theorem setGie_turns : (setGie b s).turns = s.turns := rfl
@[simp] theorem setGie_turnNo : (setGie b s).turnNo = s.turnNo := rfl
@[simp] theorem setGie_approxAnswers : (setGie b s).approxAnswers = s.approxAnswers := rfl
@[simp] theorem setGie_pointAnswers : (setGie b s).pointAnswers = s.pointAnswers := rfl
@[simp] theorem setGie_rootAnswers : (setGie b s).rootAnswers = s.rootAnswers := rfl
@[simp] theorem setGie_draws : (setGie b s).draws = s.draws := rfl
@[simp] theorem setGie_calls : (setGie b s).calls = s.calls := rfl
end

/-! ## setPhase -/

section
variable (p : Phase) (s : State)
@[simp] theorem setPhase_cfg : (setPhase p s).cfg = s.cfg := rfl
@[simp] theorem setPhase_booted : (setPhase p s).booted = s.booted := rfl
@[simp] theorem setPhase_gie : (setPhase p s).gie = s.gie := rfl
@[simp] theorem setPhase_fault : (setPhase p s).fault = s.fault := rfl
@[simp] theorem setPhase_refused : (setPhase p s).refused = s.refused := rfl
@[simp] theorem setPhase_refusals : (setPhase p s).refusals = s.refusals := rfl
@[simp] theorem setPhase_rxq : (setPhase p s).rxq = s.rxq := rfl
@[simp] theorem setPhase_txq : (setPhase p s).txq = s.txq := rfl
@[simp] theorem setPhase_txState : (setPhase p s).txState = s.txState := rfl
@[simp] theorem setPhase_udrie : (setPhase p s).udrie = s.udrie := rfl
@[simp] theorem setPhase_txDr : (setPhase p s).txDr = s.txDr := rfl
@[simp] theorem setPhase_udre : (setPhase p s).udre = s.udre := rfl
@[simp] theorem setPhase_rxDr : (setPhase p s).rxDr = s.rxDr := rfl
@[simp] theorem setPhase_rxc : (setPhase p s).rxc = s.rxc := rfl
@[simp] theorem setPhase_dor : (setPhase p s).dor = s.dor := rfl
@[simp] theorem setPhase_rxcie : (setPhase p s).rxcie = s.rxcie := rfl
@[simp] theorem setPhase_txLine : (setPhase p s).txLine = s.txLine := rfl
@[simp] theorem setPhase_hostRx : (setPhase p s).hostRx = s.hostRx := rfl
@[simp] theorem setPhase_hostRxPos : (setPhase p s).hostRxPos = s.hostRxPos := rfl
@[simp] theorem setPhase_btn : (setPhase p s).btn = s.btn := rfl
@[simp] theorem setPhase_pin : (setPhase p s).pin = s.pin := rfl
@[simp] theorem setPhase_pcie : (setPhase p s).pcie = s.pcie := rfl
@[simp] theorem setPhase_pcif : (setPhase p s).pcif = s.pcif := rfl
@[simp] theorem setPhase_tmr : (setPhase p s).tmr = s.tmr := rfl
@[simp] theorem setPhase_press : (setPhase p s).press = s.press := rfl
@[simp] theorem setPhase_phase : (setPhase p s).phase = p := rfl
@[simp] theorem setPhase_idx : (setPhase p s).idx = s.idx := rfl
@[simp] theorem setPhase_hsWin : (setPhase p s).hsWin = s.hsWin := rfl
@[simp] theorem setPhase_req : (setPhase p s).req = s.req := rfl
@[simp] theorem setPhase_pass : (setPhase p s).pass = s.pass := rfl
@[simp] theorem setPhase_k : (setPhase p s).k = s.k := rfl
@[simp] theorem setPhase_out : (setPhase p s).out = s.out := rfl
@[simp] theorem setPhase_sel : (setPhase p s).sel = s.sel := rfl
@[simp] theorem setPhase_port : (setPhase p s).port = s.port := rfl
@[simp] theorem setPhase_issuer : (setPhase p s).issuer = s.issuer := rfl
@[simp] theorem setPhase_result : (setPhase p s).result = s.result := rfl
@[simp] theorem setPhase_tokens : (setPhase p s).tokens = s.tokens := rfl
@[simp] theorem setPhase_turns : (setPhase p s).turns = s.turns := rfl
@[simp] theorem setPhase_turnNo : (setPhase p s).turnNo = s.turnNo := rfl
@[simp] theorem setPhase_approxAnswers : (setPhase p s).approxAnswers = s.approxAnswers := rfl
@[simp] theorem setPhase_pointAnswers : (setPhase p s).pointAnswers = s.pointAnswers := rfl
@[simp] theorem setPhase_rootAnswers : (setPhase p s).rootAnswers = s.rootAnswers := rfl
@[simp] theorem setPhase_draws : (setPhase p s).draws = s.draws := rfl
@[simp] theorem setPhase_calls : (setPhase p s).calls = s.calls := rfl
end

/-! ## takeTurn -/

section
variable (s : State)
@[simp] theorem takeTurn_cfg : (takeTurn s).cfg = s.cfg := rfl
@[simp] theorem takeTurn_booted : (takeTurn s).booted = s.booted := rfl
@[simp] theorem takeTurn_gie : (takeTurn s).gie = s.gie := rfl
@[simp] theorem takeTurn_fault : (takeTurn s).fault = s.fault := rfl
@[simp] theorem takeTurn_refused : (takeTurn s).refused = s.refused := rfl
@[simp] theorem takeTurn_refusals : (takeTurn s).refusals = s.refusals := rfl
@[simp] theorem takeTurn_rxq : (takeTurn s).rxq = s.rxq := rfl
@[simp] theorem takeTurn_txq : (takeTurn s).txq = s.txq := rfl
@[simp] theorem takeTurn_txState : (takeTurn s).txState = s.txState := rfl
@[simp] theorem takeTurn_udrie : (takeTurn s).udrie = s.udrie := rfl
@[simp] theorem takeTurn_txDr : (takeTurn s).txDr = s.txDr := rfl
@[simp] theorem takeTurn_udre : (takeTurn s).udre = s.udre := rfl
@[simp] theorem takeTurn_rxDr : (takeTurn s).rxDr = s.rxDr := rfl
@[simp] theorem takeTurn_rxc : (takeTurn s).rxc = s.rxc := rfl
@[simp] theorem takeTurn_dor : (takeTurn s).dor = s.dor := rfl
@[simp] theorem takeTurn_rxcie : (takeTurn s).rxcie = s.rxcie := rfl
@[simp] theorem takeTurn_txLine : (takeTurn s).txLine = s.txLine := rfl
@[simp] theorem takeTurn_hostRx : (takeTurn s).hostRx = s.hostRx := rfl
@[simp] theorem takeTurn_hostRxPos : (takeTurn s).hostRxPos = s.hostRxPos := rfl
@[simp] theorem takeTurn_btn : (takeTurn s).btn = s.btn := rfl
@[simp] theorem takeTurn_pin : (takeTurn s).pin = s.pin := rfl
@[simp] theorem takeTurn_pcie : (takeTurn s).pcie = s.pcie := rfl
@[simp] theorem takeTurn_pcif : (takeTurn s).pcif = s.pcif := rfl
@[simp] theorem takeTurn_tmr : (takeTurn s).tmr = s.tmr := rfl
@[simp] theorem takeTurn_press : (takeTurn s).press = s.press := rfl
@[simp] theorem takeTurn_phase : (takeTurn s).phase = s.phase := rfl
@[simp] theorem takeTurn_idx : (takeTurn s).idx = s.idx := rfl
@[simp] theorem takeTurn_hsWin : (takeTurn s).hsWin = s.hsWin := rfl
@[simp] theorem takeTurn_req : (takeTurn s).req = s.req := rfl
@[simp] theorem takeTurn_pass : (takeTurn s).pass = s.pass := rfl
@[simp] theorem takeTurn_k : (takeTurn s).k = s.k := rfl
@[simp] theorem takeTurn_out : (takeTurn s).out = s.out := rfl
@[simp] theorem takeTurn_sel : (takeTurn s).sel = s.sel := rfl
@[simp] theorem takeTurn_port : (takeTurn s).port = s.port := rfl
@[simp] theorem takeTurn_issuer : (takeTurn s).issuer = s.issuer := rfl
@[simp] theorem takeTurn_result : (takeTurn s).result = s.result := rfl
@[simp] theorem takeTurn_tokens : (takeTurn s).tokens = s.tokens := rfl
@[simp] theorem takeTurn_turns : (takeTurn s).turns = s.turns.drop 1 := rfl
@[simp] theorem takeTurn_turnNo : (takeTurn s).turnNo = s.turnNo + 1 := rfl
@[simp] theorem takeTurn_approxAnswers : (takeTurn s).approxAnswers = s.approxAnswers := rfl
@[simp] theorem takeTurn_pointAnswers : (takeTurn s).pointAnswers = s.pointAnswers := rfl
@[simp] theorem takeTurn_rootAnswers : (takeTurn s).rootAnswers = s.rootAnswers := rfl
@[simp] theorem takeTurn_draws : (takeTurn s).draws = s.draws := rfl
@[simp] theorem takeTurn_calls : (takeTurn s).calls = s.calls := rfl
end

end Sys2Proof.Laws
end

