-- ==== Sys2Proof/Laws/Ops.lean ====
section
/-! SUPPORT. What each shared operation can do, said once: the critical section leaves GIE as it was (R157), issuing an
operation (R103, R106), taking an interrupt (R355), the queue operations and the USART attempts without their critical
sections. -/

namespace Sys2Proof.Laws

open Sys2Proof.Machine Sys2Proof.Safety

/-- A critical region runs its body with interrupts off and gives GIE back (R157, R183). -/
theorem critical_eq {α : Type} (body : State → α × State) (s : State) :
    critical body s = ((body (setGie false s)).1, setGie s.gie (body (setGie false s)).2) := rfl

theorem issue_allowed {allowed : List Issuer} {effect : State → State} {s : State}
    (h : s.issuer ∈ allowed) : issue allowed effect s = effect s := by
  simp [issue, h]

theorem issue_refused {allowed : List Issuer} {effect : State → State} {s : State}
    (h : s.issuer ∉ allowed) : issue allowed effect s = refuse .wrongIssuer s := by
  simp [issue, h]

/-- Issuing an operation has its effect or refuses the issuer (R103, R362). -/
theorem issue_cases (allowed : List Issuer) (effect : State → State) (s : State) :
    (s.issuer ∈ allowed ∧ issue allowed effect s = effect s) ∨
    (s.issuer ∉ allowed ∧ issue allowed effect s = refuse .wrongIssuer s) := by
  by_cases h : s.issuer ∈ allowed
  · exact .inl ⟨h, issue_allowed h⟩
  · exact .inr ⟨h, issue_refused h⟩

/-- Issuing an operation with a checked operand (R106). -/
theorem issueChecked_cases (legal : Bool) (allowed : List Issuer) (effect : State → State) (s : State) :
    (legal = true ∧ issueChecked legal allowed effect s = issue allowed effect s) ∨
    (legal = false ∧ issueChecked legal allowed effect s = refuse .illegalOperand s) := by
  cases legal
  · exact .inr ⟨rfl, rfl⟩
  · exact .inl ⟨rfl, rfl⟩

/-- The dispatcher takes the interrupt, or has no step (R355). -/
theorem takeInterrupt_cases (src : Source) (body : State → State) (s : State) :
    (s.gie = true ∧ requesting src s = true ∧
      takeInterrupt src body s = setGie true (body (setGie false s))) ∨
    ((s.gie = false ∨ requesting src s = false) ∧ takeInterrupt src body s = s) := by
  unfold takeInterrupt
  cases hg : s.gie <;> cases hr : requesting src s <;> simp [interruptReturn, interruptEntry]

/-- What a legal configuration promises of its sizes (R8). -/
theorem configLegal_spec {c : Config} (h : configLegal c = true) :
    2 ≤ c.rxqN ∧ 2 ≤ c.txqN ∧ 1 ≤ c.debounceDelay ∧ c.debounceDelay ≤ 16 := by
  unfold configLegal timerSpan at h
  simp only [Bool.and_eq_true, decide_eq_true_eq] at h
  exact ⟨h.1.1.1.1.1.1, h.1.1.1.1.1.2, h.1.1.1.1.2, h.1.1.1.2⟩

/-! ## Queues -/

/-- A push on a queue of the block changes that queue alone (R153, R157). -/
theorem queuePush_eq (w : Queue) (v : Byte) (s : State) :
    queuePush w v s =
      ((ringPush (capacity w s) v (getQueue w s)).1,
        setQueue w (ringPush (capacity w s) v (getQueue w s)).2 s) := by
  cases w <;> rfl

/-- A pop on a queue of the block changes that queue alone (R154, R157). -/
theorem queuePop_eq (w : Queue) (s : State) :
    queuePop w s =
      ((ringPop (capacity w s) (getQueue w s)).1,
        setQueue w (ringPop (capacity w s) (getQueue w s)).2 s) := by
  cases w <;> rfl

/-- A size query changes nothing (R155). -/
theorem queueSize_eq (w : Queue) (s : State) :
    queueSize w s = (ringSize (capacity w s) (getQueue w s), s) := by
  cases w <;> rfl

/-! ## USART attempts -/

theorem startTransmit_eq (s : State) :
    startTransmit s =
      { s with txState := .buffering, udrie := if s.txState = .idle then true else s.udrie } := by
  unfold startTransmit
  split
  · next h => simp [h]
  · next h => cases s; simp_all

/-- WRITE_BYTE without its critical section (R190). -/
theorem writeByteAttempt_eq (b : Byte) (s : State) :
    writeByteAttempt b s =
      if ringFull s.txq then (.wouldBlock, s)
      else (.ok, startTransmit { s with txq := (ringPush s.cfg.txqN b s.txq).2 }) := by
  unfold writeByteAttempt
  rw [critical_eq]
  simp only [queuePush_eq, capacity, getQueue, setQueue, setGie_cfg, setGie_txq]
  cases h : ringFull s.txq
  · rw [ringPush_notFull b h]
    simp only [Bool.false_eq_true, if_false, startTransmit_eq]
    rfl
  · rw [ringPush_full b h]
    rfl

/-- WRITE without its critical section (R192). -/
theorem writeAttempt_eq (bs : List Byte) (s : State) :
    writeAttempt bs s =
      if txqFree s < bs.length then (.wouldBlock, s)
      else
        (.ok,
          if bs.isEmpty then { s with txq := ringPushAll s.cfg.txqN bs s.txq }
          else startTransmit { s with txq := ringPushAll s.cfg.txqN bs s.txq }) := by
  unfold writeAttempt
  rw [critical_eq]
  have hfree : txqFree (setGie false s) = txqFree s := rfl
  simp only [hfree, setQueue, setGie_cfg, setGie_txq]
  by_cases h : txqFree s < bs.length
  · simp only [h, if_true]
    rfl
  · simp only [h, if_false]
    cases bs.isEmpty
    · simp only [Bool.false_eq_true, if_false, startTransmit_eq]
      rfl
    · rfl

/-- READ_BYTE without its critical section (R194). -/
theorem readByteAttempt_eq (s : State) :
    readByteAttempt s =
      match ringPop s.cfg.rxqN s.rxq with
      | (none, _) => (.wouldBlock, s)
      | (some b, q) => (.okByte b, { s with rxq := q }) := by
  unfold readByteAttempt
  rw [critical_eq]
  simp only [queuePop_eq, capacity, getQueue, setQueue, setGie_cfg, setGie_rxq]
  generalize ringPop s.cfg.rxqN s.rxq = r
  obtain ⟨a, q⟩ := r
  cases a <;> rfl

/-- READ without its critical section (R196). -/
theorem readAttempt_eq (len : Nat) (s : State) :
    readAttempt len s =
      if ringSize s.cfg.rxqN s.rxq < len then (.wouldBlock, s)
      else
        (.okBytes (ringPopMany s.cfg.rxqN len s.rxq).1,
          { s with rxq := (ringPopMany s.cfg.rxqN len s.rxq).2 }) := by
  unfold readAttempt
  rw [critical_eq]
  simp only [setQueue, setGie_cfg, setGie_rxq]
  by_cases h : ringSize s.cfg.rxqN s.rxq < len
  · simp only [h, if_true]
    rfl
  · simp only [h, if_false]
    rfl

/-- What a WRITE can do on a well-formed TXQ (R192): nothing, or append the whole string. -/
theorem writeAttempt_spec (bs : List Byte) (s : State) (hn : 2 ≤ s.cfg.txqN) (hw : RingWf s.cfg.txqN s.txq) :
    (txqFree s < bs.length ∧ writeAttempt bs s = (.wouldBlock, s)) ∨
    (bs.length ≤ txqFree s ∧ ∃ q,
      writeAttempt bs s = (.ok, { s with
        txq := q
        txState := if bs = [] then s.txState else .buffering
        udrie := if bs ≠ [] ∧ s.txState = .idle then true else s.udrie }) ∧
      Appended s.cfg.txqN s.txq bs q) := by
  rw [writeAttempt_eq]
  by_cases h : txqFree s < bs.length
  · exact .inl ⟨h, by rw [if_pos h]⟩
  · refine .inr ⟨by omega, ringPushAll s.cfg.txqN bs s.txq, ?_, ?_⟩
    · rw [if_neg h, startTransmit_eq]
      cases bs <;> simp [ringPushAll]
    · have hlt := ringSize_lt hw.2.1 hw.2.2.1
      exact ringPushAll_spec bs hn hw (by unfold txqFree at h; omega)

/-- What a READ can do on a well-formed RXQ (R196): nothing, or take the oldest bytes. -/
theorem readAttempt_spec (len : Nat) (s : State) (hw : RingWf s.cfg.rxqN s.rxq) :
    ((contents s.cfg.rxqN s.rxq).length < len ∧ readAttempt len s = (.wouldBlock, s)) ∨
    (len ≤ (contents s.cfg.rxqN s.rxq).length ∧ ∃ q,
      readAttempt len s = (.okBytes ((contents s.cfg.rxqN s.rxq).take len), { s with rxq := q }) ∧
      Removed s.cfg.rxqN s.rxq ((contents s.cfg.rxqN s.rxq).take len) q) := by
  rw [readAttempt_eq, ← contents_length hw]
  by_cases h : (contents s.cfg.rxqN s.rxq).length < len
  · exact .inl ⟨h, by rw [if_pos h]⟩
  · obtain ⟨a, r⟩ := ringPopMany_spec len hw (by omega)
    exact .inr ⟨by omega, (ringPopMany s.cfg.rxqN len s.rxq).2, by rw [if_neg h, a], r⟩

/-- What a READ_BYTE can do on a well-formed RXQ (R194). -/
theorem readByteAttempt_spec (s : State) (hw : RingWf s.cfg.rxqN s.rxq) :
    (contents s.cfg.rxqN s.rxq = [] ∧ readByteAttempt s = (.wouldBlock, s)) ∨
    (∃ b q, contents s.cfg.rxqN s.rxq = b :: contents s.cfg.rxqN q ∧ Removed s.cfg.rxqN s.rxq [b] q ∧
      readByteAttempt s = (.okByte b, { s with rxq := q })) := by
  rw [readByteAttempt_eq]
  rcases ringPop_spec hw with ⟨hc, hp⟩ | ⟨b, q, hc, hp, hq⟩
  · exact .inl ⟨hc, by rw [hp]⟩
  · exact .inr ⟨b, q, hc, hq, by rw [hp]⟩

/-- What a WRITE_BYTE can do on a well-formed TXQ (R190). -/
theorem writeByteAttempt_spec (b : Byte) (s : State) (hw : RingWf s.cfg.txqN s.txq) :
    (ringFull s.txq = true ∧ writeByteAttempt b s = (.wouldBlock, s)) ∨
    (ringFull s.txq = false ∧ ∃ q,
      writeByteAttempt b s = (.ok, { s with
        txq := q
        txState := .buffering
        udrie := if s.txState = .idle then true else s.udrie }) ∧
      Appended s.cfg.txqN s.txq [b] q) := by
  rw [writeByteAttempt_eq]
  rcases ringPush_spec b hw with ⟨hf, _⟩ | ⟨hf, q, hp, ha⟩
  · exact .inl ⟨hf, by rw [if_pos hf]⟩
  · refine .inr ⟨hf, q, ?_, ha⟩
    simp [hf, hp, startTransmit_eq]

/-! ## Steps -/

/-- What a step can do (R8, R360, R405, R16): it is an illegal configuration's refusal, a faulted block's stop, boot,
or the step of the agent whose turn it is. -/
theorem step_cases (s : State) :
    (configLegal s.cfg = false ∧ step s = .refused .illegalConfiguration) ∨
    (configLegal s.cfg = true ∧ ∃ c, s.fault = some c ∧ step s = .fault (.halted c)) ∨
    (configLegal s.cfg = true ∧ s.fault = none ∧ s.booted = false ∧ step s = .next (boot s)) ∨
    (configLegal s.cfg = true ∧ s.fault = none ∧ s.booted = true ∧
      step s = agentStep (nextTurn s) (takeTurn s)) := by
  unfold step
  cases hc : configLegal s.cfg
  · exact .inl ⟨rfl, rfl⟩
  · cases hf : s.fault with
    | some c => exact .inr (.inl ⟨rfl, c, rfl, rfl⟩)
    | none =>
      cases hb : s.booted
      · exact .inr (.inr (.inl ⟨rfl, rfl, rfl, rfl⟩))
      · exact .inr (.inr (.inr ⟨rfl, rfl, rfl, rfl⟩))

/-- The agents' step of a running block. -/
theorem step_running {s : State} (hc : configLegal s.cfg = true) (hf : s.fault = none) (hb : s.booted = true) :
    step s = agentStep (nextTurn s) (takeTurn s) := by
  simp [step, hc, hf, hb]

end Sys2Proof.Laws
end

