-- ==== Sys2Proof/Laws/Debouncer.lean ====
section
/-! SUPPORT. What the two debouncer ISRs do, each said once as one update of the state (R310, R315). -/

namespace Sys2Proof.Laws

open Sys2Proof.Machine Sys2Proof.Safety

/-- A button after the timer ISR with `e` elapsed ticks (R315, R316). -/
def afterTimer (e : Nat) (b : ButtonState) : ButtonState := if crosses e b then .pressed else elapse e b

/-- The timer after a timer ISR (R315, R317). -/
def rearmed (p : PerButton ButtonState) (ocr : Nat) : Timer :=
  match leastLive p with
  | some m => ⟨.running, 0, min m timerSpan⟩
  | none => ⟨.disabled, 0, ocr⟩

/-- The timer after a pin-change ISR (R310). -/
def afterPins (p : PerButton ButtonState) (delay : Nat) (t : Timer) : Timer :=
  if allUp p then ⟨.disabled, 0, t.ocr⟩
  else if t.state = .disabled then ⟨.running, 0, delay⟩ else t

/-- The buttons after a pin-change ISR (R310). -/
def sampledButtons (s : State) : PerButton ButtonState :=
  ⟨sampleButton (s.cfg.debounceDelay + pressOffset s) s.pin.b0 s.btn.b0,
    sampleButton (s.cfg.debounceDelay + pressOffset s) s.pin.b1 s.btn.b1⟩

/-- The pin-change ISR as one update (R310). -/
theorem pcintBody_eq (s : State) :
    pcintBody s = { s with
      pcif := false
      btn := sampledButtons s
      tmr := afterPins (sampledButtons s) s.cfg.debounceDelay s.tmr } := by
  have h : pcintBody s =
      (if allUp (sampledButtons s) then disableTimer { s with pcif := false, btn := sampledButtons s }
      else match s.tmr.state with
        | .disabled => armTimer s.cfg.debounceDelay { s with pcif := false, btn := sampledButtons s }
        | .running => { s with pcif := false, btn := sampledButtons s }
        | .expired => { s with pcif := false, btn := sampledButtons s }) := rfl
  rw [h]
  unfold afterPins
  by_cases hu : allUp (sampledButtons s) = true
  · simp [hu, disableTimer]
  · obtain ⟨⟨x, y, z⟩, ht⟩ : ∃ t, s.tmr = t := ⟨_, rfl⟩
    cases x <;> simp [hu, ht, armTimer]

/-- The time a button has left after `e` elapsed ticks, if it is Down and has not crossed the threshold (R315, R316). -/
theorem liveTime_elapse (e : Nat) (b : ButtonState) :
    liveTime (elapse e b) = match b with
      | .down r => if e < r then some (r - e) else none
      | .up => none
      | .pressed => none := by
  cases b with
  | up => rfl
  | pressed => rfl
  | down r =>
    by_cases h : e < r
    · have : satSub r e = r - e := by unfold satSub; rw [if_pos (by omega)]
      simp only [elapse, liveTime, this, if_pos h]
      rw [if_pos (by omega)]
    · have : satSub r e = 0 := by unfold satSub; split <;> omega
      simp [elapse, liveTime, this, h]

theorem afterTimer_eq (e : Nat) (b : ButtonState) :
    afterTimer e b = match b with
      | .down r => if e < r then .down (r - e) else .pressed
      | .up => .up
      | .pressed => .pressed := by
  cases b with
  | up => rfl
  | pressed => rfl
  | down r =>
    by_cases h : e < r
    · have : satSub r e = r - e := by unfold satSub; rw [if_pos (by omega)]
      have hc : crosses e (.down r) = false := by simp [crosses]; omega
      simp [afterTimer, hc, elapse, this, h]
    · have hc : crosses e (.down r) = true := by simp [crosses]; omega
      simp [afterTimer, hc, h]

/-- After a timer ISR a button is Down exactly for the time it has left. -/
theorem afterTimer_down (e m : Nat) (b : ButtonState) :
    afterTimer e b = .down m ↔ liveTime (elapse e b) = some m := by
  rw [liveTime_elapse, afterTimer_eq]
  cases b with
  | up => simp
  | pressed => simp
  | down r => by_cases h : e < r <;> simp [h]

theorem fireButton_eq (s : State) (i : Button) :
    fireButton s i = { s with
      press := if hasCallback s.cfg i then s.press ++ [i] else s.press
      btn := buttonSet s.btn i .pressed } := rfl

/-- The timer ISR as one update (R315). -/
theorem timerBody_eq (s : State) :
    timerBody s = { s with
      btn := ⟨afterTimer s.tmr.tcnt s.btn.b0, afterTimer s.tmr.tcnt s.btn.b1⟩
      press := s.press ++ (if crosses s.tmr.tcnt s.btn.b0 && s.cfg.hasCallback0 then [0] else [])
        ++ (if crosses s.tmr.tcnt s.btn.b1 && s.cfg.hasCallback1 then [1] else [])
      tmr := rearmed ⟨elapse s.tmr.tcnt s.btn.b0, elapse s.tmr.tcnt s.btn.b1⟩ s.tmr.ocr } := by
  obtain ⟨x, hx⟩ : ∃ x, s.btn.b0 = x := ⟨_, rfl⟩
  obtain ⟨y, hy⟩ : ∃ y, s.btn.b1 = y := ⟨_, rfl⟩
  unfold timerBody rearmed
  cases x with
  | up =>
    cases y with
    | up => simp [hx, hy, buttons, crosses, buttonGet, elapse, leastLive, liveTime, isDown, afterTimer, disableTimer]
    | pressed =>
      simp [hx, hy, buttons, crosses, buttonGet, elapse, leastLive, liveTime, isDown, afterTimer, disableTimer]
    | down r =>
      by_cases hr : r ≤ s.tmr.tcnt
      · have : ¬ 0 < satSub r s.tmr.tcnt := by unfold satSub; split <;> omega
        cases hc : s.cfg.hasCallback1 <;>
          simp [hx, hy, hr, hc, this, buttons, crosses, buttonGet, buttonSet, elapse, leastLive, liveTime, isDown,
            afterTimer, disableTimer, fireButton_eq, hasCallback]
      · have : 0 < satSub r s.tmr.tcnt := by unfold satSub; split <;> omega
        simp [hx, hy, hr, this, buttons, crosses, buttonGet, elapse, leastLive, liveTime, isDown, afterTimer, armTimer]
  | pressed =>
    cases y with
    | up => simp [hx, hy, buttons, crosses, buttonGet, elapse, leastLive, liveTime, isDown, afterTimer, disableTimer]
    | pressed =>
      simp [hx, hy, buttons, crosses, buttonGet, elapse, leastLive, liveTime, isDown, afterTimer, disableTimer]
    | down r =>
      by_cases hr : r ≤ s.tmr.tcnt
      · have : ¬ 0 < satSub r s.tmr.tcnt := by unfold satSub; split <;> omega
        cases hc : s.cfg.hasCallback1 <;>
          simp [hx, hy, hr, hc, this, buttons, crosses, buttonGet, buttonSet, elapse, leastLive, liveTime, isDown,
            afterTimer, disableTimer, fireButton_eq, hasCallback]
      · have : 0 < satSub r s.tmr.tcnt := by unfold satSub; split <;> omega
        simp [hx, hy, hr, this, buttons, crosses, buttonGet, elapse, leastLive, liveTime, isDown, afterTimer, armTimer]
  | down q =>
    by_cases hq : q ≤ s.tmr.tcnt
    · have hq0 : ¬ 0 < satSub q s.tmr.tcnt := by unfold satSub; split <;> omega
      cases y with
      | up =>
        cases hc : s.cfg.hasCallback0 <;>
          simp [hx, hy, hq, hc, hq0, buttons, crosses, buttonGet, buttonSet, elapse, leastLive, liveTime, isDown,
            afterTimer, disableTimer, fireButton_eq, hasCallback]
      | pressed =>
        cases hc : s.cfg.hasCallback0 <;>
          simp [hx, hy, hq, hc, hq0, buttons, crosses, buttonGet, buttonSet, elapse, leastLive, liveTime, isDown,
            afterTimer, disableTimer, fireButton_eq, hasCallback]
      | down r =>
        by_cases hr : r ≤ s.tmr.tcnt
        · have : ¬ 0 < satSub r s.tmr.tcnt := by unfold satSub; split <;> omega
          cases hc : s.cfg.hasCallback0 <;> cases hd : s.cfg.hasCallback1 <;>
            simp [hx, hy, hq, hr, hc, hd, hq0, this, buttons, crosses, buttonGet, buttonSet, elapse, leastLive,
              liveTime, isDown, afterTimer, disableTimer, fireButton_eq, hasCallback]
        · have : 0 < satSub r s.tmr.tcnt := by unfold satSub; split <;> omega
          cases hc : s.cfg.hasCallback0 <;>
            simp [hx, hy, hq, hr, hc, hq0, this, buttons, crosses, buttonGet, buttonSet, elapse, leastLive,
              liveTime, isDown, afterTimer, armTimer, fireButton_eq, hasCallback]
    · have hq0 : 0 < satSub q s.tmr.tcnt := by unfold satSub; split <;> omega
      cases y with
      | up =>
        simp [hx, hy, hq, hq0, buttons, crosses, buttonGet, elapse, leastLive, liveTime, isDown, afterTimer, armTimer]
      | pressed =>
        simp [hx, hy, hq, hq0, buttons, crosses, buttonGet, elapse, leastLive, liveTime, isDown, afterTimer, armTimer]
      | down r =>
        by_cases hr : r ≤ s.tmr.tcnt
        · have : ¬ 0 < satSub r s.tmr.tcnt := by unfold satSub; split <;> omega
          cases hc : s.cfg.hasCallback1 <;>
            simp [hx, hy, hq, hr, hc, hq0, this, buttons, crosses, buttonGet, buttonSet, elapse, leastLive,
              liveTime, isDown, afterTimer, armTimer, fireButton_eq, hasCallback]
        · have : 0 < satSub r s.tmr.tcnt := by unfold satSub; split <;> omega
          simp [hx, hy, hq, hr, hq0, this, buttons, crosses, buttonGet, elapse, leastLive, liveTime, isDown,
            afterTimer, armTimer]

end Sys2Proof.Laws
end

