-- ==== Sys2Proof/Laws/Float64.lean ====
section
/-! SUPPORT. The binary64 format (R10): what value an assembled pattern has, what values finite patterns have, and that
each operation on finite operands rounds the exact result once. -/

namespace Sys2Proof.Laws

open Sys2Proof.Machine Sys2Proof.Safety

/-- The sign bit's two values. -/
theorem f64SignBit_cases (b : Bool) : f64SignBit b = 0 ∧ b = false ∨ f64SignBit b = 2 ^ 63 ∧ b = true := by
  cases b <;> simp [f64SignBit]

/-- The fields of a pattern put together from a sign and the lower 63 bits. -/
theorem f64Fields (negative : Bool) (bits : Nat) (h : bits < 2 ^ 63) :
    let w : F64 := BitVec.ofNat 64 (f64SignBit negative + bits)
    w.toNat = f64SignBit negative + bits ∧ f64Sign w = negative ∧ f64Exponent w = bits / 2 ^ 52 ∧
      f64Fraction w = bits % 2 ^ 52 := by
  intro w
  have hw : w.toNat = f64SignBit negative + bits := by
    rcases f64SignBit_cases negative with ⟨e, _⟩ | ⟨e, _⟩ <;> rw [BitVec.toNat_ofNat, e] <;> omega
  refine ⟨hw, ?_, ?_, ?_⟩
  · unfold f64Sign
    rw [hw]
    rcases f64SignBit_cases negative with ⟨e, rfl⟩ | ⟨e, rfl⟩ <;> rw [e]
    · rw [show (0 + bits) / 2 ^ 63 = 0 by omega]; rfl
    · rw [show (2 ^ 63 + bits) / 2 ^ 63 = 1 by omega]; rfl
  · unfold f64Exponent
    rw [hw]
    rcases f64SignBit_cases negative with ⟨e, _⟩ | ⟨e, _⟩ <;> rw [e] <;> omega
  · unfold f64Fraction
    rw [hw]
    rcases f64SignBit_cases negative with ⟨e, _⟩ | ⟨e, _⟩ <;> rw [e] <;> omega

/-- A dyadic value with its mantissa doubled and its exponent one less. -/
theorem dyadic_double (s : Bool) (m : Nat) (e : Int) : dyadic s (2 * m) e = dyadic s m (e + 1) := by
  unfold dyadic
  rw [zpow_add_one₀ (by norm_num)]
  cases s <;> simp only [Bool.false_eq_true, if_false, if_true] <;> push_cast <;> ring

/-- The value of a pattern from its parts. -/
theorem f64Value_of_unpack {w : F64} {s : Bool} {m : Nat} {e : Int} (h : f64Unpack w = .finite s m e) :
    f64Value w = dyadic s m e := by
  rw [f64Value, h]

/-- What `f64Round` assembles: a kept mantissa of at most 2^53, normal or at the least exponent, below the overflow
bound. The last mantissa bit is the pattern's last bit. -/
theorem f64Assembled (negative : Bool) (kept : Nat) (least : Int) (hl : -1074 ≤ least) (hk : kept ≤ 2 ^ 53)
    (hn : 2 ^ 52 ≤ kept ∨ least = -1074)
    (hb : (least + 1074).toNat * 2 ^ 52 + kept < 2047 * 2 ^ 52) :
    let w : F64 := BitVec.ofNat 64 (f64SignBit negative + ((least + 1074).toNat * 2 ^ 52 + kept))
    f64Finite w = true ∧ f64Sign w = negative ∧ f64Value w = dyadic negative kept least ∧ w.toNat % 2 = kept % 2 := by
  intro w
  obtain ⟨n, hn'⟩ : ∃ n : Nat, least = n - 1074 := ⟨(least + 1074).toNat, by omega⟩
  have ht : (least + 1074).toNat = n := by omega
  rw [ht] at hb
  obtain ⟨h1, h2, h3, h4⟩ := f64Fields negative (n * 2 ^ 52 + kept) (by omega)
  have hw : w = BitVec.ofNat 64 (f64SignBit negative + (n * 2 ^ 52 + kept)) := by simp only [w, ht]
  rw [← hw] at h1 h2 h3 h4
  have hfin : f64Exponent w ≠ 2047 := by rw [h3]; omega
  refine ⟨by simp [f64Finite, hfin], h2, ?_, ?_⟩
  · rcases Nat.lt_or_ge kept (2 ^ 52) with hsub | hnor
    · have hz : n = 0 := by omega
      have hf : f64Fraction w = kept := by rw [h4]; omega
      have hu : f64Unpack w = .finite negative kept least := by
        rw [f64Unpack, if_neg hfin, if_pos (by rw [h3]; omega), h2, hf, hn', hz]; rfl
      rw [f64Value_of_unpack hu]
    · rcases Nat.lt_or_ge kept (2 ^ 53) with hlt | hge
      · have hf : 2 ^ 52 + f64Fraction w = kept := by rw [h4]; omega
        have he : (f64Exponent w : Int) - 1075 = least := by rw [h3]; omega
        have hu : f64Unpack w = .finite negative kept least := by
          rw [f64Unpack, if_neg hfin, if_neg (by rw [h3]; omega), h2, hf, he]
        rw [f64Value_of_unpack hu]
      · have hf : kept = 2 * (2 ^ 52 + f64Fraction w) := by rw [h4]; omega
        have he : (f64Exponent w : Int) - 1075 = least + 1 := by rw [h3]; omega
        have hu : f64Unpack w = .finite negative (2 ^ 52 + f64Fraction w) (least + 1) := by
          rw [f64Unpack, if_neg hfin, if_neg (by rw [h3]; omega), h2, he]
        rw [f64Value_of_unpack hu, ← dyadic_double, ← hf]
  · rw [h1]
    rcases f64SignBit_cases negative with ⟨e, _⟩ | ⟨e, _⟩ <;> rw [e] <;> omega

/-- The value of a finite pattern: a mantissa below 2^53, normal or at the least exponent. -/
theorem f64Unpack_finite (x : F64) (h : f64Finite x = true) :
    ∃ m e, f64Unpack x = .finite (f64Sign x) m e ∧ f64Value x = dyadic (f64Sign x) m e ∧ m < 2 ^ 53 ∧ -1074 ≤ e ∧
      (2 ^ 52 ≤ m ∨ e = -1074) := by
  have hx : f64Exponent x ≠ 2047 := by simpa [f64Finite] using h
  have hf : f64Fraction x < 2 ^ 52 := Nat.mod_lt _ (by norm_num)
  by_cases h0 : f64Exponent x = 0
  · have hu : f64Unpack x = .finite (f64Sign x) (f64Fraction x) (-1074) := by
      unfold f64Unpack; rw [if_neg hx, if_pos h0]
    exact ⟨_, _, hu, f64Value_of_unpack hu, by omega, by omega, .inr rfl⟩
  · have hu : f64Unpack x = .finite (f64Sign x) (2 ^ 52 + f64Fraction x) ((f64Exponent x : Int) - 1075) := by
      unfold f64Unpack; rw [if_neg hx, if_neg h0]
    exact ⟨_, _, hu, f64Value_of_unpack hu, by omega, by omega, .inl (by omega)⟩

/-! ## A value kept on a grid is the nearest of all finite values -/

/-- No point of the grid is nearer than one within half a step, and another as near is the other end of a tie. -/
theorem kept_nearest_grid {V u : ℚ} {K : Nat} (hu : 0 < u) (hd : |V - K * u| ≤ u / 2)
    (ht : |V - K * u| = u / 2 → K % 2 = 0) (j : Int) :
    |V - K * u| ≤ |V - j * u| ∧ (|V - K * u| = |V - j * u| → (j : ℚ) ≠ K → K % 2 = 0) := by
  by_cases hj : (j : ℚ) = K
  · rw [hj]
    exact ⟨le_rfl, fun _ h => absurd rfl h⟩
  have h1 : 1 ≤ |(K : ℚ) - j| := by
    have h0 : (K : Int) - j ≠ 0 := fun h => hj (by exact_mod_cast (by omega : j = K))
    exact_mod_cast Int.one_le_abs h0
  have h2 : u ≤ |((K : ℚ) - j) * u| := by
    rw [abs_mul, abs_of_pos hu]
    nlinarith
  have h3 : |((K : ℚ) - j) * u| ≤ |V - j * u| + |V - K * u| := by
    rw [show ((K : ℚ) - j) * u = (V - j * u) - (V - K * u) by ring]
    exact abs_sub _ _
  exact ⟨by linarith, fun h _ => ht (by linarith)⟩

/-- A dyadic value of a larger exponent lies on the grid of a smaller one. -/
theorem dyadic_on_grid (t : Bool) (m : Nat) {least l : Int} (h : least ≤ l) :
    ∃ j : Int, dyadic t m l = j * 2 ^ least := by
  obtain ⟨n, rfl⟩ : ∃ n : Nat, l = least + n := ⟨(l - least).toNat, by omega⟩
  refine ⟨(if t then -1 else 1) * (m * 2 ^ n), ?_⟩
  rw [dyadic, zpow_add₀ (by norm_num), zpow_natCast]
  cases t <;> simp <;> ring

/-- A finite value of a smaller exponent lies below the least normal value of a larger one. -/
theorem dyadic_below (t : Bool) {m : Nat} {least l : Int} (hm : m < 2 ^ 53) (h : l < least) :
    dyadic t m l < 2 ^ 52 * 2 ^ least := by
  have h2 : (m : ℚ) < 2 ^ 53 := by exact_mod_cast hm
  have h3 : (2 : ℚ) ^ (l + 1) ≤ 2 ^ least := zpow_le_zpow_right₀ (by norm_num) (by omega)
  rw [zpow_add_one₀ (by norm_num)] at h3
  have h4 : (0 : ℚ) < 2 ^ l := by positivity
  have h0 : (0 : ℚ) ≤ m * 2 ^ l := by positivity
  cases t <;> simp only [dyadic, Bool.false_eq_true, if_false, if_true] <;> nlinarith

/-- A mantissa kept within half a unit of a value of its own binade, even on a tie, is nearest among all finite values. -/
theorem kept_nearest {V : ℚ} {K : Nat} {least : Int} (hd : |V - K * 2 ^ least| ≤ 2 ^ least / 2)
    (ht : |V - K * 2 ^ least| = 2 ^ least / 2 → K % 2 = 0) (hlo : least ≠ -1074 → 2 ^ 52 * 2 ^ least ≤ V)
    (t : Bool) {m : Nat} {l : Int} (hm : m < 2 ^ 53) (hl : -1074 ≤ l) :
    |V - K * 2 ^ least| ≤ |V - dyadic t m l| ∧
      (|V - K * 2 ^ least| = |V - dyadic t m l| → dyadic t m l ≠ K * 2 ^ least → K % 2 = 0) := by
  have hu : (0 : ℚ) < 2 ^ least := by positivity
  by_cases hge : least ≤ l
  · obtain ⟨j, hj⟩ := dyadic_on_grid t m hge
    rw [hj]
    obtain ⟨g1, g2⟩ := kept_nearest_grid hu hd ht j
    exact ⟨g1, fun h hne => g2 h fun hjk => hne (by rw [hjk])⟩
  · have hV := hlo (by omega)
    have hy := dyadic_below t hm (not_le.1 hge)
    have hg := (kept_nearest_grid hu hd ht ((2 ^ 52 : Nat) : Int)).1
    rw [show (((2 ^ 52 : Nat) : Int) : ℚ) = 2 ^ 52 by norm_num, abs_of_nonneg (by linarith : (0 : ℚ) ≤ V - 2 ^ 52 * 2 ^ least)]
      at hg
    rw [abs_of_pos (by linarith : (0 : ℚ) < V - dyadic t m l)]
    exact ⟨by linarith, fun h => by linarith⟩

end Sys2Proof.Laws
end

