-- ==== Sys2Proof/Laws/Foreground.lean ====
section
/-! SUPPORT. What an instruction issued by the foreground can do, said once: it appends to TXQ, takes from RXQ, moves the
framer and GIE, and leaves every other part of the state alone (R156, R356, R372). -/

namespace Sys2Proof.Laws

open Sys2Proof.Machine Sys2Proof.Safety

/-- Everything an instruction issued by the foreground leaves as it was: the state after it differs in these fields
only. -/
abbrev ForegroundFrame (s t : State) : Prop :=
  t = { s with
    gie := t.gie, fault := t.fault, refused := t.refused, refusals := t.refusals
    rxq := t.rxq, txq := t.txq, txState := t.txState, udrie := t.udrie
    phase := t.phase, hsWin := t.hsWin, req := t.req, pass := t.pass, k := t.k, out := t.out, sel := t.sel
    result := t.result, approxAnswers := t.approxAnswers, pointAnswers := t.pointAnswers
    rootAnswers := t.rootAnswers, draws := t.draws, calls := t.calls }

/-- The transmit side takes `bs` (R190, R192). -/
abbrev Sends (s : State) (bs : List Byte) (t : State) : Prop :=
  Appended s.cfg.txqN s.txq bs t.txq ∧ t.txState = (if bs = [] then s.txState else .buffering) ∧
    t.udrie = (if bs ≠ [] ∧ s.txState = .idle then true else s.udrie)

/-- What an instruction issued by the foreground can do. -/
structure ForegroundEffect (s t : State) : Prop where
  frame : ForegroundFrame s t
  sends : ∃ bs, Sends s bs t
  takes : ∃ bs, Removed s.cfg.rxqN s.rxq bs t.rxq
  framer : FramerBounded s → FramerBounded t

/-- The state the effects are about: both queues are well formed. -/
abbrev QueuesReady (s : State) : Prop := 2 ≤ s.cfg.txqN ∧ QueuesWf s

theorem sends_nothing {s t : State} (h : QueuesReady s) (hq : t.txq = s.txq) (hx : t.txState = s.txState)
    (hu : t.udrie = s.udrie) : ∃ bs, Sends s bs t := by
  refine ⟨[], ?_, by simp [hx], by simp [hu]⟩
  rw [hq]
  exact appended_refl h.2.2

theorem takes_nothing {s t : State} (h : QueuesReady s) (hq : t.rxq = s.rxq) :
    ∃ bs, Removed s.cfg.rxqN s.rxq bs t.rxq := by
  refine ⟨[], ?_⟩
  rw [hq]
  exact removed_refl h.2.1

/-- An effect on neither queue. -/
theorem effect_quiet {s t : State} (h : QueuesReady s) (hf : ForegroundFrame s t) (hr : t.rxq = s.rxq)
    (ht : t.txq = s.txq) (hx : t.txState = s.txState) (hu : t.udrie = s.udrie)
    (hb : FramerBounded s → FramerBounded t) : ForegroundEffect s t :=
  ⟨hf, sends_nothing h ht hx hu, takes_nothing h hr, hb⟩

theorem effect_refuse {s : State} (h : QueuesReady s) (r : RefuseReason) : ForegroundEffect s (refuse r s) :=
  effect_quiet h rfl rfl rfl rfl rfl (fun hb => hb)

/-- Issuing an operation has the effect of the operation or refuses it. -/
theorem effect_issue {s : State} (h : QueuesReady s) {allowed : List Issuer} {effect : State → State}
    (he : s.issuer ∈ allowed → ForegroundEffect s (effect s)) : ForegroundEffect s (issue allowed effect s) := by
  rcases issue_cases allowed effect s with ⟨hm, e⟩ | ⟨_, e⟩
  · rw [e]
    exact he hm
  · rw [e]
    exact effect_refuse h _

theorem effect_issueChecked {s : State} (h : QueuesReady s) {legal : Bool} {allowed : List Issuer}
    {effect : State → State} (he : s.issuer ∈ allowed → ForegroundEffect s (effect s)) :
    ForegroundEffect s (issueChecked legal allowed effect s) := by
  rcases issueChecked_cases legal allowed effect s with ⟨_, e⟩ | ⟨_, e⟩
  · rw [e]
    exact effect_issue h he
  · rw [e]
    exact effect_refuse h _

/-- After a write attempt the framer moves on from the state `t` it leaves. -/
theorem effect_write {s : State} (h : QueuesReady s) (bs : List Byte) (done : State → State) (wait : State → State)
    (hd : ∀ t, ForegroundFrame t (done t) ∧ (done t).txq = t.txq ∧ (done t).rxq = t.rxq ∧
      (done t).txState = t.txState ∧ (done t).udrie = t.udrie ∧ (FramerBounded t → FramerBounded (done t)))
    (hw : ForegroundEffect s (wait s)) :
    ForegroundEffect s (match writeAttempt bs s with | (.ok, t) => done t | (_, t) => wait t) := by
  rcases writeAttempt_spec bs s h.1 h.2.2 with ⟨_, e⟩ | ⟨_, q, e, ha⟩
  · rw [e]
    exact hw
  · rw [e]
    obtain ⟨f, a, b, c, d, k⟩ := hd { s with
      txq := q
      txState := if bs = [] then s.txState else .buffering
      udrie := if bs ≠ [] ∧ s.txState = .idle then true else s.udrie }
    refine ⟨?_, ⟨bs, ?_, c, d⟩, takes_nothing h b, fun hb => k hb⟩
    · exact f
    · show Appended s.cfg.txqN s.txq bs (done _).txq
      rw [a]
      exact ha

theorem effect_read {s : State} (h : QueuesReady s) (len : Nat) (done : List Byte → State → State)
    (wait : State → State)
    (hd : ∀ bs t, bs.length = len → ForegroundFrame t (done bs t) ∧ (done bs t).txq = t.txq ∧
      (done bs t).rxq = t.rxq ∧ (done bs t).txState = t.txState ∧ (done bs t).udrie = t.udrie ∧
      (FramerBounded t → FramerBounded (done bs t)))
    (hw : ForegroundEffect s (wait s)) :
    ForegroundEffect s (match readAttempt len s with | (.okBytes p, t) => done p t | (_, t) => wait t) := by
  rcases readAttempt_spec len s h.2.1 with ⟨_, e⟩ | ⟨hl, q, e, hr⟩
  · rw [e]
    exact hw
  · rw [e]
    obtain ⟨f, a, b, c, d, k⟩ := hd ((contents s.cfg.rxqN s.rxq).take len) { s with rxq := q } (by simpa using hl)
    refine ⟨f, sends_nothing h a c d, ⟨(contents s.cfg.rxqN s.rxq).take len, ?_⟩, fun hb => k hb⟩
    show Removed s.cfg.rxqN s.rxq _ (done _ _).rxq
    rw [b]
    exact hr

theorem effect_readByte {s : State} (h : QueuesReady s) (done : Byte → State → State) (wait : State → State)
    (hd : ∀ b t, ForegroundFrame t (done b t) ∧ (done b t).txq = t.txq ∧
      (done b t).rxq = t.rxq ∧ (done b t).txState = t.txState ∧ (done b t).udrie = t.udrie ∧
      (FramerBounded t → FramerBounded (done b t)))
    (hw : ForegroundEffect s (wait s)) :
    ForegroundEffect s (match readByteAttempt s with | (.okByte b, t) => done b t | (_, t) => wait t) := by
  rcases readByteAttempt_spec s h.2.1 with ⟨_, e⟩ | ⟨b, q, _, hr, e⟩
  · rw [e]
    exact hw
  · rw [e]
    obtain ⟨f, a, b', c, d, k⟩ := hd b { s with rxq := q }
    refine ⟨f, sends_nothing h a c d, ⟨[b], ?_⟩, fun hb => k hb⟩
    show Removed s.cfg.rxqN s.rxq _ (done _ _).rxq
    rw [b']
    exact hr

theorem effect_self {s : State} (h : QueuesReady s) : ForegroundEffect s s :=
  effect_quiet h rfl rfl rfl rfl rfl (fun hb => hb)

/-! ## The framer's phases -/

theorem encodeRoot_length (r : RootAnswer) : (encodeRoot r).length = 16 := by
  cases r with
  | ok p => exact encodePoint_length p
  | err e => simp [encodeRoot, failurePacket, le8_length]

theorem slideWindow_length (win : List Byte) (b : Byte) : (slideWindow win b).length ≤ sigLen := by
  simp [slideWindow, sigLen]
  omega

theorem effect_hsSend {s : State} (h : QueuesReady s) (c : Nat) : ForegroundEffect s (hsSendStep c s) := by
  apply effect_write h (signatureBytes s)
    (fun t => if c + 1 < sigRepeat then setPhase (.hsSend (c + 1)) t else { t with phase := .hsRecv, hsWin := [] })
    (fun t => t)
  · intro t
    by_cases hc : c + 1 < sigRepeat
    · rw [if_pos hc]
      exact ⟨rfl, rfl, rfl, rfl, rfl, fun hb => ⟨hc, hb.2⟩⟩
    · rw [if_neg hc]
      exact ⟨rfl, rfl, rfl, rfl, rfl, fun hb => ⟨trivial, by simp, hb.2.2⟩⟩
  · exact effect_self h

theorem effect_hsRecv {s : State} (h : QueuesReady s) : ForegroundEffect s (hsRecvStep s) := by
  unfold hsRecvStep
  cases s.cfg.handshakeMatch
  · apply effect_readByte h
      (fun b t => if slideWindow t.hsWin b = signatureBytes t then
        setPhase .srvRead { t with hsWin := slideWindow t.hsWin b } else { t with hsWin := slideWindow t.hsWin b })
      (fun t => t)
    · intro b t
      have hl := slideWindow_length t.hsWin b
      by_cases hc : slideWindow t.hsWin b = signatureBytes t
      · rw [if_pos hc]
        exact ⟨rfl, rfl, rfl, rfl, rfl, fun hb => ⟨trivial, hl, hb.2.2⟩⟩
      · rw [if_neg hc]
        exact ⟨rfl, rfl, rfl, rfl, rfl, fun hb => ⟨hb.1, hl, hb.2.2⟩⟩
    · exact effect_self h
  · apply effect_read h sigLen
      (fun w t => if w = signatureBytes t then setPhase .srvRead t else t) (fun t => t)
    · intro w t _
      by_cases hc : w = signatureBytes t
      · rw [if_pos hc]
        exact ⟨rfl, rfl, rfl, rfl, rfl, fun hb => ⟨trivial, hb.2⟩⟩
      · rw [if_neg hc]
        exact ⟨rfl, rfl, rfl, rfl, rfl, fun hb => hb⟩
    · exact effect_self h

theorem effect_srvRead {s : State} (h : QueuesReady s) : ForegroundEffect s (srvReadStep s) := by
  apply effect_read h shortLen (fun p t => { t with req := p, phase := .srvDispatch }) (fun t => t)
  · exact fun p t hp => ⟨rfl, rfl, rfl, rfl, rfl, fun hb => ⟨trivial, hb.2.1, hp, hb.2.2.2⟩⟩
  · exact effect_self h

theorem effect_dispatchRequest {s : State} (h : QueuesReady s) (r : Request) :
    ForegroundEffect s (dispatchRequest r s) := by
  unfold dispatchRequest
  cases r with
  | functionPoints sel =>
    dsimp only
    split
    · exact effect_quiet h rfl rfl rfl rfl rfl (fun hb => ⟨trivial, hb.2.1, hb.2.2.1, hb.2.2.2.1, Nat.zero_lt_succ 255⟩)
    · exact effect_quiet h rfl rfl rfl rfl rfl (fun hb => ⟨trivial, hb.2⟩)
  | initialApproximations =>
    dsimp only
    split
    · have hl : ∀ a b : F64, (encodeApprox a b).length ≤ shortLen := fun a b => by
        simp [encodeApprox, le8_length, shortLen]
      unfold callApprox
      split
      · exact effect_quiet h rfl rfl rfl rfl rfl
          (fun hb => ⟨trivial, hb.2.1, hb.2.2.1, hl _ _, hb.2.2.2.2⟩)
      · exact effect_quiet h rfl rfl rfl rfl rfl
          (fun hb => ⟨trivial, hb.2.1, hb.2.2.1, hl _ _, hb.2.2.2.2⟩)
    · exact effect_quiet h rfl rfl rfl rfl rfl (fun hb => ⟨trivial, hb.2⟩)
  | computeRoot eps mode =>
    dsimp only
    split
    · unfold callRoot
      split
      · exact effect_quiet h rfl rfl rfl rfl rfl
          (fun hb => ⟨trivial, hb.2.1, hb.2.2.1, by simp [prepareShort, encodeRoot_length, shortLen], hb.2.2.2.2⟩)
      · exact effect_quiet h rfl rfl rfl rfl rfl
          (fun hb => ⟨trivial, hb.2.1, hb.2.2.1, by simp [prepareShort, encodeRoot_length, shortLen], hb.2.2.2.2⟩)
    · exact effect_quiet h rfl rfl rfl rfl rfl (fun hb => ⟨trivial, hb.2⟩)

theorem effect_srvDispatch {s : State} (h : QueuesReady s) : ForegroundEffect s (srvDispatchStep s) := by
  unfold srvDispatchStep
  split
  · exact effect_dispatchRequest h _
  · exact effect_quiet h rfl rfl rfl rfl rfl (fun hb => hb)

theorem effect_srvSend {s : State} (h : QueuesReady s) : ForegroundEffect s (srvSendStep s) := by
  apply effect_write h s.out (fun t => setPhase .srvRead t) (fun t => t)
  · exact fun t => ⟨rfl, rfl, rfl, rfl, rfl, fun hb => ⟨trivial, hb.2⟩⟩
  · exact effect_self h

theorem effect_srvPoints {s : State} (h : QueuesReady s) : ForegroundEffect s (srvPointsStep s) := by
  unfold srvPointsStep callPoints
  dsimp only
  split
  · exact effect_quiet h rfl rfl rfl rfl rfl
      (fun hb => ⟨trivial, hb.2.1, hb.2.2.1, by simp [preparePoint, encodePoint_length, shortLen], hb.2.2.2.2⟩)
  · exact effect_quiet h rfl rfl rfl rfl rfl
      (fun hb => ⟨trivial, hb.2.1, hb.2.2.1, by simp [preparePoint, encodePoint_length, shortLen], hb.2.2.2.2⟩)

/-- The sequencer's move after a point is written, as one update (R264). -/
theorem afterPoint_eq (s : State) :
    afterPoint s = { s with
      k := if s.k < 255 then s.k + 1 else if s.pass = .first ∧ isSystem s.sel = true then 0 else s.k
      pass := if s.k < 255 then s.pass else if s.pass = .first ∧ isSystem s.sel = true then .second else s.pass
      phase := if s.k < 255 ∨ (s.pass = .first ∧ isSystem s.sel = true) then .srvPoints else .srvRead } := by
  unfold afterPoint
  by_cases hk : s.k < 255
  · simp [hk, pointsPerPass]
  · obtain ⟨p, hp⟩ : ∃ p, s.pass = p := ⟨_, rfl⟩
    obtain ⟨l, hl⟩ : ∃ l, s.sel = l := ⟨_, rfl⟩
    cases p <;> cases l <;> simp [hk, hp, hl, pointsPerPass, isSystem, setPhase]

theorem effect_srvPtSend {s : State} (h : QueuesReady s) : ForegroundEffect s (srvPtSendStep s) := by
  apply effect_write h s.out afterPoint (fun t => t)
  · intro t
    rw [afterPoint_eq]
    refine ⟨rfl, rfl, rfl, rfl, rfl, fun hb => ⟨?_, hb.2.1, hb.2.2.1, hb.2.2.2.1, ?_⟩⟩
    · by_cases hc : t.k < 255 ∨ (t.pass = .first ∧ isSystem t.sel = true)
      · rw [if_pos hc]
        exact trivial
      · rw [if_neg hc]
        exact trivial
    · have hk : t.k < 256 := hb.2.2.2.2
      dsimp only [pointsPerPass]
      split
      · omega
      · split <;> omega
  · exact effect_self h

theorem effect_sequencer {s : State} (h : QueuesReady s) : ForegroundEffect s (sequencerStep s) := by
  unfold sequencerStep
  split
  · exact effect_hsSend h _
  · exact effect_hsRecv h
  · exact effect_srvRead h
  · exact effect_srvDispatch h
  · exact effect_srvSend h
  · exact effect_srvPoints h
  · exact effect_srvPtSend h

/-- The effect survives a result, and a phase set before the sequencer's step. -/
theorem effect_endWith {s t : State} (h : ForegroundEffect s t) (r : OpResult) :
    ForegroundEffect s (endWith r t) := by
  refine ⟨?_, h.sends, h.takes, h.framer⟩
  have := h.frame
  unfold endWith
  rw [this]

theorem effect_fromPhase {s t : State} (p : Phase) (hp : LegalPhase p) (h : ForegroundEffect (setPhase p s) t) :
    ForegroundEffect s t :=
  ⟨h.frame, h.sends, h.takes, fun hb => h.framer ⟨hp, hb.2⟩⟩

theorem effect_handshakeOp {s : State} (h : QueuesReady s) : ForegroundEffect s (handshakeOp s) := by
  unfold handshakeOp
  apply effect_endWith
  split
  · exact effect_sequencer h
  · exact effect_fromPhase (.hsSend 0) (by decide) (effect_sequencer h)

theorem effect_serveOp {s : State} (h : QueuesReady s) : ForegroundEffect s (serveOp s) := by
  unfold serveOp
  apply effect_endWith
  split
  · exact effect_fromPhase .srvRead trivial (effect_sequencer h)
  · exact effect_sequencer h

theorem effect_signatureStep {s : State} (h : QueuesReady s) : ForegroundEffect s (signatureStep s) := by
  unfold signatureStep
  apply effect_endWith
  split
  · exact effect_sequencer h
  · exact effect_fromPhase (.hsSend 0) (by decide) (effect_sequencer h)

theorem effect_streamStep {s : State} (h : QueuesReady s) (p : Pass) (ps : List Point) :
    ForegroundEffect s (streamStep p ps s) := by
  unfold streamStep
  split
  · exact effect_endWith (effect_srvPtSend h) _
  · apply effect_endWith
    refine effect_quiet h rfl rfl rfl rfl rfl (fun hb => ⟨trivial, hb.2.1, hb.2.2.1, ?_, ?_⟩)
    · simp [preparePoint, encodePoint_length, shortLen]
    · show nextRecord p s < pointsPerPass
      unfold nextRecord
      split
      · exact hb.2.2.2.2
      · decide

theorem effect_short {s : State} (h : QueuesReady s) (bs : List Byte) (hl : bs.length = 16) :
    ForegroundEffect s (prepareShort bs s) :=
  effect_quiet h rfl rfl rfl rfl rfl (fun hb => ⟨trivial, hb.2.1, hb.2.2.1, by simp [prepareShort, hl, shortLen], hb.2.2.2.2⟩)

theorem effect_endAttempt {s : State} {r : OpResult × State} (h : ForegroundEffect s r.2) :
    ForegroundEffect s (endAttempt r) := effect_endWith h _

/-- What any instruction issued by the foreground can do. -/
theorem exec_effect (i : Instr) {s : State} (h : QueuesReady s) (hi : s.issuer = .fg) :
    ∃ t, exec i s = .next t ∧ ForegroundEffect s t := by
  have quiet : ∀ {t}, ForegroundFrame s t → t.rxq = s.rxq → t.txq = s.txq → t.txState = s.txState →
      t.udrie = s.udrie → (FramerBounded s → FramerBounded t) → ForegroundEffect s t :=
    fun a b c d e f => effect_quiet h a b c d e f
  cases i with
  | csEnter => exact ⟨_, rfl, effect_issue h (fun _ => quiet rfl rfl rfl rfl rfl (fun hb => hb))⟩
  | csExit t => exact ⟨_, rfl, effect_issueChecked h (fun _ => quiet rfl rfl rfl rfl rfl (fun hb => hb))⟩
  | rbPushBackRxq v => exact ⟨_, rfl, effect_issue h (fun hm => by simp [hi] at hm)⟩
  | rbPopFrontRxq => exact ⟨_, rfl, effect_issue h (fun hm => by simp [hi] at hm)⟩
  | rbSizeRxq => exact ⟨_, rfl, effect_issue h (fun hm => by simp [hi] at hm)⟩
  | rbPushBackTxq v => exact ⟨_, rfl, effect_issue h (fun hm => by simp [hi] at hm)⟩
  | rbPopFrontTxq => exact ⟨_, rfl, effect_issue h (fun hm => by simp [hi] at hm)⟩
  | rbSizeTxq => exact ⟨_, rfl, effect_issue h (fun hm => by simp [hi] at hm)⟩
  | isrUsartRx => exact ⟨_, rfl, effect_issue h (fun hm => by simp [hi] at hm)⟩
  | isrUsartUdre => exact ⟨_, rfl, effect_issue h (fun hm => by simp [hi] at hm)⟩
  | isrPcint => exact ⟨_, rfl, effect_issue h (fun hm => by simp [hi] at hm)⟩
  | isrTimer => exact ⟨_, rfl, effect_issue h (fun hm => by simp [hi] at hm)⟩
  | timerArm d => exact ⟨_, rfl, effect_issueChecked h (fun hm => by simp [hi] at hm)⟩
  | timerDisable => exact ⟨_, rfl, effect_issue h (fun hm => by simp [hi] at hm)⟩
  | writeByte b =>
    refine ⟨_, rfl, effect_issue h (fun _ => effect_endAttempt ?_)⟩
    rcases writeByteAttempt_spec b s h.2.2 with ⟨_, e⟩ | ⟨_, q, e, ha⟩
    · rw [e]
      exact effect_self h
    · rw [e]
      exact ⟨rfl, ⟨[b], ha, by simp, by simp⟩, takes_nothing h rfl, fun hb => hb⟩
  | write bs =>
    refine ⟨_, rfl, effect_issue h (fun _ => effect_endAttempt ?_)⟩
    rcases writeAttempt_spec bs s h.1 h.2.2 with ⟨_, e⟩ | ⟨_, q, e, ha⟩
    · rw [e]
      exact effect_self h
    · rw [e]
      exact ⟨rfl, ⟨bs, ha, rfl, rfl⟩, takes_nothing h rfl, fun hb => hb⟩
  | readByte =>
    refine ⟨_, rfl, effect_issue h (fun _ => effect_endAttempt ?_)⟩
    rcases readByteAttempt_spec s h.2.1 with ⟨_, e⟩ | ⟨b, q, _, hr, e⟩
    · rw [e]
      exact effect_self h
    · rw [e]
      exact ⟨rfl, sends_nothing h rfl rfl rfl, ⟨[b], hr⟩, fun hb => hb⟩
  | read len =>
    refine ⟨_, rfl, effect_issue h (fun _ => effect_endAttempt ?_)⟩
    rcases readAttempt_spec (lengthOf len) s h.2.1 with ⟨_, e⟩ | ⟨_, q, e, hr⟩
    · rw [e]
      exact effect_self h
    · rw [e]
      exact ⟨rfl, sends_nothing h rfl rfl rfl, ⟨_, hr⟩, fun hb => hb⟩
  | frHandshake => exact ⟨_, rfl, effect_issue h (fun _ => effect_handshakeOp h)⟩
  | frServeOne => exact ⟨_, rfl, effect_issue h (fun _ => effect_serveOp h)⟩
  | reqPointsSingle index => exact ⟨_, rfl, effect_dispatchRequest h _⟩
  | reqPointsSystem index => exact ⟨_, rfl, effect_dispatchRequest h _⟩
  | reqApproximations => exact ⟨_, rfl, effect_dispatchRequest h _⟩
  | reqRootChord eps e => exact ⟨_, rfl, effect_dispatchRequest h _⟩
  | reqRootSecant eps e => exact ⟨_, rfl, effect_dispatchRequest h _⟩
  | reqRootSimpleIteration eps e => exact ⟨_, rfl, effect_dispatchRequest h _⟩
  | reqRootSystem eps e => exact ⟨_, rfl, effect_dispatchRequest h _⟩
  | rspApproximations l r => exact ⟨_, rfl, effect_short h _ (by simp [encodeApprox, le8_length])⟩
  | rspRootOk x y => exact ⟨_, rfl, effect_short h _ (encodeRoot_length _)⟩
  | rspRootNoRoot => exact ⟨_, rfl, effect_short h _ (encodeRoot_length _)⟩
  | rspRootMoreThanOne => exact ⟨_, rfl, effect_short h _ (encodeRoot_length _)⟩
  | rspRootDiverges => exact ⟨_, rfl, effect_short h _ (encodeRoot_length _)⟩
  | rspPointsFirst ps => exact ⟨_, rfl, effect_streamStep h _ _⟩
  | rspPointsSecond ps => exact ⟨_, rfl, effect_streamStep h _ _⟩
  | sigSignature => exact ⟨_, rfl, effect_signatureStep h⟩

end Sys2Proof.Laws
end

