-- ==== Sys2Proof/Laws/Step.lean ====
section
/-! SUPPORT. What a step of the block can do, said once for each agent (R16, R89): the interrupt dispatcher takes one ISR
body, the foreground has a foreground effect, and the other agents have their own rules. -/

namespace Sys2Proof.Laws

open Sys2Proof.Machine Sys2Proof.Safety

/-! ## Interrupt service routines -/

/-- The body of a source's ISR (R352). -/
def isrBody : Source → State → State
  | .usartRx => usartRxBody
  | .usartUdre => usartUdreBody
  | .pinChange => pcintBody
  | .timer => timerBody

theorem usartRxBody_eq (s : State) :
    usartRxBody s = { s with
      rxDr := none
      rxc := false
      rxq := match s.rxDr with
        | some b => (ringPush s.cfg.rxqN b s.rxq).2
        | none => s.rxq } := by
  obtain ⟨d, hd⟩ : ∃ d, s.rxDr = d := ⟨_, rfl⟩
  cases d with
  | some b =>
    simp only [usartRxBody, hd, queuePush_eq]
    rfl
  | none =>
    simp only [usartRxBody, hd]

theorem usartUdreBody_eq (s : State) :
    usartUdreBody s =
      match ringPop s.cfg.txqN s.txq with
      | (some b, q) => { s with txq := q, txDr := some b, udre := false }
      | (none, q) => { s with txq := q, txState := .idle, udrie := false } := by
  simp only [usartUdreBody, queuePop_eq, capacity, getQueue, setQueue]
  generalize ringPop s.cfg.txqN s.txq = r
  obtain ⟨a, q⟩ := r
  cases a <;> rfl

theorem usartRxBody_setGie (b : Bool) (s : State) : usartRxBody (setGie b s) = setGie b (usartRxBody s) := by
  rw [usartRxBody_eq, usartRxBody_eq]
  rfl

theorem usartUdreBody_setGie (b : Bool) (s : State) : usartUdreBody (setGie b s) = setGie b (usartUdreBody s) := by
  rw [usartUdreBody_eq, usartUdreBody_eq]
  simp only [setGie_cfg, setGie_txq]
  generalize ringPop s.cfg.txqN s.txq = r
  obtain ⟨a, q⟩ := r
  cases a <;> rfl

theorem pcintBody_setGie (b : Bool) (s : State) : pcintBody (setGie b s) = setGie b (pcintBody s) := by
  rw [pcintBody_eq, pcintBody_eq]
  rfl

theorem timerBody_setGie (b : Bool) (s : State) : timerBody (setGie b s) = setGie b (timerBody s) := by
  rw [timerBody_eq, timerBody_eq]
  rfl

theorem isrBody_setGie (src : Source) (b : Bool) (s : State) : isrBody src (setGie b s) = setGie b (isrBody src s) := by
  cases src
  · exact usartRxBody_setGie b s
  · exact usartUdreBody_setGie b s
  · exact pcintBody_setGie b s
  · exact timerBody_setGie b s

/-- An ISR leaves everything but its devices' registers and queues alone (R356). -/
theorem isrBody_frame (src : Source) (s : State) :
    isrBody src s = { s with
      rxq := (isrBody src s).rxq, rxDr := (isrBody src s).rxDr, rxc := (isrBody src s).rxc
      txq := (isrBody src s).txq, txDr := (isrBody src s).txDr, udre := (isrBody src s).udre
      txState := (isrBody src s).txState, udrie := (isrBody src s).udrie
      pcif := (isrBody src s).pcif, btn := (isrBody src s).btn, tmr := (isrBody src s).tmr
      press := (isrBody src s).press } := by
  cases src
  · simp only [isrBody]
    rw [usartRxBody_eq]
  · simp only [isrBody]
    rw [usartUdreBody_eq]
    generalize ringPop s.cfg.txqN s.txq = r
    obtain ⟨a, q⟩ := r
    cases a <;> rfl
  · simp only [isrBody]
    rw [pcintBody_eq]
  · simp only [isrBody]
    rw [timerBody_eq]

/-- An ISR issued by the dispatcher runs its body when its source requests and interrupts are on, else it has no step
(R355). -/
theorem exec_isr (src : Source) {s : State} (hi : s.issuer = .int) :
    exec (isrOf src) s = .next (if s.gie = true ∧ requesting src s = true then isrBody src s else s) := by
  have hm : s.issuer ∈ [Issuer.int] := by simp [hi]
  have h : exec (isrOf src) s = .next (takeInterrupt src (isrBody src) s) := by
    cases src <;> simp only [isrOf, exec, execIsrUsartRx, execIsrUsartUdre, execIsrPcint, execIsrTimer,
      issue_allowed hm, isrBody]
  rw [h]
  rcases takeInterrupt_cases src (isrBody src) s with ⟨hg, hr, e⟩ | ⟨hn, e⟩
  · rw [e, isrBody_setGie, if_pos ⟨hg, hr⟩]
    have hb : (isrBody src s).gie = true := by
      rw [isrBody_frame]
      exact hg
    unfold setGie
    rw [← hb]
  · rw [e, if_neg]
    rcases hn with hn | hn <;> simp [hn]

/-! ## The agents' steps -/

/-- What a step of the foreground changes at most. -/
abbrev StepFrame (s t : State) : Prop :=
  t = { s with
    gie := t.gie, fault := t.fault, refused := t.refused, refusals := t.refusals
    rxq := t.rxq, txq := t.txq, txState := t.txState, udrie := t.udrie
    phase := t.phase, idx := t.idx, hsWin := t.hsWin, req := t.req, pass := t.pass, k := t.k, out := t.out
    sel := t.sel, issuer := t.issuer, result := t.result, tokens := t.tokens
    turns := t.turns, turnNo := t.turnNo, approxAnswers := t.approxAnswers, pointAnswers := t.pointAnswers
    rootAnswers := t.rootAnswers, draws := t.draws, calls := t.calls }

/-- What a step of the foreground can do. -/
structure ForegroundStep (s t : State) : Prop where
  frame : StepFrame s t
  sends : ∃ bs, Sends s bs t
  takes : ∃ bs, Removed s.cfg.rxqN s.rxq bs t.rxq
  framer : FramerBounded s → FramerBounded t

theorem foregroundStep_turn {s : State} (h : QueuesReady s) : ForegroundStep s (takeTurn s) :=
  ⟨rfl, sends_nothing h rfl rfl rfl, takes_nothing h rfl, fun hb => hb⟩

theorem foregroundStep_of_effect {s u t : State} (hu : u = { s with
      issuer := u.issuer, req := u.req, turns := u.turns, turnNo := u.turnNo })
    (hf : FramerBounded s → FramerBounded u) (h : ForegroundEffect u t) : ForegroundStep s t := by
  obtain ⟨hfr, hs, ht, hb⟩ := h
  rw [hu] at hfr hs ht
  exact ⟨by rw [hfr], hs, ht, fun k => hb (hf k)⟩

theorem settle_frame (e : PortEntry) (i : Instr) (t : State) :
    settle e i t = { t with idx := (settle e i t).idx, tokens := (settle e i t).tokens } := by
  unfold settle
  split
  · unfold keepToken
    split <;> rfl
  · rfl

theorem foregroundStep_settle {s t : State} (e : PortEntry) (i : Instr) (h : ForegroundStep s t) :
    ForegroundStep s (settle e i t) := by
  obtain ⟨hfr, hs, ht, hb⟩ := h
  rw [settle_frame]
  exact ⟨by rw [hfr], hs, ht, hb⟩

theorem present_frame (e : PortEntry) (s : State) :
    present e s = { s with issuer := e.issuer, req := (present e s).req } := by
  unfold present
  cases e.cls <;> rfl

theorem present_issuer (e : PortEntry) (s : State) : (present e s).issuer = e.issuer := by
  rw [present_frame]

/-- A request unit that decodes or raises its fault has sixteen bytes. -/
theorem request_length {sig : BitVec 64} {bs : List Byte} :
    (∀ i, decodeUnit sig .request bs = .ok i → bs.length = shortLen) ∧
    (∀ c, decodeUnit sig .request bs = .error (.malformed c) → bs.length = shortLen) := by
  constructor <;>
  · intro x hx
    by_contra hn
    simp [decodeUnit, decodeRequestUnit, hn] at hx

theorem decodeOp_not_malformed (bs : List Byte) (c : FaultCode) : decodeOp bs ≠ .error (.malformed c) := by
  unfold decodeOp withByte withLength withString
  (repeat' split) <;> simp

/-- The issuing state keeps the framer's ranges, unless its unit is refused as incomplete. -/
theorem present_framer {e : PortEntry} {s : State} (hb : FramerBounded s)
    (h : e.cls = .request → (issuedBytes e s).length = shortLen) : FramerBounded (present e s) := by
  unfold present
  cases hc : e.cls with
  | request => exact ⟨hb.1, hb.2.1, h hc, hb.2.2.2⟩
  | operation => exact hb
  | response k => exact hb
  | signature => exact hb

theorem issueEntry_step {s t : State} {e : PortEntry} (h : QueuesReady s) (he : e.issuer = .fg)
    (hs : issueEntry e (takeTurn s) = .next t) : ForegroundStep s t := by
  have hq : QueuesReady (present e (takeTurn s)) := by
    rw [present_frame]
    exact h
  have hu : present e (takeTurn s) = { s with
      issuer := (present e (takeTurn s)).issuer, req := (present e (takeTurn s)).req
      turns := (present e (takeTurn s)).turns, turnNo := (present e (takeTurn s)).turnNo } := by
    rw [present_frame]
    rfl
  unfold issueEntry at hs
  split at hs
  · next i hd =>
    obtain ⟨u, hx, hef⟩ := exec_effect i hq (by rw [present_issuer, he])
    rw [hx] at hs
    simp only [mapNext, Host.Outcome.next.injEq] at hs
    rw [← hs]
    apply foregroundStep_settle
    refine foregroundStep_of_effect hu (fun hb => present_framer hb (fun hc => ?_)) hef
    rw [hc] at hd
    exact request_length.1 _ hd
  · next hd =>
    simp only [Host.Outcome.next.injEq] at hs
    rw [← hs]
    refine foregroundStep_of_effect hu (fun hb => present_framer hb (fun hc => ?_)) (effect_refuse hq _)
    exfalso
    rw [hc] at hd
    simp only [decodeUnit, decodeRequestUnit] at hd
    split at hd
    · split at hd <;> cases hd
    · cases hd
  · next c hd =>
    simp only [Host.Outcome.next.injEq] at hs
    rw [← hs]
    refine foregroundStep_of_effect hu (fun hb => present_framer hb (fun hc => ?_))
      (effect_quiet hq rfl rfl rfl rfl rfl (fun k => k))
    rw [hc] at hd
    exact request_length.2 _ hd
  · cases hs
  · cases hs

/-- A foreground turn of a block whose client issues as the foreground. -/
theorem foregroundStep_step {s t : State} (h : QueuesReady s) (hc : ForegroundClient s)
    (hs : foregroundStep (takeTurn s) = .next t) : ForegroundStep s t := by
  unfold foregroundStep at hs
  split at hs
  · split at hs
    · simp only [Host.Outcome.next.injEq] at hs
      rw [← hs]
      exact foregroundStep_turn h
    · have hq : QueuesReady { takeTurn s with issuer := .fg } := h
      obtain ⟨u, hx, hef⟩ := exec_effect (engineInstr (takeTurn s)) hq rfl
      rw [hx] at hs
      simp only [Host.Outcome.next.injEq] at hs
      rw [← hs]
      exact foregroundStep_of_effect (u := { takeTurn s with issuer := .fg }) rfl (fun hb => hb) hef
  · split at hs
    · simp only [Host.Outcome.next.injEq] at hs
      rw [← hs]
      exact foregroundStep_turn h
    · next e he =>
      split at hs
      · simp only [Host.Outcome.next.injEq] at hs
        rw [← hs]
        exact foregroundStep_turn h
      · exact issueEntry_step h (hc e (List.mem_of_getElem? he)) hs

/-- What a dispatcher's turn can do. -/
theorem interruptStep_next {src : Source} {s t : State} (h : interruptStep src s = .next t) :
    (s.gie = true ∧ requesting src s = true ∧ t = isrBody src { s with issuer := .int }) ∨
    ((s.gie = false ∨ requesting src s = false ∨ stopped .int s = true) ∧ t = s) := by
  unfold interruptStep at h
  split at h
  · next hc =>
    rw [exec_isr src (s := { s with issuer := .int }) rfl] at h
    simp only [Bool.and_eq_true, Bool.not_eq_true'] at hc
    have hr : requesting src { s with issuer := .int } = true := by
      rw [← hc.1.2]
      cases src <;> rfl
    rw [if_pos ⟨hc.1.1, hr⟩] at h
    simp only [Host.Outcome.next.injEq] at h
    exact .inl ⟨hc.1.1, hc.1.2, h.symm⟩
  · next hc =>
    simp only [Host.Outcome.next.injEq] at h
    refine .inr ⟨?_, h.symm⟩
    simp only [Bool.and_eq_true, Bool.not_eq_true', not_and, Bool.not_eq_false] at hc
    cases hg : s.gie
    · exact .inl rfl
    · cases hr : requesting src s
      · exact .inr (.inl rfl)
      · exact .inr (.inr (hc ⟨hg, hr⟩))

/-- What a step of a block whose client issues as the foreground can do. -/
theorem step_next_cases {s t : State} (h : QueuesReady s) (hc : ForegroundClient s) (hs : step s = .next t) :
    configLegal s.cfg = true ∧ s.fault = none ∧
    ((s.booted = false ∧ t = boot s) ∨
    (s.booted = true ∧
      ((nextTurn s = .fg ∧ ForegroundStep s t) ∨
      (∃ src, nextTurn s = .int src ∧
        ((s.gie = true ∧ requesting src s = true ∧ t = isrBody src { takeTurn s with issuer := .int }) ∨
        ((s.gie = false ∨ requesting src s = false ∨ stopped .int s = true) ∧ t = takeTurn s))) ∨
      (nextTurn s = .lineTx ∧ t = lineTxStep (takeTurn s)) ∨
      (nextTurn s = .host ∧ t = hostStep (takeTurn s)) ∨
      (∃ i, nextTurn s = .pins i ∧ t = pinsStep i (takeTurn s)) ∨
      (nextTurn s = .timebase ∧ t = timebaseStep (takeTurn s))))) := by
  rcases step_cases s with ⟨_, e⟩ | ⟨_, c, _, e⟩ | ⟨hl, hf, hb, e⟩ | ⟨hl, hf, hb, e⟩
  · rw [e] at hs
    cases hs
  · rw [e] at hs
    cases hs
  · rw [e] at hs
    simp only [Host.Outcome.next.injEq] at hs
    exact ⟨hl, hf, .inl ⟨hb, hs.symm⟩⟩
  · refine ⟨hl, hf, .inr ⟨hb, ?_⟩⟩
    rw [e] at hs
    cases hn : nextTurn s with
    | fg =>
      rw [hn] at hs
      exact .inl ⟨rfl, foregroundStep_step h hc hs⟩
    | int src =>
      rw [hn] at hs
      exact .inr (.inl ⟨src, rfl, interruptStep_next (s := takeTurn s) hs⟩)
    | lineTx =>
      rw [hn] at hs
      simp only [agentStep, Host.Outcome.next.injEq] at hs
      exact .inr (.inr (.inl ⟨rfl, hs.symm⟩))
    | host =>
      rw [hn] at hs
      simp only [agentStep, Host.Outcome.next.injEq] at hs
      exact .inr (.inr (.inr (.inl ⟨rfl, hs.symm⟩)))
    | pins i =>
      rw [hn] at hs
      simp only [agentStep, Host.Outcome.next.injEq] at hs
      exact .inr (.inr (.inr (.inr (.inl ⟨i, rfl, hs.symm⟩))))
    | timebase =>
      rw [hn] at hs
      simp only [agentStep, Host.Outcome.next.injEq] at hs
      exact .inr (.inr (.inr (.inr (.inr ⟨rfl, hs.symm⟩))))

end Sys2Proof.Laws
end

