-- ==== Sys2Proof/Laws/Frame.lean ====
section
/-! SUPPORT. What no instruction changes, whoever issues it and in whatever state (R41 to R46, R92, R401): the frame of
every meaning. -/

namespace Sys2Proof.Laws

open Sys2Proof.Machine Sys2Proof.Safety

/-- The fields an instruction may change: all but the configuration, boot, the hardwired enables, the overrun flag, the
line, the host's bytes, the pins, the port, the client's position and tokens, the issuer and the turns. -/
abbrev InstrFrame (s t : State) : Prop :=
  t = { s with
    gie := t.gie, fault := t.fault, refused := t.refused, refusals := t.refusals
    rxq := t.rxq, txq := t.txq, txState := t.txState, udrie := t.udrie
    txDr := t.txDr, udre := t.udre, rxDr := t.rxDr, rxc := t.rxc
    btn := t.btn, pcif := t.pcif, tmr := t.tmr, press := t.press
    phase := t.phase, hsWin := t.hsWin, req := t.req, pass := t.pass, k := t.k, out := t.out, sel := t.sel
    result := t.result, approxAnswers := t.approxAnswers, pointAnswers := t.pointAnswers
    rootAnswers := t.rootAnswers, draws := t.draws, calls := t.calls }

/-- The frame together with GIE left as it was (R157, R357) and no refusal forgotten (R34, R362). -/
abbrev QuietFrame (s t : State) : Prop := InstrFrame s t ∧ t.gie = s.gie ∧ s.refusals <+: t.refusals

theorem frame_trans {s t u : State} (h : InstrFrame s t) (h' : InstrFrame t u) : InstrFrame s u := by
  unfold InstrFrame at *
  rw [h] at h'
  rw [h']

theorem quiet_trans {s t u : State} (h : QuietFrame s t) (h' : QuietFrame t u) : QuietFrame s u :=
  ⟨frame_trans h.1 h'.1, h'.2.1.trans h.2.1, h.2.2.trans h'.2.2⟩

theorem quiet_refl (s : State) : QuietFrame s s := ⟨rfl, rfl, List.prefix_rfl⟩

theorem quiet_refuse (s : State) (r : RefuseReason) : QuietFrame s (refuse r s) :=
  ⟨rfl, rfl, List.prefix_append _ _⟩

theorem quiet_endWith {s t : State} (r : OpResult) (h : QuietFrame s t) : QuietFrame s (endWith r t) :=
  quiet_trans h ⟨rfl, rfl, List.prefix_rfl⟩

theorem quiet_issue {s : State} {allowed : List Issuer} {effect : State → State} (h : QuietFrame s (effect s)) :
    QuietFrame s (issue allowed effect s) := by
  rcases issue_cases allowed effect s with ⟨_, e⟩ | ⟨_, e⟩
  · rw [e]
    exact h
  · rw [e]
    exact quiet_refuse _ _

theorem quiet_issueChecked {s : State} {legal : Bool} {allowed : List Issuer} {effect : State → State}
    (h : QuietFrame s (effect s)) : QuietFrame s (issueChecked legal allowed effect s) := by
  rcases issueChecked_cases legal allowed effect s with ⟨_, e⟩ | ⟨_, e⟩
  · rw [e]
    exact quiet_issue h
  · rw [e]
    exact quiet_refuse _ _

theorem quiet_queue (w : Queue) (q : RingBuf) (s : State) : QuietFrame s (setQueue w q s) := by
  cases w <;> exact ⟨rfl, rfl, List.prefix_rfl⟩

theorem quiet_startTransmit (s : State) : QuietFrame s (startTransmit s) := by
  rw [startTransmit_eq]
  exact ⟨rfl, rfl, List.prefix_rfl⟩

theorem quiet_write (bs : List Byte) (s : State) : QuietFrame s (writeAttempt bs s).2 := by
  rw [writeAttempt_eq]
  split
  · exact quiet_refl s
  · dsimp only
    split
    · exact ⟨rfl, rfl, List.prefix_rfl⟩
    · exact quiet_trans ⟨rfl, rfl, List.prefix_rfl⟩ (quiet_startTransmit _)

theorem quiet_writeByte (b : Byte) (s : State) : QuietFrame s (writeByteAttempt b s).2 := by
  rw [writeByteAttempt_eq]
  split
  · exact quiet_refl s
  · exact quiet_trans ⟨rfl, rfl, List.prefix_rfl⟩ (quiet_startTransmit _)

theorem quiet_readByte (s : State) : QuietFrame s (readByteAttempt s).2 := by
  rw [readByteAttempt_eq]
  split <;> exact ⟨rfl, rfl, List.prefix_rfl⟩

theorem quiet_read (len : Nat) (s : State) : QuietFrame s (readAttempt len s).2 := by
  rw [readAttempt_eq]
  split <;> exact ⟨rfl, rfl, List.prefix_rfl⟩

/-- A phase that attempts something and then moves the framer. -/
theorem quiet_attempt {s : State} {r : OpResult × State} (h : QuietFrame s r.2) {t : State}
    (ht : QuietFrame r.2 t) : QuietFrame s t := quiet_trans h ht

theorem quiet_dispatchRequest (r : Request) (s : State) : QuietFrame s (dispatchRequest r s) := by
  unfold dispatchRequest callApprox callRoot
  (repeat' split) <;> exact ⟨rfl, rfl, List.prefix_rfl⟩

theorem quiet_afterPoint (s : State) : QuietFrame s (afterPoint s) := by
  rw [afterPoint_eq]
  exact ⟨rfl, rfl, List.prefix_rfl⟩

theorem quiet_srvPtSend (s : State) : QuietFrame s (srvPtSendStep s) := by
  have h := quiet_write s.out s
  unfold srvPtSendStep
  split
  · next e =>
    rw [e] at h
    exact quiet_trans h (quiet_afterPoint _)
  · next e =>
    rw [e] at h
    exact h

theorem quiet_sequencer (s : State) : QuietFrame s (sequencerStep s) := by
  unfold sequencerStep
  split
  · next c _ =>
    have h := quiet_write (signatureBytes s) s
    unfold hsSendStep
    split
    · next e =>
      rw [e] at h
      split
      · exact quiet_trans h ⟨rfl, rfl, List.prefix_rfl⟩
      · exact quiet_trans h ⟨rfl, rfl, List.prefix_rfl⟩
    · next e =>
      rw [e] at h
      exact h
  · unfold hsRecvStep
    split
    · have h := quiet_readByte s
      unfold hsRecvSliding
      split
      · next e =>
        rw [e] at h
        dsimp only
        split <;> exact quiet_trans h ⟨rfl, rfl, List.prefix_rfl⟩
      · next e =>
        rw [e] at h
        exact h
    · have h := quiet_read sigLen s
      unfold hsRecvChunked
      split
      · next e =>
        rw [e] at h
        split
        · exact quiet_trans h ⟨rfl, rfl, List.prefix_rfl⟩
        · exact h
      · next e =>
        rw [e] at h
        exact h
  · have h := quiet_read shortLen s
    unfold srvReadStep
    split
    · next e =>
      rw [e] at h
      exact quiet_trans h ⟨rfl, rfl, List.prefix_rfl⟩
    · next e =>
      rw [e] at h
      exact h
  · unfold srvDispatchStep
    split
    · exact quiet_dispatchRequest _ _
    · exact ⟨rfl, rfl, List.prefix_rfl⟩
  · have h := quiet_write s.out s
    unfold srvSendStep
    split
    · next e =>
      rw [e] at h
      exact quiet_trans h ⟨rfl, rfl, List.prefix_rfl⟩
    · next e =>
      rw [e] at h
      exact h
  · unfold srvPointsStep callPoints
    dsimp only
    split <;> exact ⟨rfl, rfl, List.prefix_rfl⟩
  · exact quiet_srvPtSend s

theorem quiet_handshakeOp (s : State) : QuietFrame s (handshakeOp s) := by
  unfold handshakeOp
  apply quiet_endWith
  split
  · exact quiet_sequencer s
  · exact quiet_trans (t := setPhase (.hsSend 0) s) ⟨rfl, rfl, List.prefix_rfl⟩ (quiet_sequencer _)

theorem quiet_serveOp (s : State) : QuietFrame s (serveOp s) := by
  unfold serveOp
  apply quiet_endWith
  split
  · exact quiet_trans (t := setPhase .srvRead s) ⟨rfl, rfl, List.prefix_rfl⟩ (quiet_sequencer _)
  · exact quiet_sequencer s

theorem quiet_signatureStep (s : State) : QuietFrame s (signatureStep s) := by
  unfold signatureStep
  apply quiet_endWith
  split
  · exact quiet_sequencer s
  · exact quiet_trans (t := setPhase (.hsSend 0) s) ⟨rfl, rfl, List.prefix_rfl⟩ (quiet_sequencer _)

theorem quiet_streamStep (p : Pass) (ps : List Point) (s : State) : QuietFrame s (streamStep p ps s) := by
  unfold streamStep
  split
  · exact quiet_endWith _ (quiet_srvPtSend s)
  · exact ⟨rfl, rfl, List.prefix_rfl⟩

theorem quiet_isr (src : Source) (s : State) : QuietFrame s (takeInterrupt src (isrBody src) s) := by
  rcases takeInterrupt_cases src (isrBody src) s with ⟨hg, _, e⟩ | ⟨_, e⟩
  · rw [e, isrBody_setGie]
    refine ⟨?_, hg.symm, ?_⟩
    · rw [isrBody_frame]
      rfl
    · rw [isrBody_frame]
      exact List.prefix_rfl
  · rw [e]
    exact quiet_refl s

/-- Every instruction answers a next state, within its frame; only CS.ENTER and CS.EXIT change GIE (R32). -/
theorem exec_frame (i : Instr) (s : State) :
    ∃ t, exec i s = .next t ∧ InstrFrame s t ∧ s.refusals <+: t.refusals ∧
      (t.gie = s.gie ∨ i = .csEnter ∨ ∃ b, i = .csExit b) := by
  have quiet : ∀ {t}, exec i s = .next t → QuietFrame s t →
      ∃ t, exec i s = .next t ∧ InstrFrame s t ∧ s.refusals <+: t.refusals ∧
        (t.gie = s.gie ∨ i = .csEnter ∨ ∃ b, i = .csExit b) :=
    fun e h => ⟨_, e, h.1, h.2.2, .inl h.2.1⟩
  cases i with
  | csEnter =>
    have h : InstrFrame s (issue [.fg, .internal] (fun t => endWith (.okToken (csEnter t).1) (csEnter t).2) s) ∧
        s.refusals <+: (issue [.fg, .internal] (fun t => endWith (.okToken (csEnter t).1) (csEnter t).2) s).refusals := by
      rcases issue_cases [.fg, .internal] (fun t => endWith (.okToken (csEnter t).1) (csEnter t).2) s with
        ⟨_, e⟩ | ⟨_, e⟩ <;> rw [e]
      · exact ⟨rfl, List.prefix_rfl⟩
      · exact ⟨rfl, List.prefix_append _ _⟩
    exact ⟨_, rfl, h.1, h.2, .inr (.inl rfl)⟩
  | csExit b =>
    have h : ∀ f, QuietFrame s (f s) ∨ f = (fun u => endWith .ok (csExit (tokenFlag b) u)) →
        InstrFrame s (f s) ∧ s.refusals <+: (f s).refusals := by
      rintro f (hq | rfl)
      · exact ⟨hq.1, hq.2.2⟩
      · exact ⟨rfl, List.prefix_rfl⟩
    refine ⟨_, rfl, ?_⟩
    rw [← and_assoc]
    refine ⟨?_, .inr (.inr ⟨b, rfl⟩)⟩
    rcases issueChecked_cases (legalToken b) [.fg, .internal] (fun u => endWith .ok (csExit (tokenFlag b) u)) s with
      ⟨_, e⟩ | ⟨_, e⟩ <;> rw [e]
    · rcases issue_cases [.fg, .internal] (fun u => endWith .ok (csExit (tokenFlag b) u)) s with
        ⟨_, e⟩ | ⟨_, e⟩ <;> rw [e]
      · exact h _ (.inr rfl)
      · exact h _ (.inl (quiet_refuse s _))
    · exact h _ (.inl (quiet_refuse s _))
  | rbPushBackRxq v =>
    refine quiet rfl (quiet_issue (quiet_endWith _ ?_))
    rw [queuePush_eq]
    exact quiet_queue .rxq _ s
  | rbPopFrontRxq =>
    refine quiet rfl (quiet_issue (quiet_endWith _ ?_))
    rw [queuePop_eq]
    exact quiet_queue .rxq _ s
  | rbSizeRxq => exact quiet rfl (quiet_issue (quiet_endWith _ ⟨rfl, rfl, List.prefix_rfl⟩))
  | rbPushBackTxq v =>
    refine quiet rfl (quiet_issue (quiet_endWith _ ?_))
    rw [queuePush_eq]
    exact quiet_queue .txq _ s
  | rbPopFrontTxq =>
    refine quiet rfl (quiet_issue (quiet_endWith _ ?_))
    rw [queuePop_eq]
    exact quiet_queue .txq _ s
  | rbSizeTxq => exact quiet rfl (quiet_issue (quiet_endWith _ ⟨rfl, rfl, List.prefix_rfl⟩))
  | writeByte b => exact quiet rfl (quiet_issue (quiet_endWith _ (quiet_writeByte b s)))
  | write bs => exact quiet rfl (quiet_issue (quiet_endWith _ (quiet_write bs s)))
  | readByte => exact quiet rfl (quiet_issue (quiet_endWith _ (quiet_readByte s)))
  | read len => exact quiet rfl (quiet_issue (quiet_endWith _ (quiet_read _ s)))
  | isrUsartRx => exact quiet rfl (quiet_issue (quiet_isr .usartRx s))
  | isrUsartUdre => exact quiet rfl (quiet_issue (quiet_isr .usartUdre s))
  | isrPcint => exact quiet rfl (quiet_issue (quiet_isr .pinChange s))
  | isrTimer => exact quiet rfl (quiet_issue (quiet_isr .timer s))
  | timerArm d => exact quiet rfl (quiet_issueChecked ⟨rfl, rfl, List.prefix_rfl⟩)
  | timerDisable => exact quiet rfl (quiet_issue ⟨rfl, rfl, List.prefix_rfl⟩)
  | frHandshake => exact quiet rfl (quiet_issue (quiet_handshakeOp s))
  | frServeOne => exact quiet rfl (quiet_issue (quiet_serveOp s))
  | reqPointsSingle index => exact quiet rfl (quiet_dispatchRequest _ s)
  | reqPointsSystem index => exact quiet rfl (quiet_dispatchRequest _ s)
  | reqApproximations => exact quiet rfl (quiet_dispatchRequest _ s)
  | reqRootChord eps e => exact quiet rfl (quiet_dispatchRequest _ s)
  | reqRootSecant eps e => exact quiet rfl (quiet_dispatchRequest _ s)
  | reqRootSimpleIteration eps e => exact quiet rfl (quiet_dispatchRequest _ s)
  | reqRootSystem eps e => exact quiet rfl (quiet_dispatchRequest _ s)
  | rspApproximations l r => exact quiet rfl ⟨rfl, rfl, List.prefix_rfl⟩
  | rspRootOk x y => exact quiet rfl ⟨rfl, rfl, List.prefix_rfl⟩
  | rspRootNoRoot => exact quiet rfl ⟨rfl, rfl, List.prefix_rfl⟩
  | rspRootMoreThanOne => exact quiet rfl ⟨rfl, rfl, List.prefix_rfl⟩
  | rspRootDiverges => exact quiet rfl ⟨rfl, rfl, List.prefix_rfl⟩
  | rspPointsFirst ps => exact quiet rfl (quiet_streamStep _ _ s)
  | rspPointsSecond ps => exact quiet rfl (quiet_streamStep _ _ s)
  | sigSignature => exact quiet rfl (quiet_signatureStep s)

end Sys2Proof.Laws
end

