-- ==== Sys2Proof/Laws/Framer.lean ====
section
/-! SUPPORT. What the framer's operations and phase steps can do (R250 to R266), said once. -/

namespace Sys2Proof.Laws

open Sys2Proof Sys2Proof.Machine Sys2Proof.Safety

/-! ## The operations run one phase step -/

/-- FR.HANDSHAKE in a handshake phase. -/
theorem exec_frHandshake_phase {s : State} (hi : s.issuer = .fg) (h : inHandshake s.phase = true) :
    exec .frHandshake s =
      .next (endWith (if inHandshake (sequencerStep s).phase then .pending else .ok) (sequencerStep s)) := by
  simp only [exec, execFrHandshake]
  rw [issue_allowed (by rw [hi]; simp)]
  simp only [handshakeOp, h, if_true]

/-- FR.HANDSHAKE when no handshake is under way starts one (log 12). -/
theorem exec_frHandshake_start {s : State} (hi : s.issuer = .fg) (h : inHandshake s.phase = false) :
    exec .frHandshake s = exec .frHandshake (setPhase (.hsSend 0) s) := by
  simp only [exec, execFrHandshake]
  rw [issue_allowed (by rw [hi]; simp), issue_allowed (show (setPhase (.hsSend 0) s).issuer ∈ _ by
    rw [show (setPhase (.hsSend 0) s).issuer = s.issuer from rfl, hi]; simp)]
  simp only [handshakeOp, h]
  rfl

/-- FR.SERVE_ONE in a serve phase. -/
theorem exec_frServeOne_phase {s : State} (hi : s.issuer = .fg) (h : inHandshake s.phase = false) :
    exec .frServeOne s =
      .next (endWith (if (sequencerStep s).phase = .srvRead ∧ s.phase ≠ .srvRead then .ok else .pending)
        (sequencerStep s)) := by
  simp only [exec, execFrServeOne]
  rw [issue_allowed (by rw [hi]; simp)]
  simp only [serveOp, h, Bool.false_eq_true, if_false]

/-! ## Phase steps -/

/-- HS_SEND(c): nothing, or the signature appended and the next phase (R250). -/
theorem hsSendStep_spec (c : Nat) {s : State} (hn : 2 ≤ s.cfg.txqN) (hw : RingWf s.cfg.txqN s.txq) :
    (txqFree s < 8 ∧ hsSendStep c s = s) ∨
    (8 ≤ txqFree s ∧ ∃ q, Appended s.cfg.txqN s.txq (signatureBytes s) q ∧
      hsSendStep c s = { s with
        txq := q
        txState := .buffering
        udrie := if s.txState = .idle then true else s.udrie
        phase := if c + 1 < 2 then .hsSend (c + 1) else .hsRecv
        hsWin := if c + 1 < 2 then s.hsWin else [] }) := by
  have hl : (signatureBytes s).length = 8 := rfl
  have hne : signatureBytes s ≠ [] := by
    intro h
    rw [h] at hl
    cases hl
  rcases writeAttempt_spec (signatureBytes s) s hn hw with ⟨h1, e⟩ | ⟨h1, q, e, ha⟩
  · refine .inl ⟨by omega, ?_⟩
    simp only [hsSendStep, e]
  · refine .inr ⟨by omega, q, ha, ?_⟩
    simp only [hsSendStep, e]
    by_cases hc : c + 1 < 2 <;> simp [hc, sigRepeat, setPhase, hne]

/-- The window of R256 is the last `min(8, len+1)` bytes. -/
theorem slideWindow_eq (w : List Byte) (b : Byte) :
    slideWindow w b = ((w ++ [b]).reverse.take (min 8 (w.length + 1))).reverse := by
  unfold slideWindow sigLen
  rw [List.take_reverse]
  simp

/-- HS_RECV in the sliding reading (R256). -/
theorem hsRecvSliding_spec {s : State} (hw : RingWf s.cfg.rxqN s.rxq) :
    (contents s.cfg.rxqN s.rxq = [] ∧ hsRecvSliding s = s) ∨
    (∃ b q, contents s.cfg.rxqN s.rxq = b :: contents s.cfg.rxqN q ∧ Removed s.cfg.rxqN s.rxq [b] q ∧
      hsRecvSliding s = { s with
        rxq := q
        hsWin := slideWindow s.hsWin b
        phase := if slideWindow s.hsWin b = signatureBytes s then .srvRead else s.phase }) := by
  rcases readByteAttempt_spec s hw with ⟨h, e⟩ | ⟨b, q, h, hr, e⟩
  · exact .inl ⟨h, by simp only [hsRecvSliding, e]⟩
  · refine .inr ⟨b, q, h, hr, ?_⟩
    simp only [hsRecvSliding, e, signatureBytes]
    by_cases hh : slideWindow s.hsWin b = le8 s.cfg.signature <;> simp [hh, setPhase]

/-- HS_RECV in the chunked reading (R257). -/
theorem hsRecvChunked_spec {s : State} (hw : RingWf s.cfg.rxqN s.rxq) :
    ((contents s.cfg.rxqN s.rxq).length < 8 ∧ hsRecvChunked s = s) ∨
    (8 ≤ (contents s.cfg.rxqN s.rxq).length ∧ ∃ q,
      Removed s.cfg.rxqN s.rxq ((contents s.cfg.rxqN s.rxq).take 8) q ∧
      hsRecvChunked s = { s with
        rxq := q
        phase := if (contents s.cfg.rxqN s.rxq).take 8 = signatureBytes s then .srvRead else s.phase }) := by
  rcases readAttempt_spec 8 s hw with ⟨h, e⟩ | ⟨h, q, e, hr⟩
  · exact .inl ⟨h, by simp only [hsRecvChunked, sigLen, e]⟩
  · refine .inr ⟨h, q, hr, ?_⟩
    simp only [hsRecvChunked, sigLen, e, signatureBytes]
    by_cases hh : (contents s.cfg.rxqN s.rxq).take 8 = le8 s.cfg.signature <;> simp [hh, setPhase]

/-- SRV_READ (R250). -/
theorem srvReadStep_spec {s : State} (hw : RingWf s.cfg.rxqN s.rxq) :
    ((contents s.cfg.rxqN s.rxq).length < 16 ∧ srvReadStep s = s) ∨
    (16 ≤ (contents s.cfg.rxqN s.rxq).length ∧ ∃ q,
      Removed s.cfg.rxqN s.rxq ((contents s.cfg.rxqN s.rxq).take 16) q ∧
      srvReadStep s =
        { s with rxq := q, req := (contents s.cfg.rxqN s.rxq).take 16, phase := .srvDispatch }) := by
  rcases readAttempt_spec 16 s hw with ⟨h, e⟩ | ⟨h, q, e, hr⟩
  · exact .inl ⟨h, by simp only [srvReadStep, shortLen, e]⟩
  · exact .inr ⟨h, q, hr, by simp only [srvReadStep, shortLen, e]⟩

/-- SRV_SEND (R250). -/
theorem srvSendStep_spec {s : State} (hn : 2 ≤ s.cfg.txqN) (hw : RingWf s.cfg.txqN s.txq) :
    (txqFree s < s.out.length ∧ srvSendStep s = s) ∨
    (s.out.length ≤ txqFree s ∧ ∃ q, Appended s.cfg.txqN s.txq s.out q ∧
      srvSendStep s = { s with
        txq := q
        txState := if s.out = [] then s.txState else .buffering
        udrie := if s.out ≠ [] ∧ s.txState = .idle then true else s.udrie
        phase := .srvRead }) := by
  rcases writeAttempt_spec s.out s hn hw with ⟨h, e⟩ | ⟨h, q, e, ha⟩
  · exact .inl ⟨h, by simp only [srvSendStep, e]⟩
  · exact .inr ⟨h, q, ha, by simp only [srvSendStep, e]; rfl⟩

/-- Step B of streaming (R264), for a record that is not empty. -/
theorem srvPtSendStep_spec {s : State} (hn : 2 ≤ s.cfg.txqN) (hw : RingWf s.cfg.txqN s.txq) (ho : s.out ≠ []) :
    (txqFree s < s.out.length ∧ srvPtSendStep s = s) ∨
    (s.out.length ≤ txqFree s ∧ ∃ q, Appended s.cfg.txqN s.txq s.out q ∧
      srvPtSendStep s = { s with
        txq := q
        txState := .buffering
        udrie := if s.txState = .idle then true else s.udrie
        k := if s.k < 255 then s.k + 1 else if s.pass = .first ∧ isSystem s.sel = true then 0 else s.k
        pass := if s.k < 255 then s.pass else if s.pass = .first ∧ isSystem s.sel = true then .second else s.pass
        phase :=
          if s.k < 255 ∨ (s.pass = .first ∧ isSystem s.sel = true) then .srvPoints else .srvRead }) := by
  rcases writeAttempt_spec s.out s hn hw with ⟨h, e⟩ | ⟨h, q, e, ha⟩
  · exact .inl ⟨h, by simp only [srvPtSendStep, e]⟩
  · refine .inr ⟨h, q, ha, ?_⟩
    simp only [srvPtSendStep, e, afterPoint_eq]
    simp [ho]

end Sys2Proof.Laws
end

