-- ==== Sys2Proof/Laws/PerInstr.lean ====
section
/-! SUPPORT. The family TableRow: every instruction's bytes select its own row of spec/opcode_table.json (R119). -/

namespace Sys2Proof.Laws.TableRow

open Sys2Proof

/-- The encoding of an instruction agrees with `match` and `mask` of its row, whatever the signature and the operands
are (R119). -/
def Statement (i : Instr) : Prop := ∀ sig, rowSelects (tableRow i) (encode sig i) = true

/-- Eight bytes that a row leaves free select it whatever they are. -/
theorem rowSelects_free (row : List (Byte × Byte)) (eps : F64) (bs : List Byte) :
    rowSelects (List.replicate 8 (0x00#8, 0x00#8) ++ row) (le8 eps ++ bs) = rowSelects row bs := by
  simp [le8, leBytes, List.replicate_succ, rowSelects]

theorem csEnter : Statement .csEnter := fun _ => rfl
theorem csExit (t : Byte) : Statement (.csExit t) := fun _ => rfl
theorem rbPushBackRxq (v : Byte) : Statement (.rbPushBackRxq v) := fun _ => rfl
theorem rbPopFrontRxq : Statement .rbPopFrontRxq := fun _ => rfl
theorem rbSizeRxq : Statement .rbSizeRxq := fun _ => rfl
theorem rbPushBackTxq (v : Byte) : Statement (.rbPushBackTxq v) := fun _ => rfl
theorem rbPopFrontTxq : Statement .rbPopFrontTxq := fun _ => rfl
theorem rbSizeTxq : Statement .rbSizeTxq := fun _ => rfl
theorem writeByte (b : Byte) : Statement (.writeByte b) := fun _ => rfl
theorem write (bs : List Byte) : Statement (.write bs) := fun _ => rfl
theorem readByte : Statement .readByte := fun _ => rfl
theorem read (len : Word16) : Statement (.read len) := fun _ => rfl
theorem isrUsartRx : Statement .isrUsartRx := fun _ => rfl
theorem isrUsartUdre : Statement .isrUsartUdre := fun _ => rfl
theorem isrPcint : Statement .isrPcint := fun _ => rfl
theorem isrTimer : Statement .isrTimer := fun _ => rfl
theorem timerArm (d : Byte) : Statement (.timerArm d) := fun _ => rfl
theorem timerDisable : Statement .timerDisable := fun _ => rfl
theorem frHandshake : Statement .frHandshake := fun _ => rfl
theorem frServeOne : Statement .frServeOne := fun _ => rfl
theorem reqPointsSingle (index : Byte) : Statement (.reqPointsSingle index) := fun _ => rfl
theorem reqPointsSystem (index : Byte) : Statement (.reqPointsSystem index) := fun _ => rfl
theorem reqApproximations : Statement .reqApproximations := fun _ => rfl
theorem reqRootChord (eps : F64) (equation : Byte) : Statement (.reqRootChord eps equation) :=
  fun _ => rowSelects_free _ eps _
theorem reqRootSecant (eps : F64) (equation : Byte) : Statement (.reqRootSecant eps equation) :=
  fun _ => rowSelects_free _ eps _
theorem reqRootSimpleIteration (eps : F64) (equation : Byte) : Statement (.reqRootSimpleIteration eps equation) :=
  fun _ => rowSelects_free _ eps _
theorem reqRootSystem (eps : F64) (system : Byte) : Statement (.reqRootSystem eps system) :=
  fun _ => rowSelects_free _ eps _
theorem rspApproximations (left right : F64) : Statement (.rspApproximations left right) := fun _ => rfl
theorem rspRootOk (x y : F64) : Statement (.rspRootOk x y) := fun _ => rfl
theorem rspRootNoRoot : Statement .rspRootNoRoot := fun _ => rfl
theorem rspRootMoreThanOne : Statement .rspRootMoreThanOne := fun _ => rfl
theorem rspRootDiverges : Statement .rspRootDiverges := fun _ => rfl
theorem rspPointsFirst (points : List Point) : Statement (.rspPointsFirst points) := fun _ => rfl
theorem rspPointsSecond (points : List Point) : Statement (.rspPointsSecond points) := fun _ => rfl
theorem sigSignature : Statement .sigSignature := fun _ => rfl

end Sys2Proof.Laws.TableRow
end

