-- ==== Sys2Proof/Tests/Slice0.lean ====
section
/-! SUPPORT. The author's own tests. Expected values come from the spec: the vectors of 95_test_vectors.md (their numbers
stand in the comments), the examples of the rules, or a hand calculation from a rule. The witnesses at the end show that
the hypotheses of each statement can be met, at the boundary values of each clause. -/

namespace Sys2Proof.Tests

open Sys2Proof Sys2Proof.Machine Sys2Proof.Safety

/-! ## Small states -/

/-- Queues of four slots, component use (the configuration of 95_test_vectors.md 2.1 and 2.3). -/
def cfg4 : Config := { defaultConfig with rxqN := 4, txqN := 4, launch := .component }

/-- Reset plus boot. -/
def booted4 : State := { resetWith cfg4 with booted := true, gie := true }

/-- Reset plus boot with the queues of the default configuration (32 slots). -/
def booted32 : State := { State.reset with booted := true, gie := true }

/-- A queue of capacity `n` with front 0 that holds `bs`. -/
def holding (n : Nat) (bs : List Byte) : RingBuf :=
  ⟨(none :: bs.map some) ++ List.replicate (n - 1 - bs.length) none, 0, (1 + bs.length) % n⟩

/-- The state after an instruction. -/
def after (i : Instr) (s : State) : Option State :=
  match exec i s with
  | .next t => some t
  | .fault _ => none
  | .refused _ => none

/-- Debouncing of four ticks, interrupts on, the dispatcher issuing (2.6). -/
def press4 : State := { booted4 with issuer := .int }

/-- The signature of 2.5. -/
def sigBytes : List Byte := [0xEF#8, 0xCD#8, 0xAB#8, 0x89#8, 0x67#8, 0x45#8, 0x23#8, 0x01#8]

/-! ## Well-formedness: one ill-formed term for each check -/

theorem test_wf_token : wellFormed (.csExit 0x02#8) = false ∧ wellFormed (.csExit 0x01#8) = true := by decide

theorem test_wf_ticks_low : wellFormed (.timerArm 0x00#8) = false ∧ wellFormed (.timerArm 0x01#8) = true := by decide

theorem test_wf_ticks_high : wellFormed (.timerArm 0x11#8) = false ∧ wellFormed (.timerArm 0x10#8) = true := by decide

theorem test_wf_string : wellFormed (.write (List.replicate 65536 0x00#8)) = false := by
  rw [wellFormed, legalString, List.length_replicate]
  decide

theorem test_wf_string_longest : wellFormed (.write (List.replicate 65535 0x00#8)) = true := by
  rw [wellFormed, legalString, List.length_replicate]
  decide

theorem test_wf_success_sentinel :
    wellFormed (.rspRootOk sentinelNaN 0x02#64) = false ∧ wellFormed (.rspRootOk sentinelNaN 0x03#64) = true := by
  decide

theorem test_wf_points_first : wellFormed (.rspPointsFirst (List.replicate 255 ⟨0#64, 0#64⟩)) = false := by
  rw [wellFormed, legalPoints, List.length_replicate]
  decide

theorem test_wf_points_second : wellFormed (.rspPointsSecond (List.replicate 257 ⟨0#64, 0#64⟩)) = false := by
  rw [wellFormed, legalPoints, List.length_replicate]
  decide

/-! ## Decoding: every row's bytes written out from R104, R112 to R116 and R109 -/

theorem test_decode_cs :
    decodeOp [0x00#8] = .ok (.csEnter, []) ∧ decodeOp [0x01#8, 0x01#8] = .ok (.csExit 0x01#8, []) := by decide

theorem test_decode_rb_rxq :
    decodeOp [0x10#8, 0x05#8] = .ok (.rbPushBackRxq 0x05#8, []) ∧ decodeOp [0x11#8] = .ok (.rbPopFrontRxq, []) ∧
      decodeOp [0x12#8] = .ok (.rbSizeRxq, []) := by decide

theorem test_decode_rb_txq :
    decodeOp [0x18#8, 0xFF#8] = .ok (.rbPushBackTxq 0xFF#8, []) ∧ decodeOp [0x19#8] = .ok (.rbPopFrontTxq, []) ∧
      decodeOp [0x1A#8] = .ok (.rbSizeTxq, []) := by decide

/-- EN1 to EN4; the length of READ has two different bytes. -/
theorem test_decode_usart :
    decodeOp [0x20#8, 0xFF#8] = .ok (.writeByte 0xFF#8, []) ∧
      decodeOp [0x21#8, 0x02#8, 0x00#8, 0x41#8, 0x42#8] = .ok (.write [0x41#8, 0x42#8], []) ∧
      decodeOp [0x22#8] = .ok (.readByte, []) ∧ decodeOp [0x23#8, 0x10#8, 0x01#8] = .ok (.read 0x0110#16, []) := by
  decide

theorem test_decode_isr :
    decodeOp [0x30#8] = .ok (.isrUsartRx, []) ∧ decodeOp [0x31#8] = .ok (.isrUsartUdre, []) ∧
      decodeOp [0x32#8] = .ok (.isrPcint, []) ∧ decodeOp [0x33#8] = .ok (.isrTimer, []) := by decide

theorem test_decode_timer_framer :
    decodeOp [0x40#8, 0x10#8] = .ok (.timerArm 0x10#8, []) ∧ decodeOp [0x41#8] = .ok (.timerDisable, []) ∧
      decodeOp [0x50#8] = .ok (.frHandshake, []) ∧ decodeOp [0x51#8] = .ok (.frServeOne, []) := by decide

/-- EN5, EN6: reserved. -/
theorem test_decode_reserved :
    decodeOp [0x13#8] = .error .reservedOpcode ∧ decodeOp [0x60#8] = .error .reservedOpcode := by decide

/-- FR1, FR2, FR4. -/
theorem test_decode_requests :
    decodeUnit 0#64 .request ([0x00#8, 0x00#8, 0x03#8] ++ List.replicate 13 0#8) = .ok (.reqPointsSingle 0x03#8) ∧
      decodeUnit 0#64 .request ([0x00#8, 0x01#8, 0x01#8] ++ List.replicate 13 0#8) = .ok (.reqPointsSystem 0x01#8) ∧
      decodeUnit 0#64 .request (0x01#8 :: List.replicate 15 0xFF#8) = .ok .reqApproximations := by decide

/-- `ComputeRoot` requests, epsilon 0.25: FR5, FR6 and the other two methods. -/
theorem test_decode_root_requests :
    let eps : List Byte := [0x00#8, 0x00#8, 0x00#8, 0x00#8, 0x00#8, 0x00#8, 0xD0#8, 0x3F#8]
    let req : List Byte → Except Reject Instr := fun m =>
      decodeUnit 0#64 .request ([0x02#8] ++ eps ++ m ++ List.replicate 4 0#8)
    req [0x00#8, 0x00#8, 0x09#8] = .ok (.reqRootChord 0x3FD0000000000000#64 0x09#8) ∧
      req [0x00#8, 0x01#8, 0x05#8] = .ok (.reqRootSecant 0x3FD0000000000000#64 0x05#8) ∧
      req [0x00#8, 0x02#8, 0x01#8] = .ok (.reqRootSimpleIteration 0x3FD0000000000000#64 0x01#8) ∧
      req [0x01#8, 0x07#8, 0xAA#8] = .ok (.reqRootSystem 0x3FD0000000000000#64 0x07#8) := by decide

/-- FR3, FR7, FR8, FR8a, FR8b: the fault of the first failing test. -/
theorem test_decode_malformed :
    decodeRequest ([0x00#8, 0x02#8] ++ List.replicate 14 0#8) = .error .panicSelection ∧
      decodeRequest (0x02#8 :: List.replicate 8 0#8 ++ [0x05#8, 0x09#8] ++ List.replicate 5 0#8)
        = .error .panicMode ∧
      decodeRequest (0x02#8 :: List.replicate 8 0#8 ++ [0x00#8, 0x03#8] ++ List.replicate 5 0#8)
        = .error .panicMethod ∧
      decodeRequest (0xFF#8 :: List.replicate 15 0#8) = .error .panicReqTag := by decide

/-- FR9, FR10, FR10a, FR11. -/
theorem test_decode_root_responses :
    let failure : Byte → List Byte := fun c =>
      [0x00#8, 0x00#8, 0x00#8, 0x00#8, 0x00#8, 0x00#8, 0xF8#8, 0x7F#8, c] ++ List.replicate 7 0#8
    decodeUnit 0#64 (.response .root) (failure 0x02#8) = .ok .rspRootDiverges ∧
      decodeUnit 0#64 (.response .root) (failure 0x01#8) = .ok .rspRootMoreThanOne ∧
      decodeUnit 0#64 (.response .root) (failure 0x00#8) = .ok .rspRootNoRoot ∧
      decodeUnit 0#64 (.response .root)
        [0x00#8, 0x00#8, 0x00#8, 0x00#8, 0x00#8, 0x00#8, 0xF8#8, 0x3F#8,
          0x00#8, 0x00#8, 0x00#8, 0x00#8, 0x00#8, 0x00#8, 0xF0#8, 0xBF#8] =
        .ok (.rspRootOk 0x3FF8000000000000#64 0xBFF0000000000000#64) := by decide

/-- FR11a. -/
theorem test_decode_approximations :
    decodeUnit 0#64 (.response .approximations)
      [0x00#8, 0x00#8, 0x00#8, 0x00#8, 0x00#8, 0x00#8, 0xF0#8, 0x3F#8,
        0x00#8, 0x00#8, 0x00#8, 0x00#8, 0x00#8, 0x00#8, 0x00#8, 0x40#8] =
      .ok (.rspApproximations 0x3FF0000000000000#64 0x4000000000000000#64) := by decide

theorem test_decode_signature :
    decodeUnit 0x0123456789ABCDEF#64 .signature sigBytes = .ok .sigSignature ∧
      decodeUnit 0x0123456789ABCDEF#64 .signature sigBytes.reverse = .error .notSignature := by decide

/-- Two records of a long packet: x then y, least significant byte first (R116). -/
theorem test_decode_records :
    decodePoints 2 (0x01#8 :: List.replicate 7 0#8 ++ (0x02#8 :: List.replicate 7 0#8)
      ++ (0x03#8 :: List.replicate 15 0#8)) = [⟨1#64, 2#64⟩, ⟨3#64, 0#64⟩] := by decide

/-- A long packet of 4096 bytes is read as the pass the receiver expects (R110), and one of 4095 is refused. -/
theorem test_decode_long_packets (ps : List Byte) (h : ps.length = 4096) :
    decodeUnit 0#64 (.response .pointsFirst) ps = .ok (.rspPointsFirst (decodePoints 256 ps)) ∧
      decodeUnit 0#64 (.response .pointsSecond) ps = .ok (.rspPointsSecond (decodePoints 256 ps)) ∧
      decodeUnit 0#64 (.response .pointsFirst) (ps.drop 1) = .error .wrongLength := by
  refine ⟨if_pos h, if_pos h, if_neg ?_⟩
  rw [List.length_drop, h]
  decide

/-! ## Critical section -/

/-- CS1: entering with interrupts on answers 1. -/
theorem test_cs_enter_on : (after .csEnter booted4).map (fun t => (t.gie, t.result)) =
    some (false, some (.okToken true)) := by decide

/-- CS1: entering again answers 0. -/
theorem test_cs_enter_nested : (after .csEnter { booted4 with gie := false }).map (fun t => (t.gie, t.result)) =
    some (false, some (.okToken false)) := by decide

/-- CS3: the token is what GIE becomes. -/
theorem test_cs_exit : (after (.csExit 0x01#8) { booted4 with gie := false }).map (fun t => (t.gie, t.result)) =
    some (true, some .ok) := by decide

/-- CS4. -/
theorem test_cs_exit_refused : (after (.csExit 0x02#8) booted4).map (fun t => (t.gie, t.refusals)) =
    some (true, [(.fg, .illegalOperand)]) := by decide

/-! ## Ring buffer -/

/-- RB1.3: back wraps from 3 to 0. -/
theorem test_push_rxq_wraps :
    (after (.rbPushBackRxq 0x0C#8) { booted4 with issuer := .comp, rxq := holding 4 [0x0A#8, 0x0B#8] }).map
      (fun t => (t.rxq, t.result)) = some (holding 4 [0x0A#8, 0x0B#8, 0x0C#8], some .success) := by decide

/-- RB1.4 on TXQ: full. -/
theorem test_push_txq_full :
    (after (.rbPushBackTxq 0x0D#8) { booted4 with issuer := .comp, txq := holding 4 [0x0A#8, 0x0B#8, 0x0C#8] }).map
      (fun t => (t.txq, t.result)) = some (holding 4 [0x0A#8, 0x0B#8, 0x0C#8], some .bufferFull) := by decide

/-- RB1.5: the vacated slot is cleared. -/
theorem test_pop_rxq :
    (after .rbPopFrontRxq { booted4 with issuer := .comp, rxq := holding 4 [0x0A#8, 0x0B#8, 0x0C#8] }).map
      (fun t => (t.rxq, t.result)) =
      some (⟨[none, none, some 0x0B#8, some 0x0C#8], 1, 0⟩, some (.popped (some 0x0A#8))) := by decide

/-- RB1.11 on TXQ: front wraps from 3 to 0. -/
theorem test_pop_txq_wraps :
    (after .rbPopFrontTxq { booted4 with
        issuer := .internal, txq := ⟨[some 0x0D#8, none, none, none], 3, 1⟩ }).map (fun t => (t.txq, t.result)) =
      some (⟨[none, none, none, none], 0, 1⟩, some (.popped (some 0x0D#8))) := by decide

/-- RB1.9, the example of R155. -/
theorem test_size_rxq :
    (after .rbSizeRxq { booted4 with
        issuer := .comp, rxq := ⟨[some 0x0D#8, none, none, some 0x0C#8], 2, 1⟩ }).map (fun t => t.result) =
      some (some (.okCount 2)) := by decide

/-- RB1.7 on TXQ: full. -/
theorem test_size_txq :
    (after .rbSizeTxq { booted4 with
        issuer := .comp, txq := ⟨[some 0x0D#8, none, some 0x0B#8, some 0x0C#8], 1, 1⟩ }).map (fun t => t.result) =
      some (some (.okCount 3)) := by decide

/-- RB5: a foreground client may not push. -/
theorem test_push_wrong_issuer :
    (after (.rbPushBackRxq 0x05#8) booted4).map (fun t => (t.rxq, t.refused, t.refusals)) =
      some (emptyRing 4, true, [(.fg, .wrongIssuer)]) := by decide

/-! ## USART -/

/-- US1. -/
theorem test_write_byte :
    (after (.writeByte 0x41#8) booted4).map (fun t => (t.txq, t.txState, t.udrie, t.result)) =
      some (holding 4 [0x41#8], .buffering, true, some .ok) := by decide

/-- US5. -/
theorem test_write_byte_full :
    (after (.writeByte 0x04#8) { booted4 with
        txq := holding 4 [1#8, 2#8, 3#8], txState := .buffering, udrie := true }).map (fun t => (t.txq, t.result)) =
      some (holding 4 [1#8, 2#8, 3#8], some .wouldBlock) := by decide

/-- US8: exactly the free space. -/
theorem test_write_fits :
    (after (.write [1#8, 2#8, 3#8]) booted4).map (fun t => (t.txq, t.udrie, t.result)) =
      some (holding 4 [1#8, 2#8, 3#8], true, some .ok) := by decide

/-- US9: one byte too many changes nothing. -/
theorem test_write_all_or_nothing :
    (after (.write [1#8, 2#8, 3#8]) { booted4 with txq := holding 4 [9#8] }).map (fun t => (t.txq, t.result)) =
      some (holding 4 [9#8], some .wouldBlock) := by decide

/-- The example of R194. -/
theorem test_read_byte :
    (after .readByte { booted4 with rxq := holding 4 [0x5A#8, 0x01#8] }).map
      (fun t => (contents 4 t.rxq, t.result)) = some ([0x01#8], some (.okByte 0x5A#8)) := by decide

/-- US10. -/
theorem test_read_byte_empty :
    (after .readByte booted4).map (fun t => (t.rxq, t.result)) = some (emptyRing 4, some .wouldBlock) := by decide

/-- US15. -/
theorem test_read :
    (after (.read 2#16) { booted4 with rxq := holding 4 [1#8, 2#8, 3#8] }).map
      (fun t => (contents 4 t.rxq, t.result)) = some ([3#8], some (.okBytes [1#8, 2#8])) := by decide

/-- US16. -/
theorem test_read_too_many :
    (after (.read 4#16) { booted4 with rxq := holding 4 [1#8, 2#8, 3#8] }).map
      (fun t => (contents 4 t.rxq, t.result)) = some ([1#8, 2#8, 3#8], some .wouldBlock) := by decide

/-- US12: DOR stays set. -/
theorem test_isr_rx :
    (after .isrUsartRx { booted4 with issuer := .int, rxDr := some 0x11#8, rxc := true, dor := true }).map
      (fun t => (t.rxq, t.rxDr, t.rxc, t.dor, t.gie)) = some (holding 4 [0x11#8], none, false, true, true) := by decide

/-- US13: a full RXQ drops the byte. -/
theorem test_isr_rx_full :
    (after .isrUsartRx { booted4 with
        issuer := .int, rxDr := some 0x99#8, rxc := true, rxq := holding 4 [1#8, 2#8, 3#8] }).map
      (fun t => (t.rxq, t.rxDr, t.rxc)) = some (holding 4 [1#8, 2#8, 3#8], none, false) := by decide

/-- US2. -/
theorem test_isr_udre :
    (after .isrUsartUdre { booted4 with
        issuer := .int, txq := holding 4 [0x41#8], txState := .buffering, udrie := true }).map
      (fun t => (t.txDr, t.udre, contents 4 t.txq, t.txState)) =
      some (some 0x41#8, false, [], .buffering) := by decide

/-- US4. -/
theorem test_isr_udre_empty :
    (after .isrUsartUdre { booted4 with issuer := .int, txState := .buffering, udrie := true }).map
      (fun t => (t.txState, t.udrie, t.udre)) = some (.idle, false, true) := by decide

/-- US3: the line agent; US11: an unread byte is lost. -/
theorem test_line_and_host :
    (lineTxStep { booted4 with txDr := some 0x41#8, udre := false }).txLine = [0x41#8] ∧
      (hostStep { booted4 with hostRx := [0x10#8, 0x11#8], hostRxPos := 1, rxDr := some 0x10#8, rxc := true }).dor
        = true := by decide

/-! ## Debouncer -/

/-- DB1 step 2. -/
theorem test_pcint_press :
    (after .isrPcint { press4 with pin := ⟨true, false⟩, pcif := true }).map (fun t => (t.btn, t.tmr, t.pcif)) =
      some (⟨.down 4, .up⟩, ⟨.running, 0, 4⟩, false) := by decide

/-- DB3 steps 5 and 6: a press while the timer runs gets the ticks already counted. -/
theorem test_pcint_compensated :
    (after .isrPcint { press4 with
        pin := ⟨true, true⟩, pcif := true, btn := ⟨.down 4, .up⟩, tmr := ⟨.running, 2, 4⟩ }).map
      (fun t => (t.btn, t.tmr)) = some (⟨.down 4, .down 6⟩, ⟨.running, 2, 4⟩) := by decide

/-- DB1 step 7. -/
theorem test_timer_fires :
    (after .isrTimer { press4 with
        pin := ⟨true, false⟩, btn := ⟨.down 4, .up⟩, tmr := ⟨.expired, 4, 4⟩ }).map
      (fun t => (t.btn, t.press, t.tmr)) = some (⟨.pressed, .up⟩, [0], ⟨.disabled, 0, 4⟩) := by decide

/-- DB3 step 9: one button fires, the timer is re-armed for the other. -/
theorem test_timer_rearms :
    (after .isrTimer { press4 with
        pin := ⟨true, true⟩, btn := ⟨.down 4, .down 6⟩, tmr := ⟨.expired, 4, 4⟩ }).map
      (fun t => (t.btn, t.press, t.tmr)) = some (⟨.pressed, .down 2⟩, [0], ⟨.running, 0, 2⟩) := by decide

/-- The example of R306. -/
theorem test_timer_arm :
    (after (.timerArm 0x04#8) { booted4 with issuer := .internal, tmr := ⟨.expired, 9, 7⟩ }).map (fun t => t.tmr) =
      some ⟨.running, 0, 4⟩ := by decide

/-- EN7: 17 ticks. -/
theorem test_timer_arm_refused :
    (after (.timerArm 0x11#8) { booted4 with issuer := .internal }).map (fun t => (t.tmr, t.refusals)) =
      some (⟨.disabled, 0, 1⟩, [(.internal, .illegalOperand)]) := by decide

/-- The example of R307. -/
theorem test_timer_disable :
    (after .timerDisable { booted4 with issuer := .internal, tmr := ⟨.expired, 5, 4⟩ }).map (fun t => t.tmr) =
      some ⟨.disabled, 0, 4⟩ := by decide

/-- EN9: the foreground may not disable the timer. -/
theorem test_timer_disable_refused :
    (after .timerDisable { booted4 with tmr := ⟨.running, 1, 4⟩ }).map (fun t => (t.tmr, t.refusals)) =
      some (⟨.running, 1, 4⟩, [(.fg, .wrongIssuer)]) := by decide

/-- DB8: the tick at 16 overruns; DB1: the fourth tick expires. -/
theorem test_ticks :
    (timebaseStep { booted4 with tmr := ⟨.expired, 16, 4⟩ }).fault = some .timerOverrun ∧
      (timebaseStep { booted4 with tmr := ⟨.running, 3, 4⟩ }).tmr = ⟨.expired, 4, 4⟩ := by decide

/-! ## Framer -/

/-- FR14: the first of the two signatures. -/
theorem test_handshake_sends :
    (after .frHandshake booted32).map (fun t => (contents 32 t.txq, t.phase)) =
      some (sigBytes, .hsSend 1) := by decide

/-- FR16: the ninth byte completes the window. -/
theorem test_handshake_window :
    (after .frHandshake { booted32 with
        phase := .hsRecv, hsWin := 0xEF#8 :: sigBytes.take 7, rxq := holding 32 [0x01#8] }).map
      (fun t => (t.hsWin, t.phase, t.result)) = some (sigBytes, .srvRead, some .ok) := by decide

/-- FR20: an absent handler sends nothing. -/
theorem test_serve_absent_handler :
    (after .frServeOne { booted32 with
        cfg := { defaultConfig with hasApprox := false }, phase := .srvDispatch
        req := 0x01#8 :: List.replicate 15 0#8 }).map (fun t => (t.phase, t.out, t.calls)) =
      some (.srvRead, [], []) := by decide

/-- FR23: a malformed request. -/
theorem test_serve_malformed :
    (after .frServeOne { booted32 with phase := .srvDispatch, req := 0x07#8 :: List.replicate 15 0#8 }).map
      (fun t => (t.fault, t.phase)) = some (some .panicReqTag, .srvDispatch) := by decide

/-- FR22, FR21: the stream starts at the first pass. -/
theorem test_req_points :
    (after (.reqPointsSingle 0x03#8) booted32).map (fun t => (t.sel, t.pass, t.k, t.phase)) =
        some (.single 0x03#8, .first, 0, .srvPoints) ∧
      (after (.reqPointsSystem 0x01#8) booted32).map (fun t => (t.sel, t.phase)) =
        some (.system 0x01#8, .srvPoints) := by decide

/-- FR11a, the example of R260. -/
theorem test_req_approximations :
    (after .reqApproximations { booted32 with
        approxAnswers := [(0x3FF0000000000000#64, 0x4000000000000000#64)] }).map (fun t => (t.out, t.phase)) =
      some ([0x00#8, 0x00#8, 0x00#8, 0x00#8, 0x00#8, 0x00#8, 0xF0#8, 0x3F#8,
        0x00#8, 0x00#8, 0x00#8, 0x00#8, 0x00#8, 0x00#8, 0x00#8, 0x40#8], .srvSend) := by decide

/-- P6: the handler gets epsilon and the mode. -/
theorem test_req_root_calls :
    (after (.reqRootSimpleIteration 0x3FD0000000000000#64 0x01#8) { booted32 with
        rootAnswers := [.err .diverges] }).map (fun t => t.calls) =
      some [.root 0x3FD0000000000000#64 (.single .simpleIterationSingle 0x01#8)] := by decide

theorem test_req_root_modes :
    (after (.reqRootChord 1#64 0x02#8) { booted32 with rootAnswers := [.err .diverges] }).map (fun t => t.calls) =
        some [.root 1#64 (.single .chord 0x02#8)] ∧
      (after (.reqRootSecant 1#64 0x02#8) { booted32 with rootAnswers := [.err .diverges] }).map (fun t => t.calls) =
        some [.root 1#64 (.single .secant 0x02#8)] ∧
      (after (.reqRootSystem 1#64 0x02#8) { booted32 with rootAnswers := [.err .diverges] }).map (fun t => t.calls) =
        some [.root 1#64 (.system 0x02#8)] := by decide

/-- FR11 and FR11a as responses. -/
theorem test_rsp_values :
    (after (.rspRootOk 0x3FF8000000000000#64 0xBFF0000000000000#64) booted32).map (fun t => t.out) =
        some [0x00#8, 0x00#8, 0x00#8, 0x00#8, 0x00#8, 0x00#8, 0xF8#8, 0x3F#8,
          0x00#8, 0x00#8, 0x00#8, 0x00#8, 0x00#8, 0x00#8, 0xF0#8, 0xBF#8] ∧
      (after (.rspApproximations 0x3FF0000000000000#64 0x4000000000000000#64) booted32).map (fun t => t.out) =
        some [0x00#8, 0x00#8, 0x00#8, 0x00#8, 0x00#8, 0x00#8, 0xF0#8, 0x3F#8,
          0x00#8, 0x00#8, 0x00#8, 0x00#8, 0x00#8, 0x00#8, 0x00#8, 0x40#8] := by decide

/-- FR9, FR10, FR10a. -/
theorem test_rsp_failures :
    let nan : List Byte := [0x00#8, 0x00#8, 0x00#8, 0x00#8, 0x00#8, 0x00#8, 0xF8#8, 0x7F#8]
    (after .rspRootDiverges booted32).map (fun t => t.out) = some (nan ++ 0x02#8 :: List.replicate 7 0#8) ∧
      (after .rspRootMoreThanOne booted32).map (fun t => t.out) = some (nan ++ 0x01#8 :: List.replicate 7 0#8) ∧
      (after .rspRootNoRoot booted32).map (fun t => t.out) = some (nan ++ 0x00#8 :: List.replicate 7 0#8) := by decide

/-- FR13: x_1 and x_255 between -1.0 and 1.0. -/
theorem test_sample_positions :
    let c : Config := { defaultConfig with
      leftBorder := 0xBFF0000000000000#64, rightBorder := 0x3FF0000000000000#64 }
    sampleX c 1 = 0xBFEFC00000000000#64 ∧ sampleX c 255 = 0x3FEFC00000000000#64 := by decide +kernel

/-- FR12: record 255 of a long packet, the points (k, 2k). -/
theorem test_long_first_record :
    (after (.rspPointsFirst (List.replicate 255 ⟨0#64, 0#64⟩ ++ [⟨0x406FE00000000000#64, 0x407FE00000000000#64⟩]))
      { booted32 with phase := .srvPoints, k := 255 }).map (fun t => (t.out, t.phase)) =
      some ([0x00#8, 0x00#8, 0x00#8, 0x00#8, 0x00#8, 0xE0#8, 0x6F#8, 0x40#8,
        0x00#8, 0x00#8, 0x00#8, 0x00#8, 0x00#8, 0xE0#8, 0x7F#8, 0x40#8], .srvPtSend) := by decide

/-- R264: after the last record of the second pass the sequencer returns to SRV_READ. -/
theorem test_long_second_last :
    (after (.rspPointsSecond (List.replicate 256 ⟨0#64, 0#64⟩)) { booted32 with
        phase := .srvPtSend, pass := .second, k := 255, sel := .system 0x00#8, out := List.replicate 16 0xAA#8 }).map
      (fun t => (contents 32 t.txq, t.phase, t.result)) =
      some (List.replicate 16 0xAA#8, .srvRead, some .ok) := by decide

/-- FR14: the signature is sent in HS_SEND(1) and the device then waits for it. -/
theorem test_signature_sends :
    (after .sigSignature { booted32 with phase := .hsSend 1 }).map (fun t => (contents 32 t.txq, t.phase, t.result)) =
      some (sigBytes, .hsRecv, some .ok) := by decide

/-- FR17: a chunk that is not the signature is discarded. -/
theorem test_signature_chunk :
    (after .sigSignature { booted32 with
        cfg := { defaultConfig with handshakeMatch := .chunked8 }, phase := .hsRecv
        rxq := holding 32 ([0x00#8, 0xFF#8] ++ sigBytes) }).map (fun t => (contents 32 t.rxq, t.phase, t.result)) =
      some ([0x23#8, 0x01#8], .hsRecv, some .wouldBlock) := by decide

/-! ## The machine -/

/-- RB4: capacity 1 is refused, not run. -/
theorem test_config_refused : configLegal { cfg4 with rxqN := 1 } = false := by decide

/-- The host's fetch: the placed word is the next thing that runs (log 15). -/
theorem test_placed_word :
    (match step (State.reset.withFetchWord 16 0x4120) with
      | .next t => some (contents 32 t.txq, t.idx)
      | .fault _ => none
      | .refused _ => none) = some ([0x41#8], 1) := by decide

/-- P1 as text and as bytes (R107). -/
theorem test_assemble :
    (assembleLines ["CS.ENTER ; on".toList, "WRITE [0x48, 0x49]".toList, "CS.EXIT 1".toList,
        "READ_BLOCKING 2".toList]).map (machineCode 0#64) =
      some [0x00#8, 0x21#8, 0x02#8, 0x00#8, 0x48#8, 0x49#8, 0x01#8, 0x01#8, 0x23#8, 0x02#8, 0x00#8] := by decide

/-! ## Witnesses: the hypotheses of each statement can be met together

One theorem for each statement, named after it; the values are at the boundaries of its clauses. -/

/-- `step` answers a next state of which `p` holds. -/
def nextIs (p : State → Bool) (s : State) : Bool :=
  match step s with
  | .next t => p t
  | .fault _ => false
  | .refused _ => false

/-- What `Inv` asks of one button, as a test. -/
def buttonCheck (s : State) : ButtonState → Bool
  | .up => true
  | .pressed => true
  | .down r => decide (1 ≤ r ∧ r ≤ s.cfg.debounceDelay + s.tmr.tcnt ∧ s.tmr.state ≠ .disabled ∧ s.tmr.ocr ≤ r)

/-- What `Inv` asks of the phase, as a test. -/
def phaseCheck : Phase → Bool
  | .hsSend c => decide (c < sigRepeat)
  | .hsRecv => true
  | .srvRead => true
  | .srvDispatch => true
  | .srvSend => true
  | .srvPoints => true
  | .srvPtSend => true

/-- `Inv` as a test. -/
def invCheck (s : State) : Bool :=
  decide (configLegal s.cfg = true ∧ EnablesHardwired s ∧ TransmitEnableAgrees s ∧ IdleMeansEmpty s ∧
    RegisterFlagsAgree s ∧ QueuesWf s ∧ TimerBounded s) &&
  (buttonCheck s s.btn.b0 && buttonCheck s s.btn.b1 &&
    decide (s.tmr.state ≠ .disabled → s.tmr.ocr ≤ s.cfg.debounceDelay)) &&
  (phaseCheck s.phase && decide (s.hsWin.length ≤ sigLen ∧ s.req.length = shortLen ∧ s.out.length ≤ shortLen ∧
    s.k < pointsPerPass))

theorem button_of_check {s : State} {b : ButtonState} (h : buttonCheck s b = true) : ButtonBounded s b := by
  cases b with
  | up => trivial
  | pressed => trivial
  | down r => exact of_decide_eq_true h

theorem phase_of_check {p : Phase} (h : phaseCheck p = true) : LegalPhase p := by
  cases p with
  | hsSend c => exact of_decide_eq_true h
  | hsRecv => trivial
  | srvRead => trivial
  | srvDispatch => trivial
  | srvSend => trivial
  | srvPoints => trivial
  | srvPtSend => trivial

theorem inv_of_check {s : State} (h : invCheck s = true) : Inv s := by
  simp only [invCheck, Bool.and_eq_true] at h
  obtain ⟨⟨h1, ⟨h2, h3⟩, h4⟩, h5, h6⟩ := h
  obtain ⟨a, b, c, d, e, f, g⟩ := of_decide_eq_true h1
  exact ⟨a, b, c, d, e, f, g, ⟨button_of_check h2, button_of_check h3, of_decide_eq_true h4⟩,
    phase_of_check h5, of_decide_eq_true h6⟩

/-- Both queues of `n` slots, empty. -/
def slots (n : Nat) (s : State) : State :=
  { s with cfg := { s.cfg with rxqN := n, txqN := n }, rxq := emptyRing n, txq := emptyRing n }

/-- The port holds one foreground line. -/
def withLine (c : ClientOp) (s : State) : State := loadProgram .fg [c] s

/-- The next turns. -/
def withTurns (ts : List Turn) (s : State) : State := { s with turns := ts }

/-- CsEnterAnswersAndClearsGie, CsExitSetsGieToToken, NestedRegionsRestoreGie. -/
theorem witness_CriticalSection :
    booted4.issuer ∈ [Issuer.fg, Issuer.internal] ∧
      ({ booted4 with issuer := .internal } : State).issuer ∈ [Issuer.fg, Issuer.internal] ∧
      1 < (0x02#8 : Byte).toNat ∧ 1 < (0xFF#8 : Byte).toNat := by decide

/-- PushBackStoresAtBack, PopFrontTakesTheOldest, SizeAnswersTheCount, RingIsABoundedFifoQueue and
SizeCountsPushesLessPops: a full queue of the least capacity, and an empty one. -/
theorem witness_RingBuffer :
    ({ booted4 with issuer := .comp } : State).issuer ∈ [Issuer.internal, Issuer.comp] ∧ 2 ≤ booted4.cfg.rxqN ∧
      RingWf 2 (holding 2 [0x7F#8]) ∧ ((holding 2 [0x7F#8]).front + 1) % 2 ≠ (holding 2 [0x7F#8]).back ∧
      RingWf 4 (holding 4 [1#8, 2#8, 3#8]) ∧ booted4.rxq = emptyRing booted4.cfg.rxqN ∧
      booted4.txq = emptyRing booted4.cfg.txqN ∧ RingWf booted4.cfg.txqN booted4.txq := by decide

/-- WrongIssuerIsRefused: an operation of each issuer class, the second with an illegal operand. -/
theorem witness_WrongIssuerIsRefused :
    issuerClass .rbSizeRxq = some [.internal, .comp] ∧ booted4.issuer ∉ [Issuer.internal, Issuer.comp] ∧
      issuerClass (.csExit 0x02#8) = some [.fg, .internal] ∧ press4.issuer ∉ [Issuer.fg, Issuer.internal] ∧
      wellFormed .rbSizeRxq = true := by decide

/-- A block whose foreground was refused. -/
def refused4 : State := { booted4 with refused := true, refusals := [(.fg, .illegalOp)] }

/-- RefusedAgentHasNoFurtherStep, each clause. -/
theorem witness_RefusedAgentHasNoFurtherStep :
    (stopped .fg { refused4 with cfg := defaultConfig } = true ∧ defaultConfig.launch = .fullEngine) ∧
      ((withLine (.op .csEnter) refused4).cfg.launch = .component ∧
        (fetchEntry (withLine (.op .csEnter) refused4)).map (fun e => stopped e.issuer refused4) = some true) ∧
      stopped .int { booted4 with refusals := [(.int, .wrongIssuer)] } = true ∧
      nextIs (fun _ => stopped .fg refused4) (withTurns [.pins 0] refused4) = true := by decide

/-- ReservedAndIllegalEncodingsAreRefused. -/
theorem witness_ReservedAndIllegalEncodingsAreRefused :
    decodeOp [0x02#8] = .error .reservedOpcode ∧ IssueMode.once ≠ .restoreToken ∧
      1 < (0x02#8 : Byte).toNat ∧ (0x00#8 : Byte).toNat = 0 ∧ 16 < (0x11#8 : Byte).toNat := by decide

/-- WriteByteQueuesAByte, WriteIsAllOrNothing: exactly the free space, and one byte more. -/
theorem witness_Write :
    booted4.issuer = .fg ∧ 2 ≤ booted4.cfg.txqN ∧ RingWf booted4.cfg.txqN booted4.txq ∧
      (booted4.cfg.txqN - 1) - ringSize booted4.cfg.txqN booted4.txq < [1#8, 2#8, 3#8, (4#8 : Byte)].length ∧
      [1#8, 2#8, (3#8 : Byte)].length ≤ (booted4.cfg.txqN - 1) - ringSize booted4.cfg.txqN booted4.txq := by decide

/-- ReadByteTakesTheOldest, ReadIsAllOrNothing: exactly the bytes held, and one more. -/
theorem witness_Read :
    RingWf 4 (holding 4 [1#8, 2#8]) ∧ contents 4 (holding 4 [1#8, 2#8]) = [1#8, 2#8] ∧
      contents booted4.cfg.rxqN booted4.rxq = [] ∧ RingWf booted4.cfg.rxqN booted4.rxq ∧
      ringSize 4 (holding 4 [1#8, 2#8]) < (3#16 : Word16).toNat ∧
      (2#16 : Word16).toNat ≤ ringSize 4 (holding 4 [1#8, 2#8]) := by decide

/-- Interrupts off, TXQ full. -/
def masked4 : State :=
  { booted4 with gie := false, txq := holding 4 [1#8, 2#8, 3#8], txState := .buffering, udrie := true }

/-- BlockingWithInterruptsOffHangs, for each of the four blocking forms. -/
theorem witness_BlockingWithInterruptsOffHangs :
    ∀ c ∈ [ClientOp.writeByteBlocking 0x04#8, .writeBlocking [0x04#8], .readByteBlocking, .readBlocking 1#16],
      let s := withLine c masked4
      Running s ∧ s.cfg.launch = .component ∧ s.gie = false ∧ s.tmr.state = .disabled ∧ stopped .fg s = false ∧
        fetchEntry s = some (portEntry s.cfg.signature .fg c) ∧ blocked c s = true := by decide

/-- ReceiveIsrPushesOrDrops, TransmitIsrMovesAByteOrStops. -/
theorem witness_UsartIsrs :
    let s : State := { press4 with rxDr := some 0x7E#8, rxc := true, udrie := true }
    s.issuer = .int ∧ s.gie = true ∧ s.rxc = true ∧ s.rxcie = true ∧ s.rxDr = some 0x7E#8 ∧ s.udre = true ∧
      s.udrie = true ∧ RingWf s.cfg.txqN s.txq ∧ contents s.cfg.txqN s.txq = [] ∧
      RingWf 4 (holding 4 [0x41#8]) ∧ contents 4 (holding 4 [0x41#8]) = [0x41#8] := by decide

/-- InterruptIsTakenOnlyOnRequest: masked, and not requesting. -/
theorem witness_InterruptIsTakenOnlyOnRequest :
    masked4.gie = false ∧ requesting .usartUdre masked4 = true ∧ requesting .usartRx press4 = false ∧
      press4.issuer = .int := by decide

/-- A transmitter that has sent its last byte. -/
def drained4 : State := { booted4 with txState := .buffering, udrie := true }

/-- TransmitEnableIsWrittenByTwoRules: UDRIE falls, and rises. -/
theorem witness_TransmitEnableIsWrittenByTwoRules :
    (Inv (withTurns [.int .usartUdre] drained4) ∧
      nextIs (fun t => drained4.udrie && !t.udrie) (withTurns [.int .usartUdre] drained4) = true) ∧
    (Inv (withTurns [.fg] (withLine (.op (.writeByte 0x41#8)) booted4)) ∧
      ForegroundClient (withTurns [.fg] (withLine (.op (.writeByte 0x41#8)) booted4)) ∧
      nextIs (fun t => t.udrie) (withTurns [.fg] (withLine (.op (.writeByte 0x41#8)) booted4)) = true) :=
  ⟨⟨inv_of_check (by decide), by decide⟩, inv_of_check (by decide), by decide, by decide⟩

/-- A transmitter with a byte in its register and one queued, and turns that drain it among other agents' turns. -/
def draining4 : State :=
  withTurns [.pins 0, .lineTx, .int .pinChange, .int .usartUdre, .lineTx, .int .usartUdre]
    { booted4 with
      txDr := some 0x40#8, udre := false, txq := holding 4 [0x41#8], txState := .buffering, udrie := true }

/-- TransmitStreamKeepsOrder, TransmitDrains. -/
theorem witness_TransmitDrains :
    Inv draining4 ∧ ForegroundClient draining4 ∧ Running draining4 ∧ draining4.gie = true ∧
      stopped .int draining4 = false ∧ 6 ≤ draining4.turns.length ∧ Turn.fg ∉ draining4.turns.take 6 ∧
      List.Sublist (drainTurns (contents draining4.cfg.txqN draining4.txq).length) (draining4.turns.take 6) ∧
      (runSteps 6 draining4).isSome = true :=
  ⟨inv_of_check (by decide), by decide, by decide, by decide, by decide, by decide, by decide, by decide, by decide⟩

/-- A receiver with a byte in its register and one queued, the foreground about to read. -/
def receiving4 : State :=
  withTurns [.fg] (withLine (.op .readByte)
    { booted4 with
      rxq := holding 4 [0x10#8], rxDr := some 0x12#8, rxc := true
      hostRx := [0x10#8, 0x11#8, 0x12#8], hostRxPos := 3 })

/-- ReceivedBytesKeepHostOrder. -/
theorem witness_ReceivedBytesKeepHostOrder :
    Inv receiving4 ∧ ForegroundClient receiving4 ∧ nextIs (fun _ => true) receiving4 = true ∧
      List.Sublist ([] ++ held receiving4) (receiving4.hostRx.take receiving4.hostRxPos) :=
  ⟨inv_of_check (by decide), by decide, by decide, by decide⟩

/-- LineAgentsMoveOneByte, DisabledAgentsOnlyUseTheirTurn: each agent enabled and not. -/
theorem witness_LineAgents :
    Running draining4 ∧ nextTurn (withTurns [.lineTx] draining4) = .lineTx ∧ draining4.txDr = some 0x40#8 ∧
      booted4.txDr = none ∧ nextTurn (withTurns [.host] receiving4) = .host ∧
      ({ receiving4 with hostRxPos := 2 } : State).hostRx[2]? = some 0x12#8 ∧
      receiving4.hostRx.length ≤ receiving4.hostRxPos ∧ booted4.tmr.state = .disabled ∧
      nextTurn (withTurns [.int .timer] booted4) = .int .timer ∧ requesting .timer booted4 = false ∧
      nextTurn (withTurns [.timebase] booted4) = .timebase := by decide

/-- PinsAndTimebaseStep, each clause at its boundary. -/
theorem witness_PinsAndTimebaseStep :
    Running booted4 ∧ nextTurn (withTurns [.pins 0] booted4) = .pins 0 ∧
      nextTurn (withTurns [.pins 1] booted4) = .pins 1 ∧
      Running { booted4 with tmr := ⟨.running, 15, 16⟩ } ∧ Running { booted4 with tmr := ⟨.expired, 16, 16⟩ } ∧
      Running { booted4 with tmr := ⟨.expired, 15, 1⟩ } := by decide

/-- PinChangeIsrSamplesTheButtons, TimerIsrFiresCrossedButtons, TimerIsArmedForTheLeastTimeLeft: a pin change that
releases both buttons, and a timer ISR that fires one button and re-arms for the other. -/
theorem witness_DebouncerIsrs :
    let r : State := { press4 with pcif := true, btn := ⟨.down 4, .pressed⟩, tmr := ⟨.running, 1, 4⟩ }
    let e : State := { press4 with btn := ⟨.down 4, .down 5⟩, tmr := ⟨.expired, 4, 4⟩ }
    (r.issuer = .int ∧ r.gie = true ∧ r.pcif = true ∧ r.pcie = true ∧
      (after .isrPcint r).map (fun t => t.btn) = some ⟨.up, .up⟩) ∧
    (Inv e ∧ e.issuer = .int ∧ e.gie = true ∧ e.tmr.state = .expired ∧
      (after .isrTimer e).map (fun t => (t.btn, t.tmr.state)) = some (⟨.pressed, .down 1⟩, .running)) :=
  ⟨by decide, inv_of_check (by decide), by decide⟩

/-- TimerArmAndDisable: the ends of the range and the values beside them. -/
theorem witness_TimerArmAndDisable :
    ({ booted4 with issuer := .internal } : State).issuer = .internal ∧ 1 ≤ (0x01#8 : Byte).toNat ∧
      (0x10#8 : Byte).toNat ≤ 16 ∧ (0x00#8 : Byte).toNat = 0 ∧ 16 < (0x11#8 : Byte).toNat := by decide

/-- A press of button 1 that waits for its pin-change ISR while button 0 is being debounced. -/
def pressing4 : State :=
  { booted4 with
    cfg := { cfg4 with debounceDelay := 2 }, pin := ⟨true, true⟩, pcif := true
    btn := ⟨.down 2, .up⟩, tmr := ⟨.running, 1, 2⟩ }

/-- HeldPressFiresOnceAfterTheDelay. -/
theorem witness_HeldPressFiresOnceAfterTheDelay :
    let s := withTurns ([.int .pinChange, .int .timer]
      ++ (List.replicate 2 [Turn.timebase, Turn.int .timer]).flatten ++ []) pressing4
    Inv s ∧ Running s ∧ s.gie = true ∧ stopped .int s = false ∧ s.cfg.debounceMode = .compensated ∧ s.pcif = true ∧
      buttonGet s.pin 1 = true ∧ buttonGet s.btn 1 = .up ∧
      s.turns = [.int .pinChange, .int .timer]
        ++ (List.replicate s.cfg.debounceDelay [Turn.timebase, Turn.int .timer]).flatten ++ [] :=
  ⟨inv_of_check (by decide), by decide⟩

/-- HeldPressFiresOnceAfterTheDelay with other agents' turns in between: the run meets its premises at every state, after
three turns no tick was counted, after all both were. -/
theorem witness_HeldPressWithOtherAgents :
    let s := withTurns [.int .pinChange, .lineTx, .int .timer, .pins 0, .timebase, .fg, .int .timer, .timebase, .int .pinChange,
      .int .timer] pressing4;
    Inv s ∧ ForegroundClient s ∧ Running s ∧ s.gie = true ∧ nextTurn s = .int .pinChange ∧
      (∀ m, m ≤ 9 → (runSteps (1 + m) s).map (fun v => buttonGet v.pin 1) = some true) ∧
      (∀ m, m < 9 → (runSteps (1 + m) s).map (fun v => nextTurn v != .timebase || v.tmr.state != .expired) = some true) ∧
      (runSteps 1 s).map (fun p => (tickTurns 3 p, tickTurns 9 p)) = some (0, 2) ∧
      (runSteps 10 s).map (fun t => t.tmr.state != .expired) = some true :=
  ⟨inv_of_check (by decide), by decide, by decide, by decide, by decide, by decide, by decide, by decide, by decide⟩

/-- PressFiresOnlyAfterTheDelay: the press of button 1 is sampled, two ticks pass with the timer ISR between, it fires. -/
theorem witness_PressFiresOnlyAfterTheDelay :
    let s := withTurns [.int .pinChange, .timebase, .int .timer, .timebase, .int .timer] pressing4;
    Inv s ∧ ForegroundClient s ∧ Running s ∧ s.cfg.debounceMode = .compensated ∧ nextTurn s = .int .pinChange ∧
      buttonGet s.btn 1 = .up ∧
      (∀ m, m ≤ 3 → (runSteps (1 + m) s).map (fun v => isDown (buttonGet v.btn 1)) = some true) ∧
      (runSteps 5 s).map (fun u => buttonGet u.btn 1) = some .pressed :=
  ⟨inv_of_check (by decide), by decide, by decide, by decide, by decide, by decide, by decide, by decide⟩

/-- AtMostOnePressEventPerPress: an event, a press, and a release of a Pressed button. -/
theorem witness_AtMostOnePressEventPerPress :
    (let s := withTurns [.int .timer] { booted4 with btn := ⟨.down 4, .up⟩, tmr := ⟨.expired, 4, 4⟩ };
      Inv s ∧ ForegroundClient s ∧ nextIs (fun t => t.press == [0]) s = true) ∧
    (let s := withTurns [.int .pinChange] pressing4;
      Inv s ∧ nextIs (fun t => isDown t.btn.b1) s = true) ∧
    (let s := withTurns [.int .pinChange] { booted4 with btn := ⟨.pressed, .up⟩, pcif := true };
      Inv s ∧ nextIs (fun t => t.btn.b0 == .up) s = true) :=
  ⟨⟨inv_of_check (by decide), by decide, by decide⟩, ⟨inv_of_check (by decide), by decide⟩,
    inv_of_check (by decide), by decide⟩

/-- HandshakeSendsTheSignature, SignatureRowAttempts: eight free places, seven, and both send phases. -/
theorem witness_HandshakeSends :
    let s := slots 9 booted32
    let f : State := { s with txq := holding 9 [0x01#8] }
    s.issuer = .fg ∧ 2 ≤ s.cfg.txqN ∧ RingWf s.cfg.txqN s.txq ∧ RingWf f.cfg.txqN f.txq ∧ s.phase = .hsSend 0 ∧
      inHandshake .srvRead = false ∧ 8 ≤ (s.cfg.txqN - 1) - ringSize s.cfg.txqN s.txq ∧
      (f.cfg.txqN - 1) - ringSize f.cfg.txqN f.txq < 8 := by decide

/-- HandshakeReceiveAttempt, SignatureRowAttempts: no byte, one byte; seven bytes, eight bytes. -/
theorem witness_HandshakeReceives :
    let s : State := { slots 9 booted32 with phase := .hsRecv }
    s.issuer = .fg ∧ s.phase = .hsRecv ∧ s.cfg.handshakeMatch = .sliding ∧ RingWf s.cfg.rxqN s.rxq ∧
      contents s.cfg.rxqN s.rxq = [] ∧ RingWf 9 (holding 9 [0x01#8]) ∧
      contents 9 (holding 9 [0x01#8]) = 0x01#8 :: [] ∧ RingWf 9 (holding 9 (sigBytes.drop 1)) ∧
      ringSize 9 (holding 9 (sigBytes.drop 1)) < 8 ∧ RingWf 9 (holding 9 sigBytes) ∧
      8 ≤ ringSize 9 (holding 9 sigBytes) := by decide

/-- SlidingHandshakeToleratesSpuriousBytes: FR16, a spurious byte that is the signature's first. -/
theorem witness_SlidingHandshake :
    let s : State := { slots 12 booted32 with phase := .hsRecv, rxq := holding 12 (0xEF#8 :: sigBytes ++ [0x01#8]) }
    s.issuer = .fg ∧ s.phase = .hsRecv ∧ s.hsWin = [] ∧ s.cfg.handshakeMatch = .sliding ∧ RingWf s.cfg.rxqN s.rxq ∧
      contents s.cfg.rxqN s.rxq = [0xEF#8] ++ le8 s.cfg.signature ++ [0x01#8] := by decide

/-- ServeReadsAndSends: fifteen bytes and sixteen; fifteen free places and sixteen. -/
theorem witness_ServeReadsAndSends :
    let bs : List Byte := List.replicate 16 0x01#8
    let s : State := { slots 17 booted32 with phase := .srvSend, out := bs }
    let f : State := { s with txq := holding 17 [0x01#8] }
    s.issuer = .fg ∧ RingWf 17 (holding 17 (bs.drop 1)) ∧ ringSize 17 (holding 17 (bs.drop 1)) < 16 ∧
      RingWf 17 (holding 17 bs) ∧ 16 ≤ ringSize 17 (holding 17 bs) ∧ 2 ≤ s.cfg.txqN ∧ RingWf s.cfg.txqN s.txq ∧
      s.out.length ≤ (s.cfg.txqN - 1) - ringSize s.cfg.txqN s.txq ∧ RingWf f.cfg.txqN f.txq ∧
      (f.cfg.txqN - 1) - ringSize f.cfg.txqN f.txq < f.out.length ∧ inHandshake (.hsSend 1) = true := by decide

/-- ServeDispatchesTheRequest. -/
theorem witness_ServeDispatchesTheRequest :
    let s : State := { booted32 with phase := .srvDispatch, req := 0x01#8 :: List.replicate 15 0#8 }
    s.issuer = .fg ∧ s.phase = .srvDispatch ∧ decodeRequest s.req = .ok .initialApproximations := by decide

/-- MalformedRequestHaltsTheBlock: the least illegal value of each tag. -/
theorem witness_MalformedRequestHaltsTheBlock :
    let p : List Byte → List Byte := fun l => l ++ List.replicate (16 - l.length) 0#8
    2 < (byteAt (p [0x03#8]) 0).toNat ∧
      ((byteAt (p [0x00#8, 0x02#8]) 0).toNat = 0 ∧ 1 < (byteAt (p [0x00#8, 0x02#8]) 1).toNat) ∧
      (let q := p (0x02#8 :: List.replicate 8 0#8 ++ [0x02#8]);
        (byteAt q 0).toNat = 2 ∧ 1 < (byteAt q 9).toNat) ∧
      (let q := p (0x02#8 :: List.replicate 8 0#8 ++ [0x00#8, 0x03#8]);
        (byteAt q 0).toNat = 2 ∧ (byteAt q 9).toNat = 0 ∧ 2 < (byteAt q 10).toNat) ∧
      configLegal booted32.cfg = true := by decide

/-- PaddingIsIgnored: packets that differ in all their padding, for each kind. -/
theorem witness_PaddingIsIgnored :
    let agree : List Byte → List Byte → Prop := fun p q =>
      p.length = 16 ∧ q.length = 16 ∧ p ≠ q ∧ byteAt p 0 = byteAt q 0 ∧
      ((byteAt p 0).toNat = 0 → byteAt p 1 = byteAt q 1 ∧ byteAt p 2 = byteAt q 2) ∧
      ((byteAt p 0).toNat = 2 →
        (∀ i, 1 ≤ i → i ≤ 10 → byteAt p i = byteAt q i) ∧
        ((byteAt p 9).toNat = 0 → byteAt p 11 = byteAt q 11))
    let pair : List Byte → Prop := fun l =>
      agree (l ++ List.replicate (16 - l.length) 0x00#8) (l ++ List.replicate (16 - l.length) 0xFF#8)
    pair [0x00#8, 0x01#8, 0x05#8] ∧ pair [0x01#8] ∧
      pair (0x02#8 :: List.replicate 8 0x11#8 ++ [0x00#8, 0x01#8, 0x05#8]) ∧
      pair (0x02#8 :: List.replicate 8 0x11#8 ++ [0x01#8, 0x05#8]) := by
  refine ⟨⟨rfl, rfl, by decide, rfl, fun _ => ⟨rfl, rfl⟩, fun h => absurd h (by decide)⟩,
    ⟨rfl, rfl, by decide, rfl, fun h => absurd h (by decide), fun h => absurd h (by decide)⟩,
    ⟨rfl, rfl, by decide, rfl, fun h => absurd h (by decide), fun _ => ⟨?_, fun _ => rfl⟩⟩,
    ⟨rfl, rfl, by decide, rfl, fun h => absurd h (by decide), fun _ => ⟨?_, fun h => absurd h (by decide)⟩⟩⟩
  all_goals
    intro i h1 h2
    interval_cases i <;> rfl

/-- RequestRowsCallTheirHandlers, AbsentHandlerIsSilent. -/
theorem witness_RequestRows :
    booted32.cfg.hasApprox = true ∧ booted32.cfg.hasRoot = true ∧ booted32.cfg.hasPoints = true ∧
      ({ defaultConfig with hasApprox := false, hasRoot := false, hasPoints := false } : Config).hasRoot = false ∧
      ((Instr.reqRootSystem 1#64 0x02#8, Mode.system 0x02#8) ∈
        [(Instr.reqRootChord 1#64 0x02#8, Mode.single .chord 0x02#8),
          (Instr.reqRootSecant 1#64 0x02#8, Mode.single .secant 0x02#8),
          (Instr.reqRootSimpleIteration 1#64 0x02#8, Mode.single .simpleIterationSingle 0x02#8),
          (Instr.reqRootSystem 1#64 0x02#8, Mode.system 0x02#8)]) := by decide

/-- StreamingStepsAAndB, LongPacketRowsStream: step A, and step B with fifteen free places and with sixteen. -/
theorem witness_StreamingSteps :
    let s : State := { slots 17 booted32 with phase := .srvPtSend, out := List.replicate 16 0x01#8, k := 255 }
    let f : State := { s with txq := holding 17 [0x01#8] }
    s.issuer = .fg ∧ s.phase = .srvPtSend ∧ s.pass = .first ∧ 2 ≤ s.cfg.txqN ∧ RingWf s.cfg.txqN s.txq ∧ s.out ≠ [] ∧
      s.out.length ≤ (s.cfg.txqN - 1) - ringSize s.cfg.txqN s.txq ∧ RingWf f.cfg.txqN f.txq ∧
      (f.cfg.txqN - 1) - ringSize f.cfg.txqN f.txq < f.out.length := by decide

/-- LongPacketRowsStream: a packet of 256 records, and the last of them prepared next. -/
theorem witness_LongPacketRows :
    let ps : List Point := List.replicate 256 ⟨1#64, 2#64⟩
    let s : State := { booted32 with phase := .srvPoints, k := 255 }
    ps.length = 256 ∧ ¬(s.phase = .srvPtSend ∧ s.pass = .first) ∧
      ps[if s.phase = .srvPoints ∧ s.pass = .first then s.k else 0]? = some ⟨1#64, 2#64⟩ := by
  refine ⟨List.length_replicate, by decide, ?_⟩
  rw [if_pos ⟨rfl, rfl⟩, List.getElem?_replicate]
  rfl

/-- LongPacketIsItsRecordsInOrder: a TXQ with exactly room for the packet. -/
theorem witness_LongPacketIsItsRecordsInOrder :
    let ps : List Point := List.replicate 256 ⟨1#64, 2#64⟩
    let s : State := { slots 4097 booted32 with phase := .srvRead, sel := .system 0x00#8 }
    (Instr.rspPointsFirst ps, Pass.first) ∈
        [(Instr.rspPointsFirst ps, Pass.first), (Instr.rspPointsSecond ps, Pass.second)] ∧
      ps.length = 256 ∧ s.phase ≠ .srvPoints ∧ s.phase ≠ .srvPtSend ∧ RingWf s.cfg.txqN s.txq ∧
      4096 ≤ (s.cfg.txqN - 1) - ringSize s.cfg.txqN s.txq :=
  ⟨List.mem_cons_self, List.length_replicate, by decide, by decide,
    (Sys2Proof.Laws.emptyRing_wf (show 2 ≤ 4097 by decide)).1, by decide⟩

/-- ServedPointsAreStreamedInOrder: a system with exactly room for two passes and more answers than points, and a single
equation with exactly room for one and fewer. -/
theorem witness_ServedPointsAreStreamedInOrder :
    ∀ x ∈ [(8193, 513, Selection.system 0x00#8), (4097, 255, Selection.single 0x00#8)],
      let s : State := { slots x.1 booted32 with
        phase := .srvPoints, sel := x.2.2, pointAnswers := List.replicate x.2.1 ⟨1#64, 2#64⟩ }
      s.issuer = .fg ∧ s.phase = .srvPoints ∧ s.pass = .first ∧ s.k = 0 ∧ RingWf s.cfg.txqN s.txq ∧
        16 * (if isSystem s.sel = true then 512 else 256) ≤ (s.cfg.txqN - 1) - ringSize s.cfg.txqN s.txq := by
  intro x hx
  simp only [List.mem_cons, List.not_mem_nil, or_false] at hx
  rcases hx with rfl | rfl
  · exact ⟨rfl, rfl, rfl, rfl, (Sys2Proof.Laws.emptyRing_wf (show 2 ≤ 8193 by decide)).1, by decide⟩
  · exact ⟨rfl, rfl, rfl, rfl, (Sys2Proof.Laws.emptyRing_wf (show 2 ≤ 4097 by decide)).1, by decide⟩

/-- RoundingIsToNearestTiesToEven: finite operands, a divisor that is not zero, and legal borders whose difference
overflows. -/
theorem witness_Rounding :
    let least : F64 := 0x0000000000000001#64
    let most : F64 := 0x7FEFFFFFFFFFFFFF#64
    let wide : Config := { defaultConfig with leftBorder := 0xFFEFFFFFFFFFFFFF#64, rightBorder := most }
    f64Finite least = true ∧ f64Finite most = true ∧ f64Value most ≠ 0 ∧ configLegal wide = true ∧
      f64Sub wide.rightBorder wide.leftBorder = f64Infinity false := by
  intro least most wide
  refine ⟨by decide, by decide, ?_, by decide, by decide⟩
  rw [Sys2Proof.Laws.f64Value_of_unpack (show f64Unpack most = .finite false (2 ^ 53 - 1) 971 by decide)]
  simp [dyadic]

/-- InterruptsLeaveTheForegroundAlone. -/
theorem witness_InterruptsLeaveTheForegroundAlone :
    press4.issuer = .int ∧ (after (isrOf .usartRx) { press4 with rxDr := some 0x01#8, rxc := true }).isSome = true := by
  decide

/-- FaultStopsEveryAgent, BootComesFirst with interrupts on and off. -/
theorem witness_FaultAndBoot :
    configLegal cfg4 = true ∧ ({ booted4 with fault := some .panicMode } : State).fault = some .panicMode ∧
      State.reset.fault = none ∧ State.reset.booted = false ∧ State.reset.cfg.bootEnablesInterrupts = true ∧
      configLegal { cfg4 with bootEnablesInterrupts := false } = true := by decide

/-- InvHoldsAtReset, StepKeepsInv: the extreme legal parameters, and a step. -/
theorem witness_StepKeepsInv :
    configLegal { cfg4 with rxqN := 2, txqN := 2, debounceDelay := 16 } = true ∧
      configLegal { cfg4 with debounceDelay := 1 } = true ∧
      Inv (withTurns [.timebase] pressing4) ∧ ForegroundClient (withTurns [.timebase] pressing4) ∧
      nextIs (fun t => t.tmr.state == .expired) (withTurns [.timebase] pressing4) = true :=
  ⟨by decide, by decide, inv_of_check (by decide), by decide, by decide⟩

/-- StepRunsTheDecodedUnit: each agent that runs an instruction, and an operation that ends and one that waits. -/
theorem witness_StepRunsTheDecodedUnit :
    (let s := withTurns [.fg] (withLine (.op (.writeByte 0x41#8)) booted4);
      Running s ∧ s.cfg.launch = .component ∧ nextTurn s = .fg ∧
        (fetchEntry s).map (fun e =>
          (stopped e.issuer s, decodeUnit s.cfg.signature e.cls (issuedBytes e s) == .ok (.writeByte 0x41#8))) =
          some (false, true)) ∧
    (let s := withTurns [.fg] booted32;
      Running s ∧ s.cfg.launch = .fullEngine ∧ nextTurn s = .fg ∧ stopped .fg s = false) ∧
    (let s := withTurns [.int .pinChange] pressing4;
      Running s ∧ nextTurn s = .int .pinChange ∧ s.gie = true ∧ requesting .pinChange s = true ∧
        stopped .int s = false) ∧
    (let e := portEntry 0#64 .fg .readByteBlocking;
      let t : State := { booted4 with result := some .wouldBlock }
      t.fault = none ∧ stopped e.issuer t = false ∧ e.mode = .blocking ∧ endRule .readByte = .attempt ∧
        t.result = some .wouldBlock ∧ booted4.result ≠ some .wouldBlock ∧ booted4.result ≠ some .pending ∧
        (portEntry 0#64 .fg (.op .readByte)).mode = .once) ∧
    (let s := withTurns [.fg] (withLine .criticalEnter booted4);
      Running s ∧ nextTurn s = .fg ∧ stopped .fg s = false ∧
        fetchEntry s = some (portEntry s.cfg.signature .fg .criticalEnter)) ∧
    (let s : State := { withTurns [.fg] (withLine .criticalExit booted4) with tokens := [true, false] };
      Running s ∧ nextTurn s = .fg ∧ stopped .fg s = false ∧
        fetchEntry s = some (portEntry s.cfg.signature .fg .criticalExit)) ∧
    endRule .frHandshake = .manySteps := by decide

/-- DecodeAndEncodeAgree: a string at its greatest length's neighbour, and bytes after an operation. -/
theorem witness_DecodeAndEncodeAgree :
    wellFormed (.write [0x41#8]) = true ∧ unitClass (.write [0x41#8]) = .operation ∧
      wellFormed (.rspRootOk sentinelNaN 0x03#64) = true ∧
      decodeOp [0x23#8, 0xFF#8, 0xFF#8, 0x22#8] = .ok (.read 0xFFFF#16, [0x22#8]) := by decide

/-- GieAndOverrunAreWrittenByTheirRules: a CS.ENTER, the boot step, and an overrun. -/
theorem witness_GieAndOverrunAreWrittenByTheirRules :
    nextIs (fun t => t.gie == false) (withTurns [.fg] (withLine (.op .csEnter) booted4)) = true ∧
      nextIs (fun t => t.gie) State.reset = true ∧
      nextIs (fun t => t.dor) (withTurns [.host] { receiving4 with hostRxPos := 2 }) = true := by decide

end Sys2Proof.Tests
end

section
/-! Support for the statements about whose turn it is and what its step runs (00_scope.md): what an agent that is not
enabled does with its turn (log 2), how a turn comes to run the instruction its unit decodes to, and when the client's
position moves. The two statements are settled at the end. -/

namespace Sys2Proof.Laws

open Sys2Proof.Machine Sys2Proof.Safety

/-- Using up a turn leaves the sources' requests alone (R353). -/
@[simp] theorem requesting_takeTurn (src : Source) (s : State) : requesting src (takeTurn s) = requesting src s := by
  cases src <;> rfl

/-! ## Agents that are not enabled -/

theorem lineTxStep_of_empty {s : State} (h : s.txDr = none) : lineTxStep s = s := by
  simp [lineTxStep, h]

theorem hostStep_of_exhausted {s : State} (h : s.hostRx.length ≤ s.hostRxPos) : hostStep s = s := by
  simp [hostStep, List.getElem?_eq_none h]

theorem timebaseStep_of_disabled {s : State} (h : s.tmr.state = .disabled) : timebaseStep s = s := by
  simp [timebaseStep, h]

theorem interruptStep_of_not_taken {src : Source} {s : State} (h : s.gie = false ∨ requesting src s = false) :
    interruptStep src s = .next s := by
  rcases h with h | h <;> simp [interruptStep, h]

/-! ## Agents that run an instruction -/

/-- The dispatcher runs the ISR of a source it may take (R355). -/
theorem interruptStep_of_taken {src : Source} {s : State} (hg : s.gie = true) (hr : requesting src s = true)
    (hs : stopped .int s = false) : interruptStep src s = exec (isrOf src) { s with issuer := .int } := by
  simp [interruptStep, hg, hr, hs]

theorem foregroundStep_fullEngine {s : State} (hl : s.cfg.launch = .fullEngine) (hs : stopped .fg s = false) :
    foregroundStep s = exec (engineInstr s) { s with issuer := .fg } := by
  simp [foregroundStep, hl, hs]

theorem foregroundStep_component {s : State} {e : PortEntry} (hl : s.cfg.launch = .component)
    (he : fetchEntry s = some e) (hs : stopped e.issuer s = false) : foregroundStep s = issueEntry e s := by
  simp [foregroundStep, hl, he, hs]

theorem issueEntry_of_decode {s : State} {e : PortEntry} {i : Instr}
    (hd : decodeUnit s.cfg.signature e.cls (issuedBytes e s) = .ok i) :
    issueEntry e s = mapNext (settle e i) (exec i (present e s)) := by
  simp [issueEntry, hd]

/-- A running block steps the agent whose turn it is (R16). -/
theorem step_of_running {s : State} {a : Turn} (h : Running s) (hn : nextTurn s = a) :
    step s = agentStep a (takeTurn s) := by
  obtain ⟨hc, hf, hb⟩ := h
  rw [step_running hc hf hb, hn]

/-- A foreground turn in component use runs the decoded unit, then the client's bookkeeping (R31). -/
theorem step_component_of_decode {s : State} {e : PortEntry} {i : Instr} (h : Running s)
    (hl : s.cfg.launch = .component) (hn : nextTurn s = .fg) (he : fetchEntry s = some e)
    (hs : stopped e.issuer s = false) (hd : decodeUnit s.cfg.signature e.cls (issuedBytes e s) = .ok i) :
    step s = mapNext (settle e i) (exec i (present e (takeTurn s))) :=
  calc step s = foregroundStep (takeTurn s) := step_of_running h hn
    _ = issueEntry e (takeTurn s) := foregroundStep_component hl he hs
    _ = mapNext (settle e i) (exec i (present e (takeTurn s))) := issueEntry_of_decode hd

/-- A foreground turn of the full engine runs the framer's operation of the phase (R240). -/
theorem step_fullEngine {s : State} (h : Running s) (hl : s.cfg.launch = .fullEngine) (hn : nextTurn s = .fg)
    (hs : stopped .fg s = false) : step s = exec (engineInstr s) { takeTurn s with issuer := .fg } :=
  calc step s = foregroundStep (takeTurn s) := step_of_running h hn
    _ = exec (engineInstr s) { takeTurn s with issuer := .fg } := foregroundStep_fullEngine hl hs

/-- A dispatcher's turn runs the ISR of the source it took (R355). -/
theorem step_interrupt {s : State} {src : Source} (h : Running s) (hn : nextTurn s = .int src) (hg : s.gie = true)
    (hr : requesting src s = true) (hs : stopped .int s = false) :
    step s = exec (isrOf src) { takeTurn s with issuer := .int } :=
  calc step s = interruptStep src (takeTurn s) := step_of_running h hn
    _ = exec (isrOf src) { takeTurn s with issuer := .int } :=
      interruptStep_of_taken hg ((requesting_takeTurn src s).trans hr) hs

/-! ## When the client moves on -/

/-- An operation has ended when it raised no fault, was not refused, is no framer operation that answers `pending` and
no blocking form that answers WouldBlock (R31, R205; log 16). -/
theorem opEnded_iff (e : PortEntry) (i : Instr) (t : State) :
    opEnded e i t = true ↔
      t.fault = none ∧ stopped e.issuer t = false ∧ ¬(endRule i = .manySteps ∧ t.result = some .pending) ∧
        ¬(e.mode = .blocking ∧ endRule i = .attempt ∧ t.result = some .wouldBlock) := by
  unfold opEnded
  cases endRule i with
  | atOnce => simp
  | attempt => simp [and_assoc, imp_iff_not_or]
  | manySteps => simp [and_assoc]

theorem settle_of_not_ended {e : PortEntry} {i : Instr} {t : State} (h : ¬ opEnded e i t = true) :
    settle e i t = t := if_neg h

theorem settle_of_ended {e : PortEntry} {i : Instr} {t : State} (h : opEnded e i t = true) :
    settle e i t = keepToken e { t with idx := t.idx + 1 } := if_pos h

theorem keepToken_plain {e : PortEntry} (h : e.mode = .once ∨ e.mode = .blocking) (t : State) :
    keepToken e t = t := by
  rcases h with h | h <;> simp [keepToken, h]

theorem keepToken_saveToken {e : PortEntry} {t : State} {b : Bool} (h : e.mode = .saveToken)
    (hr : t.result = some (.okToken b)) : keepToken e t = { t with tokens := b :: t.tokens } := by
  simp [keepToken, h, hr]

theorem keepToken_restoreToken {e : PortEntry} (h : e.mode = .restoreToken) (t : State) :
    keepToken e t = { t with tokens := t.tokens.drop 1 } := by
  simp [keepToken, h]

/-! ## The two ends of a CRITICAL region -/

/-- What CS.ENTER does for an issuer of its class (R180). -/
theorem exec_csEnter {s : State} (hi : s.issuer ∈ [Issuer.fg, Issuer.internal]) :
    exec .csEnter s = .next { s with gie := false, result := some (.okToken s.gie) } := by
  simp only [exec, execCsEnter]
  rw [issue_allowed hi]
  rfl

/-- The byte of a kept token is a legal operand of CS.EXIT and stands for the token (R101, R181). -/
theorem exec_csExit_tokenByte {s : State} (hi : s.issuer ∈ [Issuer.fg, Issuer.internal]) (b : Bool) :
    exec (.csExit (tokenByte b)) s = .next { s with gie := b, result := some .ok } := by
  have hlegal : legalToken (tokenByte b) = true := by cases b <;> rfl
  have hflag : tokenFlag (tokenByte b) = b := by cases b <;> rfl
  simp only [exec, execCsExit, issueChecked, hlegal, hflag, if_true]
  rw [issue_allowed hi]
  rfl

/-- The step of a client's unit that ends at once, neither raising a fault nor being refused: the client keeps or drops
a token and moves on (R31). -/
theorem step_atOnce {s t : State} {e : PortEntry} {i : Instr} (h : Running s) (hl : s.cfg.launch = .component)
    (hn : nextTurn s = .fg) (he : fetchEntry s = some e) (hs : stopped e.issuer s = false)
    (hd : decodeUnit s.cfg.signature e.cls (issuedBytes e s) = .ok i) (hi : endRule i = .atOnce)
    (hx : exec i (present e (takeTurn s)) = .next t) (hf : t.fault = s.fault) (hr : t.refusals = s.refusals) :
    step s = .next (keepToken e { t with idx := t.idx + 1 }) := by
  have hfault : s.fault = none := h.2.1
  have hstopped : stopped e.issuer t = false := by
    unfold stopped at hs ⊢
    rw [hr, hs]
  have hend : opEnded e i t = true :=
    (opEnded_iff e i t).2 ⟨hf.trans hfault, hstopped, by simp [hi], by simp [hi]⟩
  rw [step_component_of_decode h hl hn he hs hd, hx, mapNext, settle_of_ended hend]

/-- The entry of a CRITICAL region keeps the token its CS.ENTER answers (R108, R182; log 18). -/
theorem step_criticalEnter {s : State} (h : Running s) (hl : s.cfg.launch = .component) (hn : nextTurn s = .fg)
    (hs : stopped .fg s = false) (he : fetchEntry s = some (portEntry s.cfg.signature .fg .criticalEnter)) :
    step s = .next { takeTurn s with
      issuer := .fg, gie := false, result := some (.okToken s.gie), tokens := s.gie :: s.tokens, idx := s.idx + 1 } := by
  rw [step_atOnce h hl hn he hs (i := .csEnter) rfl rfl (exec_csEnter List.mem_cons_self) rfl rfl,
    keepToken_saveToken rfl rfl]
  rfl

/-- The unit of a region's exit, as the client issues it, spells the CS.EXIT of the last token kept (R108; log 18). -/
theorem decodeUnit_criticalExit {s : State} {b : Bool} {ts : List Bool} (sig : BitVec 64) (ht : s.tokens = b :: ts) :
    decodeUnit sig .operation (issuedBytes (portEntry sig .fg .criticalExit) s) = .ok (.csExit (tokenByte b)) := by
  have hb : issuedBytes (portEntry sig .fg .criticalExit) s = [0x01#8, tokenByte b] := by
    simp [issuedBytes, portEntry, issueMode, ht]
  rw [hb]
  rfl

/-- The exit of a CRITICAL region gives GIE the last token kept and drops it (R182, R183; log 18). -/
theorem step_criticalExit {s : State} {b : Bool} {ts : List Bool} (h : Running s) (hl : s.cfg.launch = .component)
    (hn : nextTurn s = .fg) (hs : stopped .fg s = false)
    (he : fetchEntry s = some (portEntry s.cfg.signature .fg .criticalExit)) (ht : s.tokens = b :: ts) :
    step s = .next { takeTurn s with
      issuer := .fg, gie := b, result := some .ok, tokens := ts, idx := s.idx + 1 } := by
  have hdrop : ts = s.tokens.drop 1 := by simp [ht]
  rw [step_atOnce h hl hn he hs (decodeUnit_criticalExit _ ht) rfl (exec_csExit_tokenByte List.mem_cons_self b) rfl rfl,
    keepToken_restoreToken rfl, hdrop]
  rfl

/-! ## The statements -/

/-- Settles O25: in each case the agent's own step is the identity, so the turn used up is all that is left of the
step. -/
theorem disabledAgentsOnlyUseTheirTurn : Obligations.DisabledAgentsOnlyUseTheirTurn := by
  unfold Obligations.DisabledAgentsOnlyUseTheirTurn
  intro s h hcase
  show step s = .next (takeTurn s)
  rcases hcase with ⟨hn, hd⟩ | ⟨hn, hd⟩ | ⟨hn, hd⟩ | ⟨src, hn, hd⟩
  · exact (step_of_running h hn).trans (congrArg Host.Outcome.next (lineTxStep_of_empty (s := takeTurn s) hd))
  · exact (step_of_running h hn).trans (congrArg Host.Outcome.next (hostStep_of_exhausted (s := takeTurn s) hd))
  · exact (step_of_running h hn).trans (congrArg Host.Outcome.next (timebaseStep_of_disabled (s := takeTurn s) hd))
  · refine (step_of_running h hn).trans (interruptStep_of_not_taken ?_)
    rwa [requesting_takeTurn]

/-- Settles O56: the agents' clauses follow the turn to the instruction its unit decodes to; the clauses on the
client's position are those of `opEnded_iff`. -/
theorem stepRunsTheDecodedUnit : Obligations.StepRunsTheDecodedUnit := by
  unfold Obligations.StepRunsTheDecodedUnit
  refine ⟨fun _ => rfl, fun _ _ _ => step_component_of_decode, fun _ => step_fullEngine, fun _ _ => step_interrupt,
    fun s h hl hn hs => ⟨step_criticalEnter h hl hn hs, fun b ts => step_criticalExit h hl hn hs⟩, ?_⟩
  intro e i t
  refine ⟨fun h => ?faultOrRefusal, fun hr hp => ?pending, fun hm hr hw => ?wouldBlock, fun hf hs hp hw => ?ended⟩
  case faultOrRefusal =>
    refine settle_of_not_ended fun hend => ?_
    obtain ⟨hf, hs, -, -⟩ := (opEnded_iff e i t).1 hend
    rcases h with h | h
    · exact h hf
    · simp [hs] at h
  case pending =>
    refine settle_of_not_ended fun hend => ?_
    obtain ⟨-, -, hnp, -⟩ := (opEnded_iff e i t).1 hend
    exact hnp ⟨hr, hp⟩
  case wouldBlock =>
    refine settle_of_not_ended fun hend => ?_
    obtain ⟨-, -, -, hnw⟩ := (opEnded_iff e i t).1 hend
    exact hnw ⟨hm, hr, hw⟩
  case ended =>
    rw [settle_of_ended ((opEnded_iff e i t).2 ⟨hf, hs, hp, hw⟩)]
    exact ⟨fun hm => keepToken_plain hm _, fun _ hm hr => keepToken_saveToken hm hr,
      fun hm => keepToken_restoreToken hm _⟩

end Sys2Proof.Laws
end

section
/-! Support for the statements about the state as a whole (10_state.md): the invariants of R53 are proved part by part
(the queues, the transmit direction, the timer with the buttons), then for each agent's step. What the frame of every
instruction says is read off for the environment's state, GIE and DOR. The four statements are settled at the end. -/

namespace Sys2Proof.Laws

open Sys2Proof.Machine Sys2Proof.Safety

/-! ## Queues and the transmit direction -/

theorem ringPush_wf {n : Nat} {q : RingBuf} (v : Byte) (h : RingWf n q) : RingWf n (ringPush n v q).2 := by
  rcases ringPush_spec v h with ⟨-, hp⟩ | ⟨-, q', hp, ha⟩
  · rwa [hp]
  · rw [hp]
    exact ha.1

/-- Taking bytes for transmission keeps R53(a): only a non-empty string moves the driver, and then to Buffering. -/
theorem transmitEnableAgrees_of_sends {s t : State} {bs : List Byte} (hs : Sends s bs t)
    (h : TransmitEnableAgrees s) : TransmitEnableAgrees t := by
  obtain ⟨-, hx, hu⟩ := hs
  unfold TransmitEnableAgrees at h ⊢
  rw [hx, hu, h]
  by_cases hbs : bs = []
  · simp [hbs]
  · cases s.txState <;> simp [hbs]

/-- Taking bytes for transmission keeps R53(b): a driver that is still Idle took none. -/
theorem idleMeansEmpty_of_sends {s t : State} {bs : List Byte} (hs : Sends s bs t) (hcfg : t.cfg = s.cfg)
    (hw : RingWf s.cfg.txqN s.txq) (h : IdleMeansEmpty s) : IdleMeansEmpty t := by
  obtain ⟨⟨hw', -, -, hcontents, -⟩, hx, -⟩ := hs
  intro hidle
  rw [hx] at hidle
  by_cases hbs : bs = []
  · rw [if_pos hbs] at hidle
    rw [hcfg, contents_empty_iff hw', hcontents, hbs, (contents_empty_iff hw).1 (h hidle)]
    rfl
  · rw [if_neg hbs] at hidle
    cases hidle

/-! ## The timer and the buttons -/

/-- R53(e) to (g): the part of the invariants that the debouncer's rules keep. -/
abbrev DebouncerBounded (s : State) : Prop := TimerBounded s ∧ ButtonsBounded s

theorem buttonBounded_iff (s : State) (b : ButtonState) :
    ButtonBounded s b ↔
      ∀ r, b = .down r → 1 ≤ r ∧ r ≤ s.cfg.debounceDelay + s.tmr.tcnt ∧ s.tmr.state ≠ .disabled ∧ s.tmr.ocr ≤ r := by
  cases b <;> simp [ButtonBounded]

theorem buttonBounded_of_not_down {s : State} {b : ButtonState} (h : ∀ r, b ≠ .down r) : ButtonBounded s b :=
  (buttonBounded_iff s b).2 fun r hr => absurd hr (h r)

/-- The least live time is one button's live time and at most every button's (R315). -/
theorem leastLive_some {p : PerButton ButtonState} {m : Nat} (h : leastLive p = some m) :
    (liveTime p.b0 = some m ∨ liveTime p.b1 = some m) ∧
      (∀ r, liveTime p.b0 = some r → m ≤ r) ∧ ∀ r, liveTime p.b1 = some r → m ≤ r := by
  unfold leastLive at h
  cases h0 : liveTime p.b0 <;> cases h1 : liveTime p.b1 <;> simp only [h0, h1] at h
  · cases h
  · obtain rfl := Option.some.inj h
    simp
  · obtain rfl := Option.some.inj h
    simp
  · obtain rfl := Option.some.inj h
    simpa using le_total _ _

theorem leastLive_none {p : PerButton ButtonState} (h : leastLive p = none) :
    liveTime p.b0 = none ∧ liveTime p.b1 = none := by
  unfold leastLive at h
  cases h0 : liveTime p.b0 <;> cases h1 : liveTime p.b1 <;> simp [h0, h1] at h ⊢

/-- A bounded button that has not crossed the threshold has at most the debounce delay left (R315, R324). -/
theorem liveTime_elapse_bounded {s : State} {b : ButtonState} (h : ButtonBounded s b) {m : Nat}
    (hm : liveTime (elapse s.tmr.tcnt b) = some m) : 1 ≤ m ∧ m ≤ s.cfg.debounceDelay := by
  rw [liveTime_elapse] at hm
  cases b with
  | up => cases hm
  | pressed => cases hm
  | down r =>
    obtain ⟨-, hr, -, -⟩ := h
    simp only [Option.ite_none_right_eq_some, Option.some.injEq] at hm
    omega

/-- A button after a timer ISR that re-arms for at most the time the button has left (R315, R317). -/
theorem buttonBounded_afterTimer {s t : State} {b : ButtonState} {m : Nat} (h : ButtonBounded s b)
    (hm : ∀ r, liveTime (elapse s.tmr.tcnt b) = some r → m ≤ r) (hcfg : t.cfg = s.cfg)
    (htmr : t.tmr = ⟨.running, 0, min m timerSpan⟩) : ButtonBounded t (afterTimer s.tmr.tcnt b) := by
  refine (buttonBounded_iff _ _).2 fun r hr => ?_
  have hlive := (afterTimer_down _ _ _).1 hr
  obtain ⟨hpos, hdelay⟩ := liveTime_elapse_bounded h hlive
  rw [hcfg, htmr]
  exact ⟨hpos, hdelay, nofun, (Nat.min_le_left m timerSpan).trans (hm r hlive)⟩

theorem afterTimer_not_down {e : Nat} {b : ButtonState} (h : liveTime (elapse e b) = none) (r : Nat) :
    afterTimer e b ≠ .down r := by
  rw [Ne, afterTimer_down, h]
  nofun

/-- The timer ISR (R315): with a button still Down the timer runs anew to the least time left, else it is Disabled and
no button is Down. -/
theorem timerBody_debouncerBounded {s : State} (h : DebouncerBounded s) : DebouncerBounded (timerBody s) := by
  obtain ⟨⟨-, -, -, hocr⟩, hb0, hb1, -⟩ := h
  rw [timerBody_eq]
  unfold rearmed
  cases hl : leastLive ⟨elapse s.tmr.tcnt s.btn.b0, elapse s.tmr.tcnt s.btn.b1⟩ with
  | none =>
    obtain ⟨h0, h1⟩ := leastLive_none hl
    exact ⟨⟨nofun, nofun, fun _ => rfl, hocr⟩, buttonBounded_of_not_down (afterTimer_not_down h0),
      buttonBounded_of_not_down (afterTimer_not_down h1), fun hn => absurd rfl hn⟩
  | some m =>
    obtain ⟨hm, hle0, hle1⟩ := leastLive_some hl
    have hrange : 1 ≤ m ∧ m ≤ s.cfg.debounceDelay :=
      hm.elim (liveTime_elapse_bounded hb0) (liveTime_elapse_bounded hb1)
    have hpos : 1 ≤ min m timerSpan := le_min hrange.1 (by decide)
    exact ⟨⟨fun _ => hpos, nofun, nofun, hpos, Nat.min_le_right m timerSpan⟩,
      buttonBounded_afterTimer hb0 hle0 rfl rfl, buttonBounded_afterTimer hb1 hle1 rfl rfl,
      fun _ => (Nat.min_le_left m timerSpan).trans hrange.2⟩

/-- A button that is Down after its level is sampled was Down with that time, or is a new press (R310). -/
theorem sampleButton_down {remaining r : Nat} {level : Bool} {b : ButtonState}
    (h : sampleButton remaining level b = .down r) : b = .down r ∨ r = remaining := by
  unfold sampleButton at h
  split at h
  · exact .inr (by simpa using h.symm)
  · exact .inl h
  · cases h

/-- A new press gets at most the ticks counted on top of the debounce delay (R310, R311). -/
theorem pressOffset_le (s : State) : pressOffset s ≤ s.tmr.tcnt := by
  unfold pressOffset
  split <;> simp

theorem pressOffset_of_disabled {s : State} (h : s.tmr.state = .disabled) : pressOffset s = 0 := by
  unfold pressOffset
  rw [h]
  cases s.cfg.debounceMode <;> rfl

/-- A sampled button, when the timer is left to run or armed for the debounce delay (R310): a new press has at least
the delay left, which no armed timer exceeds. -/
theorem buttonBounded_sampled {s t : State} {b : ButtonState} (level : Bool) (h : ButtonBounded s b)
    (hdelay : 1 ≤ s.cfg.debounceDelay) (hocr : s.tmr.state ≠ .disabled → s.tmr.ocr ≤ s.cfg.debounceDelay)
    (hcfg : t.cfg = s.cfg)
    (htmr : t.tmr = if s.tmr.state = .disabled then ⟨.running, 0, s.cfg.debounceDelay⟩ else s.tmr) :
    ButtonBounded t (sampleButton (s.cfg.debounceDelay + pressOffset s) level b) := by
  refine (buttonBounded_iff _ _).2 fun r hr => ?_
  rw [hcfg, htmr]
  by_cases hd : s.tmr.state = .disabled
  · rw [if_pos hd]
    rcases sampleButton_down hr with rfl | rfl
    · obtain ⟨-, -, hrunning, -⟩ := h
      exact absurd hd hrunning
    · rw [pressOffset_of_disabled hd]
      exact ⟨hdelay, le_rfl, nofun, le_rfl⟩
  · rw [if_neg hd]
    rcases sampleButton_down hr with rfl | rfl
    · exact h
    · have := pressOffset_le s
      have := hocr hd
      exact ⟨by omega, by omega, hd, by omega⟩

theorem allUp_iff (p : PerButton ButtonState) : allUp p = true ↔ p.b0 = .up ∧ p.b1 = .up := by
  simp [allUp]

/-- The pin-change ISR (R310): with every button Up the timer is Disabled, else it runs on or is armed for the debounce
delay. -/
theorem pcintBody_debouncerBounded {s : State} (hc : configLegal s.cfg = true) (h : DebouncerBounded s) :
    DebouncerBounded (pcintBody s) := by
  obtain ⟨-, -, hpos, hspan⟩ := configLegal_spec hc
  obtain ⟨ht, hb0, hb1, harmed⟩ := h
  rw [pcintBody_eq]
  unfold afterPins
  by_cases hu : allUp (sampledButtons s) = true
  · obtain ⟨h0, h1⟩ := (allUp_iff _).1 hu
    obtain ⟨-, -, -, hocr⟩ := ht
    rw [if_pos hu]
    refine ⟨⟨nofun, nofun, fun _ => rfl, hocr⟩, ?_, ?_, fun hn => absurd rfl hn⟩
    · exact buttonBounded_of_not_down (by simp [h0])
    · exact buttonBounded_of_not_down (by simp [h1])
  · rw [if_neg hu]
    refine ⟨?_, buttonBounded_sampled _ hb0 hpos harmed rfl rfl, buttonBounded_sampled _ hb1 hpos harmed rfl rfl, ?_⟩
    · by_cases hd : s.tmr.state = .disabled
      · rw [if_pos hd]
        exact ⟨fun _ => hpos, nofun, nofun, hpos, hspan⟩
      · rw [if_neg hd]
        exact ht
    · by_cases hd : s.tmr.state = .disabled
      · rw [if_pos hd]
        exact fun _ => le_rfl
      · rw [if_neg hd]
        exact harmed

/-- A tick counted raises the bound on the buttons and nothing else they are held to (R304, R324). -/
theorem buttonsBounded_tick {s : State} {x : TimerState} (h : ButtonsBounded s) (hs : s.tmr.state ≠ .disabled)
    (hx : x ≠ .disabled) : ButtonsBounded { s with tmr := ⟨x, s.tmr.tcnt + 1, s.tmr.ocr⟩ } := by
  have hone : ∀ b, ButtonBounded s b → ButtonBounded { s with tmr := ⟨x, s.tmr.tcnt + 1, s.tmr.ocr⟩ } b := by
    intro b hb
    refine (buttonBounded_iff _ _).2 fun r hr => ?_
    obtain ⟨hpos, hle, -, hocr⟩ := (buttonBounded_iff _ _).1 hb r hr
    exact ⟨hpos, Nat.le_succ_of_le hle, hx, hocr⟩
  obtain ⟨hb0, hb1, harmed⟩ := h
  exact ⟨hone _ hb0, hone _ hb1, fun _ => harmed hs⟩

/-- TIMEBASE (R304): a Running timer stays below the compare value or expires at it, an Expired one counts to
TIMER_SPAN and no further. -/
theorem timebaseStep_debouncerBounded {s : State} (h : DebouncerBounded s) :
    DebouncerBounded (timebaseStep s) := by
  obtain ⟨⟨hrun, hexp, hdis, hpos, hspan⟩, hb⟩ := h
  unfold timebaseStep
  split
  · exact ⟨⟨hrun, hexp, hdis, hpos, hspan⟩, hb⟩
  · next hx =>
    have hlt := hrun hx
    have hb' := fun x => buttonsBounded_tick (x := x) hb (by simp [hx])
    by_cases hm : s.tmr.tcnt + 1 = s.tmr.ocr
    · rw [if_pos hm]
      exact ⟨⟨nofun, fun _ => ⟨hm.ge, hm.trans_le hspan⟩, nofun, hpos, hspan⟩, hb' .expired nofun⟩
    · rw [if_neg hm]
      exact ⟨⟨fun _ => lt_of_le_of_ne hlt hm, nofun, nofun, hpos, hspan⟩, hb' .running nofun⟩
  · next hx =>
    obtain ⟨hle, hmax⟩ := hexp hx
    by_cases hm : s.tmr.tcnt = timerSpan
    · rw [if_pos hm]
      exact ⟨⟨hrun, hexp, hdis, hpos, hspan⟩, hb⟩
    · rw [if_neg hm]
      exact ⟨⟨nofun, fun _ => ⟨Nat.le_succ_of_le hle, lt_of_le_of_ne hmax hm⟩, nofun, hpos, hspan⟩,
        buttonsBounded_tick hb (by simp [hx]) nofun⟩

/-! ## The invariants along each agent's step -/

theorem inv_lineTxStep {s : State} (h : Inv s) : Inv (lineTxStep s) := by
  unfold lineTxStep
  split
  · obtain ⟨hcfg, hen, hte, hidle, ⟨-, hrx⟩, hrest⟩ := h
    exact ⟨hcfg, hen, hte, hidle, ⟨rfl, hrx⟩, hrest⟩
  · exact h

theorem inv_hostStep {s : State} (h : Inv s) : Inv (hostStep s) := by
  unfold hostStep
  split
  · obtain ⟨hcfg, hen, hte, hidle, ⟨htx, -⟩, hrest⟩ := h
    exact ⟨hcfg, hen, hte, hidle, ⟨htx, rfl⟩, hrest⟩
  · exact h

/-- A rule of the debouncer keeps the invariants when it keeps the debouncer's own part of them. -/
theorem inv_of_debouncerBounded {s t : State} (h : Inv s) (ht : DebouncerBounded t)
    (hframe : t = { s with fault := t.fault, pcif := t.pcif, btn := t.btn, tmr := t.tmr, press := t.press }) :
    Inv t := by
  obtain ⟨hcfg, hen, hte, hidle, hflags, hqueues, -, -, hfr⟩ := h
  obtain ⟨htmr, hbtn⟩ := ht
  rw [hframe] at htmr hbtn ⊢
  exact ⟨hcfg, hen, hte, hidle, hflags, hqueues, htmr, hbtn, hfr⟩

theorem debouncerBounded_of_inv {s : State} (h : Inv s) : DebouncerBounded s := by
  obtain ⟨-, -, -, -, -, -, htmr, hbtn, -⟩ := h
  exact ⟨htmr, hbtn⟩

theorem inv_timebaseStep {s : State} (h : Inv s) : Inv (timebaseStep s) := by
  refine inv_of_debouncerBounded h (timebaseStep_debouncerBounded (debouncerBounded_of_inv h)) ?_
  unfold timebaseStep
  (repeat' split) <;> rfl

/-- The receive ISR (R210): the register is emptied with its flag, and RXQ takes a byte or drops it. -/
theorem inv_usartRxBody {s : State} (h : Inv s) : Inv (usartRxBody s) := by
  obtain ⟨hcfg, hen, hte, hidle, ⟨htx, -⟩, ⟨hrxq, htxq⟩, hrest⟩ := h
  rw [usartRxBody_eq]
  refine ⟨hcfg, hen, hte, hidle, ⟨htx, rfl⟩, ⟨?_, htxq⟩, hrest⟩
  cases s.rxDr with
  | some b => exact ringPush_wf b hrxq
  | none => exact hrxq

/-- The transmit-empty ISR (R211): a byte taken shows that the driver was not Idle; with none left it goes Idle, and
TXQ is empty. -/
theorem inv_usartUdreBody {s : State} (h : Inv s) : Inv (usartUdreBody s) := by
  obtain ⟨hcfg, hen, hte, hidle, ⟨htx, hrx⟩, ⟨hrxq, htxq⟩, hrest⟩ := h
  rw [usartUdreBody_eq]
  rcases ringPop_spec htxq with ⟨hnil, hp⟩ | ⟨b, q, hcons, hp, hwf, -⟩
  · rw [hp]
    exact ⟨hcfg, hen, rfl, fun _ => (contents_empty_iff htxq).2 hnil, ⟨htx, hrx⟩, ⟨hrxq, htxq⟩, hrest⟩
  · rw [hp]
    have hbusy : s.txState ≠ .idle := by
      intro hi
      rw [(contents_empty_iff htxq).1 (hidle hi)] at hcons
      cases hcons
    exact ⟨hcfg, hen, hte, fun hi => absurd hi hbusy, ⟨rfl, hrx⟩, ⟨hrxq, hwf⟩, hrest⟩

theorem inv_isrBody (src : Source) {s : State} (h : Inv s) : Inv (isrBody src s) := by
  cases src with
  | usartRx => exact inv_usartRxBody h
  | usartUdre => exact inv_usartUdreBody h
  | pinChange =>
    exact inv_of_debouncerBounded h (pcintBody_debouncerBounded h.1 (debouncerBounded_of_inv h))
      (by rw [isrBody, pcintBody_eq])
  | timer =>
    exact inv_of_debouncerBounded h (timerBody_debouncerBounded (debouncerBounded_of_inv h))
      (by rw [isrBody, timerBody_eq])

theorem queuesReady_of_inv {s : State} (h : Inv s) : QueuesReady s := by
  obtain ⟨hcfg, -, -, -, -, hqueues, -⟩ := h
  obtain ⟨-, htxq, -⟩ := configLegal_spec hcfg
  exact ⟨htxq, hqueues⟩

/-- The foreground moves the queues, the driver and the framer, each within its invariant. -/
theorem inv_foregroundStep {s t : State} (h : Inv s) (hs : ForegroundStep s t) : Inv t := by
  obtain ⟨hcfg, hen, hte, hidle, hflags, ⟨hrxq, htxq⟩, htmr, hbtn, hfr⟩ := h
  obtain ⟨hframe, ⟨bs, hsends⟩, ⟨_, hrxq', -⟩, hfr'⟩ := hs
  have hte' := transmitEnableAgrees_of_sends hsends hte
  have hidle' := idleMeansEmpty_of_sends hsends (by rw [hframe]) htxq hidle
  obtain ⟨⟨htxq', -⟩, -⟩ := hsends
  have hfr'' := hfr' hfr
  rw [hframe] at hidle' ⊢
  exact ⟨hcfg, hen, hte', hidle', hflags, ⟨hrxq', htxq'⟩, htmr, hbtn, hfr''⟩

/-- R53: every step keeps the invariants, for a client that issues as the foreground (log 27). -/
theorem step_inv {s t : State} (h : Inv s) (hc : ForegroundClient s) (hs : step s = .next t) : Inv t := by
  obtain ⟨-, -, ⟨-, rfl⟩ | ⟨-, hagent⟩⟩ := step_next_cases (queuesReady_of_inv h) hc hs
  · exact h
  · rcases hagent with ⟨-, hfg⟩ | ⟨src, -, ⟨-, -, rfl⟩ | ⟨-, rfl⟩⟩ | ⟨-, rfl⟩ | ⟨-, rfl⟩ | ⟨i, -, rfl⟩ | ⟨-, rfl⟩
    · exact inv_foregroundStep h hfg
    · exact inv_isrBody src h
    · exact h
    · exact inv_lineTxStep h
    · exact inv_hostStep h
    · exact h
    · exact inv_timebaseStep h

/-! ## The port, GIE and DOR along each agent's step -/

/-- The two instructions that write GIE for their issuer (R32). -/
abbrev WritesGie (i : Instr) : Prop := i = .csEnter ∨ ∃ b, i = .csExit b

theorem instrFrame_port {s t : State} (h : InstrFrame s t) : t.port = s.port := by rw [h]

theorem instrFrame_dor {s t : State} (h : InstrFrame s t) : t.dor = s.dor := by rw [h]

@[simp] theorem present_port (e : PortEntry) (s : State) : (present e s).port = s.port := by rw [present_frame]

@[simp] theorem present_dor (e : PortEntry) (s : State) : (present e s).dor = s.dor := by rw [present_frame]

@[simp] theorem present_gie (e : PortEntry) (s : State) : (present e s).gie = s.gie := by rw [present_frame]

theorem isrBody_port (src : Source) (s : State) : (isrBody src s).port = s.port := by rw [isrBody_frame]

theorem isrBody_dor (src : Source) (s : State) : (isrBody src s).dor = s.dor := by rw [isrBody_frame]

theorem isrBody_gie (src : Source) (s : State) : (isrBody src s).gie = s.gie := by rw [isrBody_frame]

theorem engineInstr_not_writesGie (s : State) : ¬ WritesGie (engineInstr s) := by
  unfold engineInstr
  split <;> simp [WritesGie]

/-- Issuing a unit (R100): the port and DOR stay, and GIE changes only where the unit decodes to a CS operation. -/
theorem issueEntry_writes {e : PortEntry} {s t : State} (h : issueEntry e s = .next t) :
    t.port = s.port ∧ t.dor = s.dor ∧
      (t.gie = s.gie ∨ ∃ i, decodeUnit s.cfg.signature e.cls (issuedBytes e s) = .ok i ∧ WritesGie i) := by
  unfold issueEntry at h
  split at h
  · next i hd =>
    obtain ⟨u, hx, hu, -, hg⟩ := exec_frame i (present e s)
    rw [hx, mapNext, settle_frame] at h
    obtain rfl := Host.Outcome.next.inj h
    exact ⟨(instrFrame_port hu).trans (present_port e s), (instrFrame_dor hu).trans (present_dor e s),
      hg.imp (fun hg => hg.trans (present_gie e s)) (fun hi => ⟨i, hd, hi⟩)⟩
  · obtain rfl := Host.Outcome.next.inj h
    exact ⟨present_port e s, present_dor e s, .inl (present_gie e s)⟩
  · obtain rfl := Host.Outcome.next.inj h
    exact ⟨present_port e s, present_dor e s, .inl (present_gie e s)⟩
  · cases h
  · cases h

/-- A unit of the client's port that writes GIE is the next to be issued (R31, R32). -/
abbrev ClientWritesGie (s : State) : Prop :=
  s.cfg.launch = .component ∧ ∃ e i, fetchEntry s = some e ∧
    decodeUnit s.cfg.signature e.cls (issuedBytes e s) = .ok i ∧ WritesGie i

theorem foregroundStep_writes {s t : State} (h : foregroundStep s = .next t) :
    t.port = s.port ∧ t.dor = s.dor ∧ (t.gie = s.gie ∨ ClientWritesGie s) := by
  have same : ∀ {u : State}, Host.Outcome.next (φ := Fault) (ρ := Refusal) s = .next u →
      u.port = s.port ∧ u.dor = s.dor ∧ (u.gie = s.gie ∨ ClientWritesGie s) := by
    intro u hu
    obtain rfl := Host.Outcome.next.inj hu
    exact ⟨rfl, rfl, .inl rfl⟩
  unfold foregroundStep at h
  split at h
  · split at h
    · exact same h
    · obtain ⟨u, hx, hu, -, hg⟩ := exec_frame (engineInstr s) { s with issuer := .fg }
      rw [hx] at h
      obtain rfl := Host.Outcome.next.inj h
      have hport := instrFrame_port hu
      have hdor := instrFrame_dor hu
      exact ⟨hport, hdor, .inl (hg.resolve_right (engineInstr_not_writesGie s))⟩
  · next hl =>
    split at h
    · exact same h
    · next e he =>
      split at h
      · exact same h
      · obtain ⟨hport, hdor, hgie⟩ := issueEntry_writes h
        exact ⟨hport, hdor, hgie.imp_right fun ⟨i, hd, hi⟩ => ⟨hl, e, i, he, hd, hi⟩⟩

theorem interruptStep_writes {src : Source} {s t : State} (h : interruptStep src s = .next t) :
    t.port = s.port ∧ t.dor = s.dor ∧ t.gie = s.gie := by
  rcases interruptStep_next h with ⟨-, -, rfl⟩ | ⟨-, rfl⟩
  · exact ⟨isrBody_port _ _, isrBody_dor _ _, isrBody_gie _ _⟩
  · exact ⟨rfl, rfl, rfl⟩

theorem lineTxStep_writes (s : State) :
    (lineTxStep s).port = s.port ∧ (lineTxStep s).dor = s.dor ∧ (lineTxStep s).gie = s.gie := by
  unfold lineTxStep
  split <;> exact ⟨rfl, rfl, rfl⟩

theorem timebaseStep_writes (s : State) :
    (timebaseStep s).port = s.port ∧ (timebaseStep s).dor = s.dor ∧ (timebaseStep s).gie = s.gie := by
  unfold timebaseStep
  (repeat' split) <;> exact ⟨rfl, rfl, rfl⟩

/-- HOST adds RXC to DOR when it delivers (R41, R222). -/
theorem hostStep_writes (s : State) :
    (hostStep s).port = s.port ∧ ((hostStep s).dor = s.dor ∨ (hostStep s).dor = (s.dor || s.rxc)) ∧
      (hostStep s).gie = s.gie := by
  unfold hostStep
  split
  · exact ⟨rfl, .inr rfl, rfl⟩
  · exact ⟨rfl, .inl rfl, rfl⟩

/-- No agent writes the port; only HOST writes DOR and only the foreground leaves GIE changed. -/
theorem agentStep_writes {a : Turn} {s t : State} (h : agentStep a s = .next t) :
    t.port = s.port ∧ (t.dor = s.dor ∨ (a = .host ∧ t.dor = (s.dor || s.rxc))) ∧
      (t.gie = s.gie ∨ (a = .fg ∧ ClientWritesGie s)) := by
  cases a with
  | fg =>
    obtain ⟨hport, hdor, hgie⟩ := foregroundStep_writes h
    exact ⟨hport, .inl hdor, hgie.imp_right fun hw => ⟨rfl, hw⟩⟩
  | int src =>
    obtain ⟨hport, hdor, hgie⟩ := interruptStep_writes h
    exact ⟨hport, .inl hdor, .inl hgie⟩
  | lineTx =>
    obtain rfl := Host.Outcome.next.inj h
    obtain ⟨hport, hdor, hgie⟩ := lineTxStep_writes s
    exact ⟨hport, .inl hdor, .inl hgie⟩
  | host =>
    obtain rfl := Host.Outcome.next.inj h
    obtain ⟨hport, hdor, hgie⟩ := hostStep_writes s
    exact ⟨hport, hdor.imp_right fun hd => ⟨rfl, hd⟩, .inl hgie⟩
  | pins i =>
    obtain rfl := Host.Outcome.next.inj h
    exact ⟨rfl, .inl rfl, .inl rfl⟩
  | timebase =>
    obtain rfl := Host.Outcome.next.inj h
    obtain ⟨hport, hdor, hgie⟩ := timebaseStep_writes s
    exact ⟨hport, .inl hdor, .inl hgie⟩

/-- The same over a whole step, which is boot or an agent's (R405, R16). -/
theorem step_writes {s t : State} (h : step s = .next t) :
    t.port = s.port ∧ (t.dor = s.dor ∨ (nextTurn s = .host ∧ t.dor = (s.dor || s.rxc))) ∧
      (t.gie = s.gie ∨ s.booted = false ∨ (nextTurn s = .fg ∧ ClientWritesGie s)) := by
  rcases step_cases s with ⟨-, e⟩ | ⟨-, c, -, e⟩ | ⟨-, -, hb, e⟩ | ⟨-, -, -, e⟩
  · rw [e] at h
    cases h
  · rw [e] at h
    cases h
  · rw [e] at h
    obtain rfl := Host.Outcome.next.inj h
    exact ⟨rfl, .inl rfl, .inr (.inl hb)⟩
  · rw [e] at h
    obtain ⟨hport, hdor, hgie⟩ := agentStep_writes h
    exact ⟨hport, hdor, hgie.imp_right .inr⟩

theorem step_foregroundClient {s t : State} (hc : ForegroundClient s) (h : step s = .next t) :
    ForegroundClient t := by
  obtain ⟨hport, -, -⟩ := step_writes h
  unfold ForegroundClient
  rwa [hport]

/-! ## Reset -/

/-- A legal configuration starts with empty queues, an Idle driver, every button Up and the framer at HS_SEND(0), which
meet every invariant (R37, R400). -/
theorem inv_resetWith {c : Config} (hc : configLegal c = true) : Inv (resetWith c) := by
  obtain ⟨hrxq, htxq, -, -⟩ := configLegal_spec hc
  obtain ⟨hrxwf, -⟩ := emptyRing_wf hrxq
  obtain ⟨htxwf, hnil⟩ := emptyRing_wf htxq
  have htimer : TimerBounded (resetWith c) := ⟨nofun, nofun, fun _ => rfl, le_rfl, by simp [resetWith, timerSpan]⟩
  have hbuttons : ButtonsBounded (resetWith c) := ⟨trivial, trivial, fun hn => absurd rfl hn⟩
  have hframer : FramerBounded (resetWith c) := 
    ⟨Nat.zero_lt_two, Nat.zero_le _, rfl, Nat.zero_le _, Nat.zero_lt_succ 255⟩
  exact ⟨hc, ⟨rfl, rfl⟩, rfl, fun _ => (contents_empty_iff htxwf).2 hnil, ⟨rfl, rfl⟩, ⟨hrxwf, htxwf⟩,
    htimer, hbuttons, hframer⟩

theorem configLegal_defaultConfig : configLegal defaultConfig = true := by decide

/-! ## The statements -/

/-- Settles O55: `step_inv` agent by agent, and no step writes the port. -/
theorem stepKeepsInv : Obligations.StepKeepsInv := by
  unfold Obligations.StepKeepsInv
  exact fun s t h hc hs => ⟨step_inv h hc hs, step_foregroundClient hc hs⟩

/-- Settles O59: the frame of every instruction, `exec_frame`, read off field by field. -/
theorem noInstructionTouchesTheEnvironment : Obligations.NoInstructionTouchesTheEnvironment := by
  unfold Obligations.NoInstructionTouchesTheEnvironment
  intro i s
  obtain ⟨t, hx, hframe, -, -⟩ := exec_frame i s
  refine ⟨t, hx, ?_⟩
  rw [hframe]
  exact ⟨rfl, rfl, rfl, rfl, rfl, rfl, rfl, rfl, rfl, rfl, rfl, rfl, rfl, rfl, rfl⟩

/-- Settles O60: the writers of GIE and DOR over a whole step are those of `step_writes`. -/
theorem gieAndOverrunAreWrittenByTheirRules : Obligations.GieAndOverrunAreWrittenByTheirRules := by
  unfold Obligations.GieAndOverrunAreWrittenByTheirRules
  intro s t h
  obtain ⟨-, hdor, hgie⟩ := step_writes h
  rcases hdor with hkept | ⟨hhost, hset⟩
  · rw [hkept]
    exact ⟨hgie.resolve_left, id, .inl⟩
  · rw [hset, Bool.or_eq_true]
    exact ⟨hgie.resolve_left, .inl, Or.imp_right fun hrxc => ⟨hhost, hrxc⟩⟩

/-- Settles O54: `inv_resetWith`, for the model's own configuration too, with nothing on the port. -/
theorem invHoldsAtReset : Obligations.InvHoldsAtReset := by
  unfold Obligations.InvHoldsAtReset
  exact ⟨inv_resetWith configLegal_defaultConfig, nofun, fun _ => inv_resetWith⟩

end Sys2Proof.Laws
end

section
/-! Support for the statements about the encodings (30_encoding.md): each operand format and each packet is read back as
it was written, and bytes that an operation is read from are its encoding; the rows of the packets are then followed
through the phases that send them. The eight statements are settled at the end. -/

namespace Sys2Proof.Laws

open Sys2Proof.Machine Sys2Proof.Safety

/-! ## Operations are read back from the front of any bytes (R101, R102, R104) -/

theorem decodeOp_encode (sig : BitVec 64) {i : Instr} (rest : List Byte) (hw : wellFormed i = true)
    (hc : unitClass i = .operation) : decodeOp (encode sig i ++ rest) = .ok (i, rest) := by
  cases i with
  | write bs => exact withString_leBytes .write rest (of_decide_eq_true hw)
  | read len => exact withLength_leBytes .read len rest
  | csEnter | rbPopFrontRxq | rbSizeRxq | rbPopFrontTxq | rbSizeTxq | readByte | isrUsartRx | isrUsartUdre | isrPcint
  | isrTimer | timerDisable | frHandshake | frServeOne => rfl
  | csExit b | rbPushBackRxq b | rbPushBackTxq b | writeByte b | timerArm b => rfl
  | _ => cases hc

/-! ## Bytes that an operation is read from are its encoding

One lemma for each operand format, and one for an operation without operand. -/

/-- `bs` is the encoding of the operation `i` followed by `rest`. -/
abbrev Spells (sig : BitVec 64) (i : Instr) (rest bs : List Byte) : Prop :=
  unitClass i = .operation ∧ encode sig i ++ rest = bs

theorem ofNat_of_toNat {op : Byte} {n : Nat} (h : op.toNat = n) : BitVec.ofNat 8 n = op := by
  rw [← h, BitVec.ofNat_toNat, BitVec.setWidth_eq]

section
variable {sig : BitVec 64} {op : Byte} {n : Nat} {i : Instr} {tail rest : List Byte}

theorem spells_plain {j : Instr} (hop : op.toNat = n)
    (hj : unitClass j = .operation ∧ encode sig j = [BitVec.ofNat 8 n])
    (h : (Except.ok (j, tail) : Except Reject _) = .ok (i, rest)) : Spells sig i rest (op :: tail) := by
  obtain ⟨hclass, henc⟩ := hj
  cases h
  exact ⟨hclass, by rw [henc, ofNat_of_toNat hop, List.singleton_append]⟩

theorem spells_byte {f : Byte → Instr} (hop : op.toNat = n)
    (hf : ∀ b, unitClass (f b) = .operation ∧ encode sig (f b) = [BitVec.ofNat 8 n, b])
    (h : withByte f tail = .ok (i, rest)) : Spells sig i rest (op :: tail) := by
  cases tail with
  | nil => cases h
  | cons b tail =>
    cases h
    obtain ⟨hclass, henc⟩ := hf b
    exact ⟨hclass, by rw [henc, ofNat_of_toNat hop]; rfl⟩

/-- Two bytes are the encoding of the length they spell (R101). -/
theorem leBytes_fromLe_pair (lo hi : Byte) : leBytes 2 (fromLe [lo, hi]) = [lo, hi] := leBytes_fromLe [lo, hi]

theorem spells_read (hop : op.toNat = 0x23) (h : withLength .read tail = .ok (i, rest)) :
    Spells sig i rest (op :: tail) := by
  match tail, h with
  | lo :: hi :: tail, h =>
    cases h
    have hlt := fromLe_pair_lt lo hi
    have hlen : (BitVec.ofNat 16 (fromLe [lo, hi])).toNat = fromLe [lo, hi] := by
      rw [BitVec.toNat_ofNat, Nat.mod_eq_of_lt hlt]
    refine ⟨rfl, ?_⟩
    rw [encode, hlen, leBytes_fromLe_pair, ofNat_of_toNat hop]
    rfl

theorem spells_write (hop : op.toNat = 0x21) (h : withString .write tail = .ok (i, rest)) :
    Spells sig i rest (op :: tail) := by
  match tail, h with
  | lo :: hi :: tail, h =>
    simp only [withString] at h
    split at h
    · next hfit =>
      cases h
      have hlen : (tail.take (fromLe [lo, hi])).length = fromLe [lo, hi] := List.length_take_of_le hfit
      refine ⟨rfl, ?_⟩
      rw [encode, hlen, leBytes_fromLe_pair, ofNat_of_toNat hop, List.append_assoc, List.take_append_drop]
      rfl
    · cases h

end

/-- Bytes that decode to an operation are its encoding followed by the rest (R102, R104), opcode by opcode. -/
theorem spells_of_decodeOp (sig : BitVec 64) {bs : List Byte} {i : Instr} {rest : List Byte}
    (h : decodeOp bs = .ok (i, rest)) : Spells sig i rest bs := by
  cases bs with
  | nil => cases h
  | cons op tail =>
    simp only [decodeOp] at h
    split at h
    case h_1 hop | h_4 hop | h_5 hop | h_7 hop | h_8 hop | h_11 hop | h_13 hop | h_14 hop | h_15 hop | h_16 hop
        | h_18 hop | h_19 hop | h_20 hop =>
      exact spells_plain hop ⟨rfl, rfl⟩ h
    case h_2 hop | h_3 hop | h_6 hop | h_9 hop | h_17 hop => exact spells_byte hop (fun _ => ⟨rfl, rfl⟩) h
    case h_10 hop => exact spells_write hop h
    case h_12 hop => exact spells_read hop h
    case h_21 => cases h

/-! ## Packets are read back (R109 to R116) -/

theorem encodeRequest_length (r : Request) : (encodeRequest r).length = shortLen := by
  match r with
  | .functionPoints (.single _) | .functionPoints (.system _) | .initialApproximations => rfl
  | .computeRoot _ (.single .chord _) | .computeRoot _ (.single .secant _)
  | .computeRoot _ (.single .simpleIterationSingle _) | .computeRoot _ (.system _) => rfl

theorem decodeRequest_encodeRequest (r : Request) : decodeRequest (encodeRequest r) = .ok r := by
  match r with
  | .functionPoints (.single _) | .functionPoints (.system _) | .initialApproximations => rfl
  | .computeRoot eps (.single .chord _) | .computeRoot eps (.single .secant _)
  | .computeRoot eps (.single .simpleIterationSingle _) | .computeRoot eps (.system _) =>
    exact decodeRequest_computeRoot eps _

theorem decodeUnit_encodeRequest (sig : BitVec 64) (r : Request) :
    decodeUnit sig .request (encodeRequest r) = .ok (requestInstr r) := by
  simp only [decodeUnit, decodeRequestUnit, encodeRequest_length, decodeRequest_encodeRequest, if_true]

/-- A record of two values, read without what follows it (R116). -/
theorem decodePoint_le8 (x y : F64) : decodePoint (le8 x ++ le8 y) = ⟨x, y⟩ := by
  have h := decodePoint_encodePoint ⟨x, y⟩ []
  rwa [List.append_nil] at h

theorem encodePoint_injective : Function.Injective encodePoint :=
  Function.LeftInverse.injective (g := decodePoint) fun p => decodePoint_le8 p.x p.y

/-- A legal success spells none of the failure packets (R116). -/
theorem encodePoint_ne_failurePacket {x y : F64} (h : legalSuccess x y = true) (e : MethodError) :
    encodePoint ⟨x, y⟩ ≠ failurePacket e := by
  rw [failurePacket_eq]
  intro heq
  obtain ⟨hx, hy⟩ := Point.mk.inj (encodePoint_injective heq)
  subst hx hy
  cases e <;> exact absurd h (by decide)

theorem decodeRootResponse_ok {x y : F64} (h : legalSuccess x y = true) :
    decodeRootResponse (encodePoint ⟨x, y⟩) = .rspRootOk x y := by
  have hne := encodePoint_ne_failurePacket h
  rw [decodeRootResponse, if_neg (hne _), if_neg (hne _), if_neg (hne _)]
  exact congrArg₂ Instr.rspRootOk (congrArg Point.x (decodePoint_le8 x y)) (congrArg Point.y (decodePoint_le8 x y))

theorem decodePoints_encoded {ps : List Point} (h : legalPoints ps = true) :
    (ps.flatMap encodePoint).length = longLen ∧ decodePoints pointsPerPass (ps.flatMap encodePoint) = ps := by
  have hlen : ps.length = pointsPerPass := eq_of_beq h
  exact ⟨by rw [points_length, hlen]; rfl, by rw [← hlen, decodePoints_points]⟩

/-- Decoding an instruction's own bytes, as the kind of unit they are, gives it back. -/
theorem decodeUnit_encode (sig : BitVec 64) {i : Instr} (hw : wellFormed i = true) :
    decodeUnit sig (unitClass i) (encode sig i) = .ok i := by
  have operation (hc : unitClass i = .operation) : decodeUnit sig (unitClass i) (encode sig i) = .ok i := by
    have h := decodeOp_encode sig [] hw hc
    rw [List.append_nil] at h
    simp only [hc, decodeUnit, h]
  cases i with
  | reqPointsSingle index => exact decodeUnit_encodeRequest sig (.functionPoints (.single index))
  | reqPointsSystem index => exact decodeUnit_encodeRequest sig (.functionPoints (.system index))
  | reqApproximations => exact decodeUnit_encodeRequest sig .initialApproximations
  | reqRootChord eps e => exact decodeUnit_encodeRequest sig (.computeRoot eps (.single .chord e))
  | reqRootSecant eps e => exact decodeUnit_encodeRequest sig (.computeRoot eps (.single .secant e))
  | reqRootSimpleIteration eps e =>
    exact decodeUnit_encodeRequest sig (.computeRoot eps (.single .simpleIterationSingle e))
  | reqRootSystem eps system => exact decodeUnit_encodeRequest sig (.computeRoot eps (.system system))
  | rspApproximations l r =>
    have hlen : (le8 l ++ le8 r).length = shortLen := encodePoint_length ⟨l, r⟩
    simp only [unitClass, encode, encodeApprox, decodeUnit, decodeResponse, hlen, if_true, decodePoint_le8]
  | rspRootOk x y =>
    have hlen : (encodePoint ⟨x, y⟩).length = shortLen := encodePoint_length ⟨x, y⟩
    simp only [unitClass, encode, encodeRoot, decodeUnit, decodeResponse, hlen, if_true, decodeRootResponse_ok hw]
  | rspRootNoRoot | rspRootMoreThanOne | rspRootDiverges => rfl
  | rspPointsFirst ps | rspPointsSecond ps =>
    obtain ⟨hlen, hback⟩ := decodePoints_encoded hw
    simp only [unitClass, encode, decodeUnit, decodeResponse, hlen, if_true, hback]
  | sigSignature => exact if_pos rfl
  | _ => exact operation rfl

/-! ## Reserved opcodes, illegal operands and wrong issuers (R103, R106) -/

/-- An operand format's bytes may end too early, but they are no reserved opcode. -/
theorem withByte_ne_reserved (f : Byte → Instr) (bs : List Byte) : withByte f bs ≠ .error .reservedOpcode := by
  unfold withByte
  split <;> nofun

theorem withLength_ne_reserved (f : Word16 → Instr) (bs : List Byte) :
    withLength f bs ≠ .error .reservedOpcode := by
  unfold withLength
  split <;> nofun

theorem withString_ne_reserved (f : List Byte → Instr) (bs : List Byte) :
    withString f bs ≠ .error .reservedOpcode := by
  unfold withString
  (repeat' split) <;> nofun

/-- The opcode bytes of the operation map (R104). -/
abbrev opcodes : List Nat :=
  [0x00, 0x01, 0x10, 0x11, 0x12, 0x18, 0x19, 0x1A, 0x20, 0x21, 0x22, 0x23, 0x30, 0x31, 0x32, 0x33, 0x40, 0x41, 0x50,
    0x51]

/-- R106: the decoder's default row is the only one that answers a reserved opcode. -/
theorem decodeOp_reserved_iff (op : Byte) (rest : List Byte) :
    decodeOp (op :: rest) = .error .reservedOpcode ↔ op.toNat ∉ opcodes := by
  simp only [decodeOp]
  split
  case h_21 => exact iff_of_true rfl (by simp_all)
  all_goals
    next hop =>
      exact iff_of_false (by simp [withByte_ne_reserved, withLength_ne_reserved, withString_ne_reserved])
        (by simp [hop])

/-- Issuing a unit with a reserved opcode is refused (R106, R362). -/
theorem issueEntry_of_reserved {e : PortEntry} {s : State} (hc : e.cls = .operation)
    (hd : decodeOp (issuedBytes e s) = .error .reservedOpcode) :
    issueEntry e s = .next (refuse .illegalOp { s with issuer := e.issuer }) := by
  have hpresent : present e s = { s with issuer := e.issuer } := by simp [present, hc]
  simp only [issueEntry, hc, decodeUnit, hd, hpresent]

/-- Only the exit of a CRITICAL region is issued with other bytes than its own (R108, R182). -/
theorem issuedBytes_of_ne_restoreToken {e : PortEntry} (h : e.mode ≠ .restoreToken) (s : State) :
    issuedBytes e s = e.bytes := by
  unfold issuedBytes
  split
  case h_1 hm _ => exact absurd hm h
  all_goals rfl

theorem legalTicks_iff (d : Byte) : legalTicks d = true ↔ 1 ≤ d.toNat ∧ d.toNat ≤ 16 := by
  rw [legalTicks, Bool.and_eq_true, decide_eq_true_iff, decide_eq_true_iff, timerSpan]

theorem exec_csExit_illegal {t : Byte} (h : legalToken t = false) (s : State) :
    exec (.csExit t) s = .next (refuse .illegalOperand s) := by
  simp only [exec, execCsExit, h, issueChecked, Bool.false_eq_true, if_false]

theorem exec_timerArm_illegal {d : Byte} (h : legalTicks d = false) (s : State) :
    exec (.timerArm d) s = .next (refuse .illegalOperand s) := by
  simp only [exec, execTimerArm, h, issueChecked, Bool.false_eq_true, if_false]

/-- The meaning of `i` is an effect behind a check of its operand (R106; log 17) and then of its issuer against `cls`
(R103). A well-formed operand passes the check. -/
abbrev IssuedAs (cls : List Issuer) (i : Instr) (s : State) : Prop :=
  ∃ legal effect, (wellFormed i = true → legal = true) ∧ exec i s = .next (issueChecked legal cls effect s)

/-- An operation whose operand is not checked is issued with a check that every operand passes. -/
theorem issuedAs_of_issue {i : Instr} {cls : List Issuer} {effect : State → State} {s : State}
    (h : exec i s = .next (issue cls effect s)) : IssuedAs cls i s :=
  ⟨true, effect, fun _ => rfl, h⟩

/-- Every operation is issued so, with the class of its row (R104). -/
theorem exec_issuedAs {i : Instr} {cls : List Issuer} (h : issuerClass i = some cls) (s : State) :
    IssuedAs cls i s := by
  cases i with
  | csExit t =>
    cases h
    exact ⟨legalToken t, _, id, rfl⟩
  | timerArm d =>
    cases h
    exact ⟨legalTicks d, _, id, rfl⟩
  | csEnter | rbPushBackRxq _ | rbPopFrontRxq | rbSizeRxq | rbPushBackTxq _ | rbPopFrontTxq | rbSizeTxq | writeByte _
  | write _ | readByte | read _ | isrUsartRx | isrUsartUdre | isrPcint | isrTimer | timerDisable | frHandshake
  | frServeOne =>
    cases h
    exact issuedAs_of_issue rfl
  | _ => cases h

/-! ## Padding (R112 to R114, R117) -/

/-- Packets of one length that agree byte by byte on a stretch have the same stretch. -/
theorem slice_congr {p q : List Byte} {start len : Nat} (hl : p.length = q.length)
    (h : ∀ i, start ≤ i → i < start + len → byteAt p i = byteAt q i) :
    (p.drop start).take len = (q.drop start).take len := by
  refine List.ext_getElem (by simp [hl]) fun j hp hq => ?_
  simp only [List.length_take, List.length_drop] at hp hq
  have hbyte := h (start + j) (by omega) (by omega)
  rw [byteAt, byteAt, List.getD_eq_getElem _ _ (by omega), List.getD_eq_getElem _ _ (by omega)] at hbyte
  simpa only [List.getElem_take, List.getElem_drop] using hbyte

theorem decodeSelection_congr {p q : List Byte} (h1 : byteAt p 1 = byteAt q 1) (h2 : byteAt p 2 = byteAt q 2) :
    decodeSelection p = decodeSelection q := by
  unfold decodeSelection
  rw [h1, h2]

theorem decodeMethod_congr {p q : List Byte} (h : byteAt p 10 = byteAt q 10) : decodeMethod p = decodeMethod q := by
  unfold decodeMethod
  rw [h]

/-- Byte 11 is read in Single mode only (R114). -/
theorem decodeMode_congr {p q : List Byte} (h9 : byteAt p 9 = byteAt q 9) (h10 : byteAt p 10 = byteAt q 10)
    (h11 : (byteAt p 9).toNat = 0 → byteAt p 11 = byteAt q 11) : decodeMode p = decodeMode q := by
  unfold decodeMode
  rw [← h9, ← h10, ← decodeMethod_congr h10]
  split
  · next hsingle => rw [h11 hsingle]
  · rfl
  · rfl

theorem decodeRequest_congr {p q : List Byte} (hl : p.length = q.length) (h0 : byteAt p 0 = byteAt q 0)
    (hpoints : byteAt p 0 = tagFunctionPoints → decodeSelection p = decodeSelection q)
    (hroot : byteAt p 0 = tagComputeRoot →
      decodeMode p = decodeMode q ∧ ∀ i, 1 ≤ i → i < 1 + 8 → byteAt p i = byteAt q i) :
    decodeRequest p = decodeRequest q := by
  unfold decodeRequest
  rw [← h0]
  split
  · next htag => rw [hpoints htag]
  · split
    · rfl
    · split
      · next htag =>
        obtain ⟨hmode, hbytes⟩ := hroot htag
        rw [hmode, slice_congr hl hbytes]
      · rfl

/-! ## Short responses (R116, R267, R268) -/

theorem leBytes_getElem? {n v j : Nat} (h : j < n) : (leBytes n v)[j]? = some (BitVec.ofNat 8 (v / 256 ^ j)) := by
  induction n generalizing v j with
  | zero => omega
  | succ n ih =>
    cases j with
    | zero => rw [leBytes, List.getElem?_cons_zero, Nat.pow_zero, Nat.div_one]
    | succ j => rw [leBytes, List.getElem?_cons_succ, ih (by omega), Nat.div_div_eq_div_mul, Nat.pow_succ']

/-- Byte `j` of `LE_8(v)` is bits `8j+7..8j` of `v` (R11). -/
theorem le8_getElem? (v : BitVec 64) {j : Nat} (h : j < 8) : (le8 v)[j]? = some (v.extractLsb' (8 * j) 8) := by
  rw [le8, leBytes_getElem? h, BitVec.extractLsb', Nat.shiftRight_eq_div_pow, Nat.pow_mul]

theorem le8_append_getElem? (x y : BitVec 64) {j : Nat} (h : j < 8) :
    (le8 x ++ le8 y)[j]? = some (x.extractLsb' (8 * j) 8) ∧
      (le8 x ++ le8 y)[8 + j]? = some (y.extractLsb' (8 * j) 8) := by
  have hx := le8_length x
  rw [List.getElem?_append_left (by omega), List.getElem?_append_right (by omega), hx, Nat.add_sub_cancel_left]
  exact ⟨le8_getElem? x h, le8_getElem? y h⟩

/-! ## One attempt at the signature (R255 to R257; log 14) -/

/-- In a phase of the handshake the attempt is the phase's own step, and it is over when the phase is left. -/
theorem exec_sigSignature_phase {s u : State} (h : inHandshake s.phase = true) (hu : sequencerStep s = u) :
    exec .sigSignature s = .next (endWith (if u.phase = s.phase then .wouldBlock else .ok) u) := by
  simp only [exec, execSigSignature, signatureStep, h, if_true, hu]

theorem exec_sigSignature_start {s : State} (h : inHandshake s.phase = false) :
    exec .sigSignature s = exec .sigSignature (setPhase (.hsSend 0) s) := by
  simp only [exec, execSigSignature, signatureStep, h]
  rfl

theorem setPhase_self {p : Phase} {s : State} (h : s.phase = p) : setPhase p s = s := by
  rw [← h]
  rfl

/-- The attempt in a send phase, or when no handshake is under way, is made in that send phase or in the first. -/
theorem exec_sigSignature_send {c : Nat} {s : State}
    (h : (s.phase = .hsSend c ∧ c < 2) ∨ (inHandshake s.phase = false ∧ c = 0)) :
    c < 2 ∧ exec .sigSignature s = exec .sigSignature (setPhase (.hsSend c) s) := by
  rcases h with ⟨hp, hc⟩ | ⟨hp, rfl⟩
  · exact ⟨hc, by rw [setPhase_self hp]⟩
  · exact ⟨Nat.zero_lt_two, exec_sigSignature_start hp⟩

/-- The send attempt (R250): WouldBlock on a TXQ without room, else the signature is appended and the phase left. -/
theorem exec_sigSignature_hsSend {c : Nat} {s : State} (hp : s.phase = .hsSend c) (hc : c < 2) (hn : 2 ≤ s.cfg.txqN)
    (hw : RingWf s.cfg.txqN s.txq) :
    (txqFree s < 8 → exec .sigSignature s = .next { s with result := some .wouldBlock }) ∧
    (8 ≤ txqFree s → ∃ q, Appended s.cfg.txqN s.txq (le8 s.cfg.signature) q ∧
      exec .sigSignature s = .next { s with
        txq := q
        txState := .buffering
        udrie := if s.txState = .idle then true else s.udrie
        phase := if c = 0 then .hsSend 1 else .hsRecv
        hsWin := if c = 0 then s.hsWin else []
        result := some .ok }) := by
  have hstep : sequencerStep s = hsSendStep c s := by simp only [sequencerStep, hp]
  rw [exec_sigSignature_phase (by rw [hp]; rfl) hstep]
  rcases hsSendStep_spec c hn hw with ⟨hfull, e⟩ | ⟨hroom, q, ha, e⟩
  · refine ⟨fun _ => ?_, fun h => by omega⟩
    rw [e, if_pos rfl]
    rfl
  · refine ⟨fun h => by omega, fun _ => ⟨q, ha, ?_⟩⟩
    rw [e]
    obtain rfl | rfl : c = 0 ∨ c = 1 := by omega
    · simp [endWith, hp]
    · simp [endWith, hp]

/-- The receive attempt of the sliding reading (R256). -/
theorem exec_sigSignature_sliding {s : State} (hp : s.phase = .hsRecv) (hm : s.cfg.handshakeMatch = .sliding)
    (hw : RingWf s.cfg.rxqN s.rxq) :
    (contents s.cfg.rxqN s.rxq = [] → exec .sigSignature s = .next { s with result := some .wouldBlock }) ∧
    (∀ b l, contents s.cfg.rxqN s.rxq = b :: l → ∃ q, Removed s.cfg.rxqN s.rxq [b] q ∧
      exec .sigSignature s = .next { s with
        rxq := q
        hsWin := slideWindow s.hsWin b
        phase := if slideWindow s.hsWin b = le8 s.cfg.signature then .srvRead else .hsRecv
        result := some (if slideWindow s.hsWin b = le8 s.cfg.signature then .ok else .wouldBlock) }) := by
  have hstep : sequencerStep s = hsRecvSliding s := by simp only [sequencerStep, hp, hsRecvStep, hm]
  rw [exec_sigSignature_phase (by rw [hp]; rfl) hstep]
  rcases hsRecvSliding_spec hw with ⟨hnil, e⟩ | ⟨b, q, hcons, hr, e⟩
  · refine ⟨fun _ => ?_, fun b l h => by simp [hnil] at h⟩
    rw [e, if_pos rfl]
    rfl
  · refine ⟨fun h => by simp [hcons] at h, fun b' l h => ?_⟩
    obtain ⟨rfl, -⟩ := List.cons.inj (hcons.symm.trans h)
    refine ⟨q, hr, ?_⟩
    rw [e]
    by_cases hsig : slideWindow s.hsWin b = le8 s.cfg.signature <;> simp [endWith, signatureBytes, hsig, hp]

/-- The receive attempt of the chunked reading (R257). -/
theorem exec_sigSignature_chunked {s : State} (hp : s.phase = .hsRecv) (hm : s.cfg.handshakeMatch = .chunked8)
    (hw : RingWf s.cfg.rxqN s.rxq) :
    (ringSize s.cfg.rxqN s.rxq < 8 → exec .sigSignature s = .next { s with result := some .wouldBlock }) ∧
    (8 ≤ ringSize s.cfg.rxqN s.rxq → ∃ w q, w.length = 8 ∧ Removed s.cfg.rxqN s.rxq w q ∧
      exec .sigSignature s = .next { s with
        rxq := q
        phase := if w = le8 s.cfg.signature then .srvRead else .hsRecv
        result := some (if w = le8 s.cfg.signature then .ok else .wouldBlock) }) := by
  have hstep : sequencerStep s = hsRecvChunked s := by simp only [sequencerStep, hp, hsRecvStep, hm]
  rw [exec_sigSignature_phase (by rw [hp]; rfl) hstep, ← contents_length hw]
  rcases hsRecvChunked_spec hw with ⟨hfew, e⟩ | ⟨henough, q, hr, e⟩
  · refine ⟨fun _ => ?_, fun h => by omega⟩
    rw [e, if_pos rfl]
    rfl
  · refine ⟨fun h => by omega, fun _ => ⟨_, q, List.length_take_of_le henough, hr, ?_⟩⟩
    rw [e]
    by_cases hsig : (contents s.cfg.rxqN s.rxq).take 8 = le8 s.cfg.signature <;>
      simp [endWith, signatureBytes, hsig, hp]

/-! ## A long packet, record by record (R116, R264, R272; log 14) -/

theorem ringSize_appended {n : Nat} {q q' : RingBuf} {bs : List Byte} (h : RingWf n q) (ha : Appended n q bs q') :
    ringSize n q' = ringSize n q + bs.length := by
  obtain ⟨hw, -, -, hc, -⟩ := ha
  rw [← contents_length h, ← contents_length hw, hc, List.length_append]

/-- The bytes appended take their room in TXQ. -/
theorem txqFree_appended {s t : State} {bs : List Byte} (hcfg : t.cfg = s.cfg) (h : RingWf s.cfg.txqN s.txq)
    (ha : Appended s.cfg.txqN s.txq bs t.txq) : txqFree t = txqFree s - bs.length := by
  rw [txqFree, txqFree, hcfg, ringSize_appended h ha, Nat.sub_add_eq]

/-- Record `m` of pass `p` is to be prepared next (R264). -/
abbrev AtRecord (p : Pass) (m : Nat) (s : State) : Prop := recordWaits p s = false ∧ nextRecord p s = m

/-- A pass that is not being streamed starts at its first record. -/
theorem atRecord_start {s : State} (p : Pass) (hpoints : s.phase ≠ .srvPoints) (hsend : s.phase ≠ .srvPtSend) :
    AtRecord p 0 s :=
  ⟨by simp [recordWaits, hsend], by simp [nextRecord, hpoints]⟩

theorem atRecord_of_srvPoints {s : State} {p : Pass} {m : Nat} (hp : s.phase = .srvPoints) (hpass : s.pass = p)
    (hk : s.k = m) : AtRecord p m s :=
  ⟨by simp [recordWaits, hp], by simp [nextRecord, hp, hpass, hk]⟩

/-- The state in which a record has been prepared and is to be written (R264, step A). -/
def recordPrepared (p : Pass) (m : Nat) (r : Point) (s : State) : State :=
  { s with pass := p, k := m, out := encodePoint r, phase := .srvPtSend, result := some .pending }

/-- Step A of a record. -/
theorem streamStep_prepares {p : Pass} {ps : List Point} {m : Nat} {r : Point} {s : State} (h : AtRecord p m s)
    (hr : ps[m]? = some r) : streamStep p ps s = recordPrepared p m r s := by
  obtain ⟨hwaits, hnext⟩ := h
  simp only [streamStep, hwaits, Bool.false_eq_true, if_false, hnext, List.getD_eq_getElem?_getD, hr, Option.getD_some]
  rfl

/-- What writing record `m` leaves behind: its bytes are in TXQ, and the pass goes on to the next record or, after the
last, ends (R264, step B). -/
structure RecordWritten (p : Pass) (m : Nat) (r : Point) (s t : State) : Prop where
  cfg : t.cfg = s.cfg
  sel : t.sel = s.sel
  appended : Appended s.cfg.txqN s.txq (encodePoint r) t.txq
  goesOn : m < 255 → AtRecord p (m + 1) t
  ends : m = 255 → t.result = some .ok ∧
    t.phase = if p = .first ∧ isSystem s.sel = true then .srvPoints else .srvRead

/-- Step B of a record that fits. -/
theorem streamStep_writes {p : Pass} {ps : List Point} {m : Nat} {r : Point} {s : State} (hn : 2 ≤ s.cfg.txqN)
    (hw : RingWf s.cfg.txqN s.txq) (hroom : 16 ≤ txqFree s) :
    RecordWritten p m r s (streamStep p ps (recordPrepared p m r s)) := by
  have hlen := encodePoint_length r
  have hne : encodePoint r ≠ [] := fun h => by simp [h] at hlen
  have hwaits : recordWaits p (recordPrepared p m r s) = true := by simp [recordWaits, recordPrepared]
  simp only [streamStep, hwaits, if_true]
  rcases srvPtSendStep_spec (s := recordPrepared p m r s) hn hw hne with ⟨hfull, -⟩ | ⟨-, q, ha, e⟩
  · have hnofit : txqFree s < (encodePoint r).length := hfull
    omega
  · rw [e]
    refine ⟨rfl, rfl, ha, fun hm => ?_, fun hm => ?_⟩
    · exact atRecord_of_srvPoints (by simp [recordPrepared, hm]) (by simp [recordPrepared, hm])
        (by simp [recordPrepared, hm])
    · by_cases hagain : p = .first ∧ isSystem s.sel = true <;> simp [recordPrepared, hm, pointsPerPass, hagain]

/-- The two executions of a long-packet row that send one record. -/
theorem execTimes_record {i : Instr} {p : Pass} {ps : List Point} (hi : ∀ s, exec i s = .next (streamStep p ps s))
    {m : Nat} {r : Point} {s : State} (hr : ps[m]? = some r) (h : AtRecord p m s) (hw : RingWf s.cfg.txqN s.txq)
    (hroom : 16 ≤ txqFree s) :
    ∃ t, (∀ n, execTimes i (n + 2) s = execTimes i n t) ∧ RecordWritten p m r s t := by
  have hn : 2 ≤ s.cfg.txqN := by
    unfold txqFree at hroom
    omega
  refine ⟨_, fun n => ?_, streamStep_writes (ps := ps) hn hw hroom⟩
  simp only [execTimes, hi, streamStep_prepares h hr]

/-- From record `m` on, the two executions for each of the `n + 1` records left append exactly those records. -/
theorem execTimes_records {i : Instr} {p : Pass} {ps : List Point} (hi : ∀ s, exec i s = .next (streamStep p ps s))
    (hps : ps.length = 256) (n : Nat) {m : Nat} {s : State} (hm : m + n = 255) (h : AtRecord p m s)
    (hw : RingWf s.cfg.txqN s.txq) (hroom : 16 * (n + 1) ≤ txqFree s) :
    ∃ t, execTimes i (2 * n + 2) s = some t ∧ t.result = some .ok ∧ t.cfg = s.cfg ∧
      t.phase = (if p = .first ∧ isSystem s.sel = true then .srvPoints else .srvRead) ∧
      Appended s.cfg.txqN s.txq ((ps.drop m).flatMap encodePoint) t.txq := by
  have hlt : m < ps.length := by omega
  obtain ⟨t, hexec, hcfg, hsel, ha, hgo, hend⟩ :=
    execTimes_record hi (List.getElem?_eq_getElem hlt) h hw (by omega)
  rw [List.drop_eq_getElem_cons hlt, List.flatMap_cons]
  cases n with
  | zero =>
    obtain ⟨hres, hphase⟩ := hend hm
    refine ⟨t, hexec 0, hres, hcfg, hphase, ?_⟩
    rw [List.drop_of_length_le (by omega), List.flatMap_nil, List.append_nil]
    exact ha
  | succ n =>
    have hw' : RingWf t.cfg.txqN t.txq := by
      rw [hcfg]
      exact ha.1
    have hroom' : 16 * (n + 1) ≤ txqFree t := by
      rw [txqFree_appended hcfg hw ha, encodePoint_length]
      omega
    obtain ⟨u, hexec', hres, hcfg', hphase, ha'⟩ :=
      execTimes_records hi hps n (by omega) (hgo (by omega)) hw' hroom'
    refine ⟨u, (hexec _).trans hexec', hres, hcfg'.trans hcfg, hsel ▸ hphase, ?_⟩
    rw [hcfg] at ha'
    exact appended_trans ha ha'

/-! ## Statements -/

/-- Settles O57: `decodeUnit_encode` for every row, `decodeOp_encode` and its converse `spells_of_decodeOp` for the
operations. -/
theorem decodeAndEncodeAgree : Obligations.DecodeAndEncodeAgree := by
  unfold Obligations.DecodeAndEncodeAgree
  exact ⟨fun sig _ hw => decodeUnit_encode sig hw, fun sig _ rest hw hc => decodeOp_encode sig rest hw hc,
    fun sig _ _ _ h => spells_of_decodeOp sig h⟩

/-- Settles O9: a check that fails refuses with IllegalOperand, and only an ill-formed operand fails it. -/
theorem wrongIssuerIsRefused : Obligations.WrongIssuerIsRefused := by
  unfold Obligations.WrongIssuerIsRefused
  intro i cls s hcls hs
  obtain ⟨legal, effect, hlegal, hexec⟩ := exec_issuedAs hcls s
  rcases issueChecked_cases legal cls effect s with ⟨-, e⟩ | ⟨hill, e⟩
  · exact ⟨.wrongIssuer, by rw [hexec, e, issue_refused hs]; rfl, fun _ => rfl⟩
  · refine ⟨.illegalOperand, by rw [hexec, e]; rfl, fun hw => ?_⟩
    rw [hlegal hw] at hill
    cases hill

/-- Settles O11: the reserved opcodes are those of `decodeOp_reserved_iff`; the illegal operands fail their checks. -/
theorem reservedAndIllegalEncodingsAreRefused : Obligations.ReservedAndIllegalEncodingsAreRefused := by
  unfold Obligations.ReservedAndIllegalEncodingsAreRefused
  refine ⟨decodeOp_reserved_iff, ?_, fun t s ht => ?_, fun d s hd => ?_⟩
  · intro e op rest s hc hm hb hd
    rw [← hb, ← issuedBytes_of_ne_restoreToken hm s] at hd
    exact issueEntry_of_reserved hc hd
  · exact exec_csExit_illegal (by simpa [legalToken] using ht) s
  · have hill : legalTicks d = false := by
      rw [Bool.eq_false_iff, ne_eq, legalTicks_iff]
      omega
    exact exec_timerArm_illegal hill s

/-- Settles O40: the bytes the tag gives a meaning are those `decodeRequest_congr` asks for. -/
theorem paddingIsIgnored : Obligations.PaddingIsIgnored := by
  unfold Obligations.PaddingIsIgnored
  intro p q hp hq h0 hpoints hroot
  refine decodeRequest_congr (hp.trans hq.symm) h0 (fun htag => ?_) fun htag => ?_
  · obtain ⟨h1, h2⟩ := hpoints (congrArg BitVec.toNat htag)
    exact decodeSelection_congr h1 h2
  · obtain ⟨hbytes, h11⟩ := hroot (congrArg BitVec.toNat htag)
    exact ⟨decodeMode_congr (hbytes 9 (by omega) (by omega)) (hbytes 10 (by omega) (by omega)) h11,
      fun i h1 h8 => hbytes i h1 (by omega)⟩

/-- Settles O43: byte by byte for the two values, by evaluation for the three fixed failure packets. -/
theorem shortResponsesArePrepared : Obligations.ShortResponsesArePrepared := by
  unfold Obligations.ShortResponsesArePrepared
  exact ⟨fun x y s => ⟨le8 x ++ le8 y, encodePoint_length ⟨x, y⟩, fun _ hj => le8_append_getElem? x y hj, rfl, rfl⟩,
    fun _ => ⟨rfl, rfl, rfl⟩⟩

/-- Settles O46: from the first record on, by `execTimes_records`. -/
theorem longPacketIsItsRecordsInOrder : Obligations.LongPacketIsItsRecordsInOrder := by
  unfold Obligations.LongPacketIsItsRecordsInOrder
  intro i p ps s hrow hps hpoints hsend hw hroom
  obtain ⟨hi, henc⟩ : (∀ u, exec i u = .next (streamStep p ps u)) ∧
      encode s.cfg.signature i = ps.flatMap encodePoint := by
    simp only [List.mem_cons, List.not_mem_nil, or_false, Prod.mk.injEq] at hrow
    rcases hrow with ⟨rfl, rfl⟩ | ⟨rfl, rfl⟩ <;> exact ⟨fun _ => rfl, rfl⟩
  obtain ⟨t, hexec, hres, hcfg, hphase, -, -, -, hcontents, -⟩ :=
    execTimes_records hi hps 255 (Nat.zero_add 255) (atRecord_start p hpoints hsend) hw hroom
  refine ⟨t, hexec, hres, ?_, henc, ?_, hphase⟩
  · exact (points_length ps).trans (by rw [hps])
  · rw [hcfg, hcontents, henc, List.drop_zero]

/-- Settles O48: the attempts of the three phases; `setPhase` names the send phase the attempt is made in. -/
theorem signatureRowAttempts : Obligations.SignatureRowAttempts := by
  unfold Obligations.SignatureRowAttempts
  refine fun s => ⟨fun c hn hw h => ?_, fun hp hw => ⟨fun hm b l hcons => ?_, fun hm => ?_, fun h => ?_⟩⟩
  · obtain ⟨hc, e⟩ := exec_sigSignature_send h
    rw [e]
    exact exec_sigSignature_hsSend (s := setPhase (.hsSend c) s) rfl hc hn hw
  · obtain ⟨-, htaken⟩ := exec_sigSignature_sliding hp hm hw
    rw [← slideWindow_eq]
    exact htaken b l hcons
  · obtain ⟨-, htaken⟩ := exec_sigSignature_chunked hp hm hw
    exact htaken
  · rcases h with ⟨hm, hnil⟩ | ⟨hm, hfew⟩
    · exact (exec_sigSignature_sliding hp hm hw).1 hnil
    · exact (exec_sigSignature_chunked hp hm hw).1 hfew

/-- Settles O58: each word is closed, so the decoder is evaluated on it. -/
theorem writtenWordsDecode : Obligations.WrittenWordsDecode := by
  unfold Obligations.WrittenWordsDecode
  exact ⟨rfl, rfl, rfl, rfl, rfl, rfl, rfl⟩

end Sys2Proof.Laws
end

section
/-! Support for the statements about the ring buffer (40_ringbuffer.md): what an operation of the port does to its queue,
said once for both queues, and that on a well-formed buffer it is the step of the bounded queue. The five statements are
settled at the end. -/

namespace Sys2Proof.Laws

open Sys2Proof.Machine Sys2Proof.Safety

/-! ## One operation of the port, on either queue -/

/-- The operation of the port for an operation on a queue (R104). -/
def queueInstr : Queue → QueueOp → Instr
  | .rxq => rxqInstr
  | .txq => txqInstr

/-- What an operation answers and the buffer after it (R153 to R155). -/
def ringStep (n : Nat) (q : RingBuf) : QueueOp → OpResult × RingBuf
  | .push v => (pushResult (ringPush n v q).1, (ringPush n v q).2)
  | .pop => (.popped (ringPop n q).1, (ringPop n q).2)
  | .size => (.okCount (ringSize n q), q)

/-- An operation of the port has its result and its effect on its own queue, and no other effect: the critical section
around it gives GIE back as it was (R157). -/
theorem exec_queueInstr (w : Queue) (o : QueueOp) {s : State} (hi : s.issuer ∈ [Issuer.internal, Issuer.comp]) :
    exec (queueInstr w o) s =
      .next (endWith (ringStep (capacity w s) (getQueue w s) o).1
        (setQueue w (ringStep (capacity w s) (getQueue w s) o).2 s)) := by
  cases w with
  | rxq => cases o <;> exact congrArg Host.Outcome.next (issue_allowed hi)
  | txq => cases o <;> exact congrArg Host.Outcome.next (issue_allowed hi)

/-- R153 for either queue. -/
theorem exec_queueInstr_push (w : Queue) (v : Byte) {s : State} (hi : s.issuer ∈ [Issuer.internal, Issuer.comp]) :
    exec (queueInstr w (.push v)) s =
      if (getQueue w s).front = (getQueue w s).back then .next { s with result := some .bufferFull }
      else .next (endWith .success (setQueue w
        ⟨(getQueue w s).slot.set (getQueue w s).back (some v), (getQueue w s).front,
          ((getQueue w s).back + 1) % capacity w s⟩ s)) := by
  rw [exec_queueInstr w _ hi]
  simp only [ringStep]
  split
  · next h =>
    rw [ringPush_full v (by simpa [ringFull] using h)]
    cases w <;> rfl
  · next h =>
    rw [ringPush_notFull v (by simpa [ringFull] using h)]
    rfl

/-- R154 for either queue. -/
theorem exec_queueInstr_pop (w : Queue) {s : State} (hi : s.issuer ∈ [Issuer.internal, Issuer.comp]) :
    exec (queueInstr w .pop) s =
      if ((getQueue w s).front + 1) % capacity w s = (getQueue w s).back then
        .next { s with result := some (.popped none) }
      else .next (endWith (.popped ((getQueue w s).slot.getD (((getQueue w s).front + 1) % capacity w s) none))
        (setQueue w
          ⟨(getQueue w s).slot.set (((getQueue w s).front + 1) % capacity w s) none,
            ((getQueue w s).front + 1) % capacity w s, (getQueue w s).back⟩ s)) := by
  rw [exec_queueInstr w _ hi]
  simp only [ringStep]
  split
  · next h =>
    rw [ringPop_empty (by simpa [ringEmpty] using h)]
    cases w <;> rfl
  · next h =>
    rw [ringPop_notEmpty (by simpa [ringEmpty] using h)]
    rfl

/-! ## The bounded queue -/

theorem queueStep_push_of_lt {n : Nat} {l : List Byte} (v : Byte) (h : l.length < n - 1) :
    queueStep n (.push v) l = (.success, l ++ [v]) := if_pos h

theorem queueStep_push_of_full {n : Nat} {l : List Byte} (v : Byte) (h : ¬ l.length < n - 1) :
    queueStep n (.push v) l = (.bufferFull, l) := if_neg h

/-- A full buffer is one whose contents reach the bound of the queue (R151). -/
theorem ringFull_iff_contents {n : Nat} {q : RingBuf} (hn : 2 ≤ n) (h : RingWf n q) :
    ringFull q = true ↔ ¬ (contents n q).length < n - 1 := by
  have ⟨_, hf, hb, _⟩ := h
  have hlt := ringSize_lt hf hb
  rw [ringFull_iff hn hf hb, contents_length h]
  omega

/-- An operation on a well-formed buffer is the queue's own step on its contents (R160, R162). -/
theorem ringStep_refines {n : Nat} {q : RingBuf} (hn : 2 ≤ n) (h : RingWf n q) (o : QueueOp) :
    RingWf n (ringStep n q o).2 ∧
      queueStep n o (contents n q) = ((ringStep n q o).1, contents n (ringStep n q o).2) := by
  cases o with
  | push v =>
    simp only [ringStep]
    rcases ringPush_spec v h with ⟨hfull, hp⟩ | ⟨hfree, q', hp, hwf, -, -, hc, -⟩
    · rw [hp]
      exact ⟨h, queueStep_push_of_full v ((ringFull_iff_contents hn h).1 hfull)⟩
    · have hlt : (contents n q).length < n - 1 :=
        Decidable.of_not_not fun hge => by simp [(ringFull_iff_contents hn h).2 hge] at hfree
      rw [hp, hc]
      exact ⟨hwf, queueStep_push_of_lt v hlt⟩
  | pop =>
    simp only [ringStep]
    rcases ringPop_spec h with ⟨hc, hp⟩ | ⟨b, q', hc, hp, hwf, -⟩
    · rw [hp, hc]
      exact ⟨h, rfl⟩
    · rw [hp, hc]
      exact ⟨hwf, rfl⟩
  | size =>
    simp only [ringStep]
    rw [← contents_length h]
    exact ⟨h, rfl⟩

/-- An operation adds an element exactly when it answers Success and takes one exactly when it answers it. -/
theorem queueStep_count (n : Nat) (o : QueueOp) (l : List Byte) :
    (queueStep n o l).2.length + [(queueStep n o l).1].countP isSomePop =
      l.length + [(queueStep n o l).1].countP isSuccess := by
  cases o with
  | push v =>
    by_cases h : l.length < n - 1
    · rw [queueStep_push_of_lt v h]
      simp [isSomePop, isSuccess]
    · rw [queueStep_push_of_full v h]
      simp [isSomePop, isSuccess]
  | pop => cases l <;> simp [queueStep, isSomePop, isSuccess]
  | size => simp [queueStep, isSomePop, isSuccess]

/-- The elements left are those at the start and the pushed ones, less the popped ones (R161). -/
theorem queueRun_count (n : Nat) (ops : List QueueOp) (l : List Byte) :
    (queueRun n ops l).2.length + (queueRun n ops l).1.countP isSomePop =
      l.length + (queueRun n ops l).1.countP isSuccess := by
  induction ops generalizing l with
  | nil => rfl
  | cons o ops ih =>
    have hstep := queueStep_count n o l
    have hrest := ih (queueStep n o l).2
    simp only [queueRun]
    rw [← List.singleton_append, List.countP_append, List.countP_append]
    omega

/-! ## A run of operations -/

theorem execRun_cons {i : Instr} {is : List Instr} {s t u : State} {r : OpResult} {rs : List OpResult}
    (hstep : exec i s = .next t) (hr : t.result = some r) (hrun : execRun is t = some (rs, u)) :
    execRun (i :: is) s = some (r :: rs, u) := by
  simp [execRun, hstep, hr, hrun]

/-- `t` is `s` but for the queue and the last result. -/
def OnlyQueueDiffers (w : Queue) (s t : State) : Prop :=
  t = { setQueue w (getQueue w t) s with result := t.result }

theorem onlyQueueDiffers_refl (w : Queue) (s : State) : OnlyQueueDiffers w s s := by
  cases w <;> rfl

/-- What an operation wrote to the queue and the result does not show through a later one. -/
theorem onlyQueueDiffers_of_step {w : Queue} {r : OpResult} {q : RingBuf} {s t : State}
    (h : OnlyQueueDiffers w (endWith r (setQueue w q s)) t) : OnlyQueueDiffers w s t :=
  Eq.trans h (by cases w <;> rfl)

/-- Any run of operations on a queue is the run of the bounded queue on its contents (R160, R162). -/
theorem execRun_refines (w : Queue) (ops : List QueueOp) {s : State}
    (hi : s.issuer ∈ [Issuer.internal, Issuer.comp]) (hn : 2 ≤ capacity w s)
    (hw : RingWf (capacity w s) (getQueue w s)) :
    ∃ t, execRun (ops.map (queueInstr w)) s =
        some ((queueRun (capacity w s) ops (contents (capacity w s) (getQueue w s))).1, t) ∧
      RingWf (capacity w s) (getQueue w t) ∧
      contents (capacity w s) (getQueue w t) =
        (queueRun (capacity w s) ops (contents (capacity w s) (getQueue w s))).2 ∧
      OnlyQueueDiffers w s t := by
  induction ops generalizing s with
  | nil => exact ⟨s, rfl, hw, rfl, onlyQueueDiffers_refl w s⟩
  | cons o ops ih =>
    obtain ⟨hwf, hq⟩ := ringStep_refines hn hw o
    have hstep := exec_queueInstr w o hi
    generalize ringStep (capacity w s) (getQueue w s) o = r at hwf hq hstep
    have hcap : capacity w (endWith r.1 (setQueue w r.2 s)) = capacity w s := by cases w <;> rfl
    have hget : getQueue w (endWith r.1 (setQueue w r.2 s)) = r.2 := by cases w <;> rfl
    have hissuer : (endWith r.1 (setQueue w r.2 s)).issuer = s.issuer := by cases w <;> rfl
    obtain ⟨t, hrun, hwft, hct, hframe⟩ :=
      ih (s := endWith r.1 (setQueue w r.2 s)) (by rwa [hissuer]) (by rwa [hcap]) (by rwa [hcap, hget])
    rw [hcap, hget] at hrun hct
    rw [hcap] at hwft
    simp only [queueRun, hq]
    exact ⟨t, execRun_cons hstep rfl hrun, hwft, hct, onlyQueueDiffers_of_step hframe⟩

/-- From the empty queue, the size counts the Success pushes less the pops that gave an element (R161). -/
theorem execRun_count (w : Queue) (ops : List QueueOp) {s : State}
    (hi : s.issuer ∈ [Issuer.internal, Issuer.comp]) (hn : 2 ≤ capacity w s)
    (hq : getQueue w s = emptyRing (capacity w s)) :
    ∃ rs t, execRun (ops.map (queueInstr w)) s = some (rs, t) ∧
      ringSize (capacity w s) (getQueue w t) + rs.countP isSomePop = rs.countP isSuccess := by
  obtain ⟨hwf, hempty⟩ := emptyRing_wf hn
  rw [← hq] at hwf hempty
  obtain ⟨t, hrun, hwft, hct, -⟩ := execRun_refines w ops hi hn hwf
  rw [hempty] at hrun hct
  refine ⟨_, t, hrun, ?_⟩
  rw [← contents_length hwft, hct, queueRun_count]
  exact Nat.zero_add _

/-! ## Statements -/

/-- Settles O7: `execRun_refines` for each queue. -/
theorem ringIsABoundedFifoQueue : Obligations.RingIsABoundedFifoQueue := by
  unfold Obligations.RingIsABoundedFifoQueue
  exact fun ops _ hi => ⟨execRun_refines .rxq ops hi, execRun_refines .txq ops hi⟩

/-- Settles O8: `execRun_count` for each queue. -/
theorem sizeCountsPushesLessPops : Obligations.SizeCountsPushesLessPops := by
  unfold Obligations.SizeCountsPushesLessPops
  exact fun ops _ hi => ⟨execRun_count .rxq ops hi, execRun_count .txq ops hi⟩

/-- Settles O4: `exec_queueInstr_push` for each queue. -/
theorem pushBackStoresAtBack : Obligations.PushBackStoresAtBack := by
  unfold Obligations.PushBackStoresAtBack
  exact ⟨fun _ _ => ⟨rfl, rfl⟩, fun v _ hi => ⟨exec_queueInstr_push .rxq v hi, exec_queueInstr_push .txq v hi⟩⟩

/-- Settles O5: `exec_queueInstr_pop` for each queue; the slot after `front` is the oldest element's. -/
theorem popFrontTakesTheOldest : Obligations.PopFrontTakesTheOldest := by
  unfold Obligations.PopFrontTakesTheOldest
  refine ⟨fun _ => ⟨rfl, rfl⟩, fun n q hw hne => ?_,
    fun _ hi => ⟨exec_queueInstr_pop .rxq hi, exec_queueInstr_pop .txq hi⟩⟩
  exact Option.isSome_iff_exists.2 (oldest_isSome hw (by simpa [ringEmpty] using hne))

/-- Settles O6: the size query of `exec_queueInstr` for each queue. -/
theorem sizeAnswersTheCount : Obligations.SizeAnswersTheCount := by
  unfold Obligations.SizeAnswersTheCount
  exact ⟨fun _ => ⟨rfl, rfl⟩, fun _ hi => ⟨exec_queueInstr .rxq .size hi, exec_queueInstr .txq .size hi⟩⟩

end Sys2Proof.Laws
end

section
/-! Support for the statements about the critical section (41_critical_section.md). Each CS.ENTER puts the GIE it finds
in front of the tokens and each CS.EXIT takes the first token back, so GIE and the tokens held are one stack: entering
`n` regions pushes `n` times 0 on it, leaving `m` of them drops its first `m`. The three statements are settled at the
end. -/

namespace Sys2Proof.Laws

open Sys2Proof.Machine Sys2Proof.Safety

/-! ## One more region -/

theorem enterRegions_succ {n : Nat} {s t : State} {ts : List Byte} (h : enterRegions n s = some (ts, t))
    (hi : t.issuer ∈ [Issuer.fg, Issuer.internal]) :
    enterRegions (n + 1) s =
      some (tokenByte t.gie :: ts, { t with gie := false, result := some (.okToken t.gie) }) := by
  simp only [enterRegions, h, exec_csEnter hi]

theorem leaveRegions_cons (b : Bool) (ts : List Byte) {s : State} (hi : s.issuer ∈ [Issuer.fg, Issuer.internal]) :
    leaveRegions (tokenByte b :: ts) s = leaveRegions ts { s with gie := b, result := some .ok } := by
  simp only [leaveRegions, exec_csExit_tokenByte hi]

/-! ## Any number of regions -/

/-- After `n` entries GIE and the tokens, innermost first, are `n` times 0 and then the GIE before the first entry
(R180, R183). -/
theorem enterRegions_stack (n : Nat) {s : State} (hi : s.issuer ∈ [Issuer.fg, Issuer.internal]) :
    ∃ bs u, enterRegions n s = some (bs.map tokenByte, u) ∧ u.issuer = s.issuer ∧
      u.gie :: bs = List.replicate n false ++ [s.gie] := by
  induction n with
  | zero => exact ⟨[], s, rfl, rfl, rfl⟩
  | succ n ih =>
    obtain ⟨bs, t, henter, hissuer, hstack⟩ := ih
    refine ⟨t.gie :: bs, _, enterRegions_succ henter (hissuer ▸ hi), hissuer, ?_⟩
    rw [hstack]
    rfl

/-- Leaving with the first `m` tokens gives GIE the entry of the stack under them (R181, R183). -/
theorem leaveRegions_take {m : Nat} {bs : List Bool} {u : State} (hi : u.issuer ∈ [Issuer.fg, Issuer.internal])
    (hm : m ≤ bs.length) :
    ∃ v, leaveRegions ((bs.map tokenByte).take m) u = some v ∧ (u.gie :: bs)[m]? = some v.gie := by
  induction m generalizing bs u with
  | zero => exact ⟨u, rfl, rfl⟩
  | succ m ih =>
    cases bs with
    | nil => exact absurd hm (Nat.not_succ_le_zero m)
    | cons b bs =>
      rw [List.map_cons, List.take_succ_cons, leaveRegions_cons b _ hi]
      exact ih (u := { u with gie := b, result := some .ok }) hi (Nat.le_of_succ_le_succ hm)

/-! ## Statements -/

/-- Settles O3: leaving `m` of `n` regions reads entry `m` of the stack that entering them built. -/
theorem nestedRegionsRestoreGie : Obligations.NestedRegionsRestoreGie := by
  unfold Obligations.NestedRegionsRestoreGie
  intro n s hi
  obtain ⟨bs, u, henter, hissuer, hstack⟩ := enterRegions_stack n hi
  have hlength : bs.length = n := by simpa using congrArg List.length hstack
  refine ⟨bs.map tokenByte, u, henter, by rw [List.length_map, hlength], fun hn => ?inside, fun m hm => ?left⟩
  case inside =>
    obtain ⟨k, rfl⟩ := Nat.exists_eq_add_one.2 hn
    exact (List.cons.inj hstack).1
  case left =>
    obtain ⟨v, hleave, hgie⟩ := leaveRegions_take (hissuer ▸ hi) (hm.trans_eq hlength.symm)
    refine ⟨v, hleave, ?_⟩
    rw [hstack] at hgie
    rcases hm.eq_or_lt with rfl | hlt
    · simpa using hgie.symm
    · simpa [List.getElem?_append_left, hlt, hlt.ne] using hgie.symm

/-- Settles O1: `exec_csEnter`. -/
theorem csEnterAnswersAndClearsGie : Obligations.CsEnterAnswersAndClearsGie := by
  unfold Obligations.CsEnterAnswersAndClearsGie
  exact ⟨fun _ => rfl, fun _ hi => exec_csEnter hi⟩

/-- Settles O2: `exec_csExit_tokenByte` for the two tokens; a byte above 1 fails the operand check. -/
theorem csExitSetsGieToToken : Obligations.CsExitSetsGieToToken := by
  unfold Obligations.CsExitSetsGieToToken
  refine ⟨fun _ _ => rfl, fun s hi => ⟨exec_csExit_tokenByte hi false, exec_csExit_tokenByte hi true, fun t ht => ?_⟩⟩
  have hillegal : legalToken t = false := decide_eq_false (Nat.not_le.2 ht)
  exact exec_csExit_illegal hillegal s

end Sys2Proof.Laws
end

section
/-! Support for the statements about the USART engine (42_usart.md). The operations and the two ISRs are followed to
their next state by the specifications of their attempts and bodies. For the streams, a step is said once for each
direction: what it can do to the transmit side (`TransmitMove`) and to the bytes received (`step_receive`); the
statements on order, on UDRIE and on draining are read off from these. The eleven statements are settled at the end. -/

namespace Sys2Proof.Laws

open Sys2Proof.Machine Sys2Proof.Safety

/-! ## The foreground operations end their attempt (R205) -/

section
variable {s : State} (hi : s.issuer = .fg)
include hi

theorem issue_foreground (effect : State → State) : issue [.fg] effect s = effect s :=
  issue_allowed (by simp [hi])

theorem exec_writeByte (b : Byte) : exec (.writeByte b) s = .next (endAttempt (writeByteAttempt b s)) :=
  congrArg Host.Outcome.next (issue_foreground hi _)

theorem exec_write (bs : List Byte) : exec (.write bs) s = .next (endAttempt (writeAttempt bs s)) :=
  congrArg Host.Outcome.next (issue_foreground hi _)

theorem exec_readByte : exec .readByte s = .next (endAttempt (readByteAttempt s)) :=
  congrArg Host.Outcome.next (issue_foreground hi _)

theorem exec_read (len : Word16) : exec (.read len) s = .next (endAttempt (readAttempt len.toNat s)) :=
  congrArg Host.Outcome.next (issue_foreground hi _)

end

/-- An ISR that the dispatcher may take runs its body (R355). -/
theorem exec_isr_taken {src : Source} {s : State} (hi : s.issuer = .int) (hg : s.gie = true)
    (hr : requesting src s = true) : exec (isrOf src) s = .next (isrBody src s) := by
  rw [exec_isr src hi, if_pos ⟨hg, hr⟩]

/-! ## The stream of accepted bytes (R225) -/

/-- `t` has the configuration and the transmit side of `s`. -/
structure SameTransmit (s t : State) : Prop where
  cfg : t.cfg = s.cfg
  line : t.txLine = s.txLine
  reg : t.txDr = s.txDr
  queue : t.txq = s.txq
  driver : t.txState = s.txState
  enable : t.udrie = s.udrie

theorem SameTransmit.trans {s t u : State} (h : SameTransmit s t) (h' : SameTransmit t u) : SameTransmit s u :=
  ⟨h'.cfg.trans h.cfg, h'.line.trans h.line, h'.reg.trans h.reg, h'.queue.trans h.queue, h'.driver.trans h.driver,
    h'.enable.trans h.enable⟩

theorem sameTransmit_takeTurn (s : State) : SameTransmit s (takeTurn s) := ⟨rfl, rfl, rfl, rfl, rfl, rfl⟩

theorem sameTransmit_issued (a : Issuer) (s : State) : SameTransmit s { takeTurn s with issuer := a } :=
  ⟨rfl, rfl, rfl, rfl, rfl, rfl⟩

theorem sent_of_sameTransmit {s t : State} (h : SameTransmit s t) : sent t = sent s := by
  simp only [sent, h.cfg, h.line, h.reg, h.queue]

/-- Bytes put at the end of TXQ are put at the end of the stream. -/
theorem sent_of_appended {s t : State} {bs : List Byte} (hcfg : t.cfg = s.cfg) (hline : t.txLine = s.txLine)
    (hreg : t.txDr = s.txDr) (h : Appended s.cfg.txqN s.txq bs t.txq) : sent t = sent s ++ bs := by
  obtain ⟨-, -, -, hcontents, -⟩ := h
  simp only [sent, hcfg, hline, hreg, hcontents, List.append_assoc]

/-- A step of the foreground extends the stream by what it sends. -/
theorem sent_of_foregroundStep {s t : State} (h : ForegroundStep s t) : ∃ bs, sent t = sent s ++ bs := by
  obtain ⟨hframe, ⟨bs, happended, -, -⟩, -, -⟩ := h
  exact ⟨bs, sent_of_appended (by rw [hframe]) (by rw [hframe]) (by rw [hframe]) happended⟩

/-! ## The transmit side along a step -/

/-- If the turn is LINE_TX's or the transmit-empty interrupt's, that agent has no step (R220, R355, R405). -/
abbrev TransmitNotEnabled (s : State) : Prop :=
  s.booted = true → (nextTurn s = .lineTx → s.txDr = none) ∧
    (nextTurn s = .int .usartUdre → s.gie = false ∨ requesting .usartUdre s = false ∨ stopped .int s = true)

/-- What a step that is not the foreground's can do to the transmit side: nothing, if the turn is that of another agent
or of one that is not enabled; or LINE_TX moves the register to the line (R220); or the
transmit-empty ISR moves the oldest byte to the empty register, or finds none and stops the driver (R211). -/
inductive TransmitMove (s t : State) : Prop
  | rest (idle : TransmitNotEnabled s) (side : SameTransmit s t)
  | shift (b : Byte) (turn : nextTurn s = .lineTx) (reg : s.txDr = some b)
      (side : SameTransmit { s with txLine := s.txLine ++ [b], txDr := none } t)
  | load (b : Byte) (q : RingBuf) (turn : nextTurn s = .int .usartUdre) (reg : s.txDr = none)
      (oldest : contents s.cfg.txqN s.txq = b :: contents s.cfg.txqN q)
      (side : SameTransmit { s with txq := q, txDr := some b } t)
  | stop (turn : nextTurn s = .int .usartUdre) (reg : s.txDr = none) (empty : contents s.cfg.txqN s.txq = [])
      (side : SameTransmit { s with txState := .idle, udrie := false } t)

/-- A turn of any agent but LINE_TX and the transmit-empty interrupt rests. -/
theorem transmitMove_of_other {s t : State} (hl : nextTurn s ≠ .lineTx) (hi : nextTurn s ≠ .int .usartUdre)
    (h : SameTransmit s t) : TransmitMove s t :=
  .rest (fun _ => ⟨fun e => absurd e hl, fun e => absurd e hi⟩) h

theorem lineTxStep_of_byte {s : State} {b : Byte} (h : s.txDr = some b) :
    lineTxStep s = { s with txLine := s.txLine ++ [b], txDr := none, udre := true } := by
  simp [lineTxStep, h]

theorem lineTx_transmitMove {s : State} (hn : nextTurn s = .lineTx) :
    TransmitMove s (lineTxStep (takeTurn s)) := by
  cases hreg : s.txDr with
  | some b =>
    rw [lineTxStep_of_byte (s := takeTurn s) hreg]
    exact .shift b hn hreg ⟨rfl, rfl, rfl, rfl, rfl, rfl⟩
  | none =>
    rw [lineTxStep_of_empty (s := takeTurn s) hreg]
    exact .rest (fun _ => ⟨fun _ => hreg, fun e => by simp [hn] at e⟩) ⟨rfl, rfl, rfl, rfl, rfl, rfl⟩

/-- The transmit-empty interrupt requests only with the register empty (R53(c)). -/
theorem txDr_of_requesting {s : State} (h : Inv s) (hr : requesting .usartUdre s = true) : s.txDr = none := by
  obtain ⟨-, -, -, -, ⟨hudre, -⟩, -⟩ := h
  obtain ⟨hpending, -⟩ : s.udre = true ∧ s.udrie = true := by simpa [requesting, pending, enabled] using hr
  rwa [hudre, Option.isNone_iff_eq_none] at hpending

theorem usartUdre_transmitMove {s : State} (h : Inv s) (hn : nextTurn s = .int .usartUdre)
    (hr : requesting .usartUdre s = true) : TransmitMove s (usartUdreBody { takeTurn s with issuer := .int }) := by
  have hreg := txDr_of_requesting h hr
  obtain ⟨-, -, htxq⟩ := queuesReady_of_inv h
  simp only [usartUdreBody_eq, takeTurn_cfg, takeTurn_txq]
  rcases ringPop_spec htxq with ⟨hnil, hp⟩ | ⟨b, q, hcons, hp, -⟩
  · rw [hp]
    exact .stop hn hreg hnil ⟨rfl, rfl, rfl, rfl, rfl, rfl⟩
  · rw [hp]
    exact .load b q hn hreg hcons ⟨rfl, rfl, rfl, rfl, rfl, rfl⟩

/-- The other ISRs leave the transmit side alone. -/
theorem isrBody_sameTransmit {src : Source} (hsrc : src ≠ .usartUdre) (s : State) :
    SameTransmit s (isrBody src s) := by
  cases src with
  | usartUdre => exact absurd rfl hsrc
  | usartRx =>
    rw [isrBody, usartRxBody_eq]
    exact ⟨rfl, rfl, rfl, rfl, rfl, rfl⟩
  | pinChange =>
    rw [isrBody, pcintBody_eq]
    exact ⟨rfl, rfl, rfl, rfl, rfl, rfl⟩
  | timer =>
    rw [isrBody, timerBody_eq]
    exact ⟨rfl, rfl, rfl, rfl, rfl, rfl⟩

theorem hostStep_sameTransmit (s : State) : SameTransmit s (hostStep s) := by
  unfold hostStep
  split <;> exact ⟨rfl, rfl, rfl, rfl, rfl, rfl⟩

theorem timebaseStep_sameTransmit (s : State) : SameTransmit s (timebaseStep s) := by
  unfold timebaseStep
  (repeat' split) <;> exact ⟨rfl, rfl, rfl, rfl, rfl, rfl⟩

/-- A step of the block is the foreground's, or moves the transmit side as LINE_TX and the transmit-empty ISR do. -/
theorem step_transmit {s t : State} (h : Inv s) (hc : ForegroundClient s) (hs : step s = .next t) :
    (nextTurn s = .fg ∧ ForegroundStep s t) ∨ TransmitMove s t := by
  obtain ⟨-, -, ⟨hb, rfl⟩ | ⟨-, hagent⟩⟩ := step_next_cases (queuesReady_of_inv h) hc hs
  · exact .inr (.rest (fun e => by simp [hb] at e) ⟨rfl, rfl, rfl, rfl, rfl, rfl⟩)
  · rcases hagent with hfg | ⟨src, hn, ⟨-, hr, rfl⟩ | ⟨hno, rfl⟩⟩ | ⟨hn, rfl⟩ | ⟨hn, rfl⟩ | ⟨i, hn, rfl⟩ | ⟨hn, rfl⟩
    · exact .inl hfg
    · by_cases hsrc : src = .usartUdre
      · subst hsrc
        exact .inr (usartUdre_transmitMove h hn hr)
      · exact .inr (transmitMove_of_other (by simp [hn]) (by simp [hn, hsrc])
          ((sameTransmit_issued .int s).trans (isrBody_sameTransmit hsrc _)))
    · refine .inr (.rest (fun _ => ⟨fun e => by simp [hn] at e, fun e => ?_⟩) ⟨rfl, rfl, rfl, rfl, rfl, rfl⟩)
      obtain rfl : src = .usartUdre := by simpa [hn] using e
      exact hno
    · exact .inr (lineTx_transmitMove hn)
    · exact .inr (transmitMove_of_other (by simp [hn]) (by simp [hn])
        ((sameTransmit_takeTurn s).trans (hostStep_sameTransmit _)))
    · exact .inr (transmitMove_of_other (by simp [hn]) (by simp [hn]) ⟨rfl, rfl, rfl, rfl, rfl, rfl⟩)
    · exact .inr (transmitMove_of_other (by simp [hn]) (by simp [hn])
        ((sameTransmit_takeTurn s).trans (timebaseStep_sameTransmit _)))

theorem step_transmitMove {s t : State} (h : Inv s) (hc : ForegroundClient s) (hs : step s = .next t)
    (hn : nextTurn s ≠ .fg) : TransmitMove s t :=
  (step_transmit h hc hs).resolve_left fun hfg => hn hfg.1

/-- A byte that moves from TXQ to the register or from the register to the line keeps its place in the stream. -/
theorem sent_of_transmitMove {s t : State} (h : TransmitMove s t) : sent t = sent s := by
  cases h with
  | rest _ side => exact sent_of_sameTransmit side
  | shift b _ reg side =>
    rw [sent_of_sameTransmit side]
    simp [sent, reg]
  | load b q _ reg oldest side =>
    rw [sent_of_sameTransmit side]
    simp [sent, reg, oldest]
  | stop _ _ _ side => exact (sent_of_sameTransmit side).trans rfl

/-! ## UDRIE along a step (R212) -/

/-- The foreground sets UDRIE where it sends bytes to an Idle driver, and changes it nowhere else. -/
theorem udrie_of_foregroundStep {s t : State} (h : ForegroundStep s t) :
    t.udrie = s.udrie ∨ (t.udrie = true ∧ s.txState = .idle ∧ t.txState = .buffering ∧
      ∃ bs, bs ≠ [] ∧ Appended s.cfg.txqN s.txq bs t.txq) := by
  obtain ⟨-, ⟨bs, happended, hdriver, henable⟩, -, -⟩ := h
  by_cases hstart : bs ≠ [] ∧ s.txState = .idle
  · obtain ⟨hbs, hidle⟩ := hstart
    exact .inr ⟨henable.trans (if_pos ⟨hbs, hidle⟩), hidle, hdriver.trans (if_neg hbs), bs, hbs, happended⟩
  · exact .inl (henable.trans (if_neg hstart))

/-- A step leaves UDRIE as it was, or is the foreground's start of an Idle driver, or the transmit-empty ISR's stop of
a driver with TXQ empty. -/
theorem step_udrie {s t : State} (h : Inv s) (hc : ForegroundClient s) (hs : step s = .next t) :
    t.udrie = s.udrie ∨
    (t.udrie = true ∧ nextTurn s = .fg ∧ s.txState = .idle ∧ t.txState = .buffering ∧
      ∃ bs, bs ≠ [] ∧ Appended s.cfg.txqN s.txq bs t.txq) ∨
    (t.udrie = false ∧ nextTurn s = .int .usartUdre ∧ ringEmpty s.cfg.txqN s.txq = true ∧ t.txState = .idle) := by
  rcases step_transmit h hc hs with ⟨hn, hfg⟩ | hmove
  · exact (udrie_of_foregroundStep hfg).imp_right fun ⟨hset, hstart⟩ => .inl ⟨hset, hn, hstart⟩
  · obtain ⟨-, -, htxq⟩ := queuesReady_of_inv h
    cases hmove with
    | rest _ side => exact .inl side.enable
    | shift _ _ _ side => exact .inl side.enable
    | load _ _ _ _ _ side => exact .inl side.enable
    | stop turn _ empty side =>
      exact .inr (.inr ⟨side.enable, turn, (contents_empty_iff htxq).2 empty, side.driver⟩)

/-! ## Runs -/

theorem runSteps_succ {n : Nat} {s t : State} (h : runSteps (n + 1) s = some t) :
    ∃ u, step s = .next u ∧ runSteps n u = some t := by
  unfold runSteps at h
  split at h
  · next u hu => exact ⟨u, hu, h⟩
  · cases h
  · cases h

/-- A reflexive and transitive relation that every step keeps the invariants for holds along every run. -/
theorem runSteps_related {R : State → State → Prop} (hrefl : ∀ s, R s s)
    (htrans : ∀ s u t, R s u → R u t → R s t)
    (hstep : ∀ s t : State, Inv s → ForegroundClient s → step s = .next t → R s t)
    {n : Nat} {s t : State} (h : Inv s) (hc : ForegroundClient s) (hs : runSteps n s = some t) : R s t := by
  induction n generalizing s with
  | zero =>
    obtain rfl := Option.some.inj hs
    exact hrefl s
  | succ n ih =>
    obtain ⟨u, hu, hrest⟩ := runSteps_succ hs
    exact htrans s u t (hstep s u h hc hu) (ih (step_inv h hc hu) (step_foregroundClient hc hu) hrest)

theorem step_sent_prefix {s t : State} (h : Inv s) (hc : ForegroundClient s) (hs : step s = .next t) :
    sent s <+: sent t := by
  rcases step_transmit h hc hs with ⟨-, hfg⟩ | hmove
  · obtain ⟨bs, hbs⟩ := sent_of_foregroundStep hfg
    exact ⟨bs, hbs.symm⟩
  · rw [sent_of_transmitMove hmove]

/-! ## The received bytes (R226) -/

/-- The bytes the host has delivered (R43). -/
def delivered (s : State) : List Byte := s.hostRx.take s.hostRxPos

/-- A step of the foreground takes bytes from the front of the held ones, and delivers none. -/
theorem held_of_foregroundStep {s t : State} (h : ForegroundStep s t) :
    ∃ more, held s = more ++ held t ∧ delivered t = delivered s := by
  obtain ⟨hframe, -, ⟨bs, -, -, -, hcontents, -⟩, -⟩ := h
  refine ⟨bs, ?_, by rw [hframe]; rfl⟩
  have hcfg : t.cfg = s.cfg := by rw [hframe]
  have hreg : t.rxDr = s.rxDr := by rw [hframe]
  simp only [held, hcfg, hreg, hcontents, List.append_assoc]

theorem hostStep_of_byte {s : State} {b : Byte} (h : s.hostRx[s.hostRxPos]? = some b) :
    hostStep s = { s with
      hostRxPos := s.hostRxPos + 1, dor := if s.rxc = true then true else s.dor, rxDr := some b, rxc := true } := by
  cases hrxc : s.rxc <;> simp [hostStep, h, hrxc]

/-- Between the foreground's steps the host may deliver bytes at the end, and held bytes may be lost, in the register
to an overrun (R222) or to a full RXQ (R210); none is reordered. -/
abbrev Receives (s t : State) : Prop := ∃ new, delivered t = delivered s ++ new ∧ (held t).Sublist (held s ++ new)

theorem receives_nothing {s t : State} (hd : delivered t = delivered s) (hh : held t = held s) : Receives s t :=
  ⟨[], by simp [hd], by simp [hh]⟩

theorem hostStep_receives (s : State) : Receives s (hostStep s) := by
  unfold hostStep
  split
  · next b hb =>
    refine ⟨[b], by simp [delivered, List.take_add_one, hb], ?_⟩
    simp [held]
  · exact receives_nothing rfl rfl

theorem usartRxBody_receives {s : State} (hw : RingWf s.cfg.rxqN s.rxq) : Receives s (usartRxBody s) := by
  rw [usartRxBody_eq]
  cases hreg : s.rxDr with
  | none => exact receives_nothing rfl (by simp [held, hreg])
  | some b =>
    refine ⟨[], by simp [delivered], ?_⟩
    rcases ringPush_spec b hw with ⟨-, hp⟩ | ⟨-, q, hp, -, -, -, hcontents, -⟩
    · simp [held, hp]
    · simp [held, hp, hcontents, hreg]

theorem isrBody_receives (src : Source) {s : State} (hw : RingWf s.cfg.rxqN s.rxq) :
    Receives s (isrBody src s) := by
  cases src with
  | usartRx => exact usartRxBody_receives hw
  | usartUdre =>
    rw [isrBody, usartUdreBody_eq]
    split <;> exact receives_nothing rfl rfl
  | pinChange =>
    rw [isrBody, pcintBody_eq]
    exact receives_nothing rfl rfl
  | timer =>
    rw [isrBody, timerBody_eq]
    exact receives_nothing rfl rfl

theorem lineTxStep_receives (s : State) : Receives s (lineTxStep s) := by
  unfold lineTxStep
  split <;> exact receives_nothing rfl rfl

theorem timebaseStep_receives (s : State) : Receives s (timebaseStep s) := by
  unfold timebaseStep
  (repeat' split) <;> exact receives_nothing rfl rfl

/-- A step of the block is the foreground's, or receives. -/
theorem step_receive {s t : State} (h : Inv s) (hc : ForegroundClient s) (hs : step s = .next t) :
    (nextTurn s = .fg ∧ ForegroundStep s t) ∨ (t = boot s ∨ nextTurn s ≠ .fg) ∧ Receives s t := by
  have hq := queuesReady_of_inv h
  obtain ⟨-, -, ⟨-, rfl⟩ | ⟨-, hagent⟩⟩ := step_next_cases hq hc hs
  · exact .inr ⟨.inl rfl, receives_nothing rfl rfl⟩
  · rcases hagent with hfg | ⟨src, hn, ⟨-, -, rfl⟩ | ⟨-, rfl⟩⟩ | ⟨hn, rfl⟩ | ⟨hn, rfl⟩ | ⟨i, hn, rfl⟩ | ⟨hn, rfl⟩
    · exact .inl hfg
    · exact .inr ⟨.inr (by simp [hn]), isrBody_receives src (s := { takeTurn s with issuer := .int }) hq.2.1⟩
    · exact .inr ⟨.inr (by simp [hn]), receives_nothing rfl rfl⟩
    · exact .inr ⟨.inr (by simp [hn]), lineTxStep_receives (takeTurn s)⟩
    · exact .inr ⟨.inr (by simp [hn]), hostStep_receives (takeTurn s)⟩
    · exact .inr ⟨.inr (by simp [hn]), receives_nothing rfl rfl⟩
    · exact .inr ⟨.inr (by simp [hn]), timebaseStep_receives (takeTurn s)⟩

/-! ## Draining the transmitter (R227) -/

/-- The turns that empty TXQ with `n` bytes in it onto the line, the register being empty, and stop the driver. -/
def queueTurns (n : Nat) : List Turn :=
  (List.replicate n [Turn.int .usartUdre, Turn.lineTx]).flatten ++ [.int .usartUdre]

theorem drainTurns_eq (n : Nat) : drainTurns n = .lineTx :: queueTurns n := rfl

theorem queueTurns_succ (n : Nat) : queueTurns (n + 1) = .int .usartUdre :: .lineTx :: queueTurns n := rfl

/-- The turns of the line and the transmit-empty interrupt that a state's transmitter still needs. -/
def turnsNeeded (s : State) : List Turn :=
  match s.txDr, s.txState with
  | some _, _ => drainTurns (contents s.cfg.txqN s.txq).length
  | none, .buffering => queueTurns (contents s.cfg.txqN s.txq).length
  | none, .idle => []

theorem turnsNeeded_sublist (s : State) :
    (turnsNeeded s).Sublist (drainTurns (contents s.cfg.txqN s.txq).length) := by
  unfold turnsNeeded
  split
  · exact List.Sublist.refl _
  · exact List.sublist_cons_self ..
  · exact List.nil_sublist _

theorem turnsNeeded_of_sameTransmit {s t : State} (h : SameTransmit s t) : turnsNeeded t = turnsNeeded s := by
  simp only [turnsNeeded, h.cfg, h.reg, h.queue, h.driver]

theorem turnsNeeded_of_txDr {s : State} {b : Byte} (h : s.txDr = some b) :
    turnsNeeded s = .lineTx :: queueTurns (contents s.cfg.txqN s.txq).length := by
  rw [turnsNeeded, h]
  exact drainTurns_eq _

theorem turnsNeeded_of_buffering {s : State} (h : s.txDr = none) (hx : s.txState = .buffering) :
    turnsNeeded s = queueTurns (contents s.cfg.txqN s.txq).length := by
  rw [turnsNeeded, h, hx]

theorem turnsNeeded_of_idle {s : State} (h : s.txDr = none) (hx : s.txState = .idle) : turnsNeeded s = [] := by
  rw [turnsNeeded, h, hx]

/-- With the register empty, only TXQ is left to be drained, and only if the driver is not Idle. -/
theorem turnsNeeded_of_txDr_none {s : State} (h : s.txDr = none) :
    (turnsNeeded s).Sublist (queueTurns (contents s.cfg.txqN s.txq).length) := by
  cases hx : s.txState with
  | idle =>
    rw [turnsNeeded_of_idle h hx]
    exact List.nil_sublist _
  | buffering => rw [turnsNeeded_of_buffering h hx]

theorem turnsNeeded_eq_nil {s : State} (h : turnsNeeded s = []) : s.txDr = none ∧ s.txState = .idle := by
  unfold turnsNeeded at h
  split at h
  · cases h
  · simp [queueTurns] at h
  · next hreg hidle => exact ⟨hreg, hidle⟩

/-- A driver with a byte queued is not Idle (R53(b)). -/
theorem buffering_of_contents {s : State} {b : Byte} {l : List Byte} (h : Inv s)
    (hcons : contents s.cfg.txqN s.txq = b :: l) : s.txState = .buffering := by
  obtain ⟨-, -, -, hempty, -, ⟨-, hw⟩, -⟩ := h
  cases hx : s.txState with
  | buffering => rfl
  | idle =>
    rw [(contents_empty_iff hw).1 (hempty hx)] at hcons
    cases hcons

theorem queueTurns_cons (n : Nat) : ∃ rest, queueTurns n = .int .usartUdre :: rest := by
  cases n <;> exact ⟨_, rfl⟩

/-- The turn a transmitter needs first is that of an agent that is enabled: the line with a byte in the register, or
the transmit-empty interrupt of a driver that is not Idle with the register empty. -/
theorem turnsNeeded_cons {s : State} {a : Turn} {rest : List Turn} (h : turnsNeeded s = a :: rest) :
    (a = .lineTx ∧ s.txDr ≠ none) ∨ (a = .int .usartUdre ∧ s.txDr = none ∧ s.txState = .buffering) := by
  unfold turnsNeeded at h
  split at h
  · next b _ hreg =>
    obtain ⟨rfl, -⟩ := List.cons.inj h
    exact .inl ⟨rfl, by simp [hreg]⟩
  · next hreg hbusy =>
    obtain ⟨tail, htail⟩ := queueTurns_cons (contents s.cfg.txqN s.txq).length
    rw [htail] at h
    obtain ⟨rfl, -⟩ := List.cons.inj h
    exact .inr ⟨rfl, hreg, hbusy⟩
  · cases h

/-- The dispatcher takes the transmit-empty interrupt of a driver that is not Idle and has its register empty. -/
theorem requesting_usartUdre {s : State} (h : Inv s) (hreg : s.txDr = none) (hx : s.txState = .buffering) :
    requesting .usartUdre s = true := by
  obtain ⟨-, -, henable, -, ⟨hudre, -⟩, -⟩ := h
  simp [requesting, pending, enabled, hudre, henable, hreg, hx]

/-- The dispatcher may step: the block has booted, interrupts are on and it was not refused (R405, R355, R362). -/
abbrev Dispatching (s : State) : Prop := s.booted = true ∧ s.gie = true ∧ stopped .int s = false

/-- A turn of an agent that is not enabled is not the one the transmitter needs first. -/
theorem turnsNeeded_ne_of_notEnabled {s : State} {rest : List Turn} (h : Inv s) (hd : Dispatching s)
    (hidle : TransmitNotEnabled s) : turnsNeeded s ≠ nextTurn s :: rest := by
  obtain ⟨hb, hg, hi⟩ := hd
  obtain ⟨hline, hint⟩ := hidle hb
  intro hneed
  rcases turnsNeeded_cons hneed with ⟨hn, hreg⟩ | ⟨hn, hreg, hbusy⟩
  · exact hreg (hline hn)
  · simpa [hg, hi, requesting_usartUdre h hreg hbusy] using hint hn

/-- The turns still needed after a step are among the turns still to come after it. -/
theorem turnsNeeded_of_transmitMove {s t : State} {later : List Turn} (h : Inv s) (hd : Dispatching s)
    (hmove : TransmitMove s t) (hneed : (turnsNeeded s).Sublist (nextTurn s :: later)) :
    (turnsNeeded t).Sublist later := by
  cases hmove with
  | rest idle side =>
    rw [turnsNeeded_of_sameTransmit side]
    rcases List.sublist_cons_iff.1 hneed with hlater | ⟨rest, hhead, -⟩
    · exact hlater
    · exact absurd hhead (turnsNeeded_ne_of_notEnabled h hd idle)
  | shift b turn reg side =>
    rw [turnsNeeded_of_txDr reg, turn, List.cons_sublist_cons] at hneed
    rw [turnsNeeded_of_sameTransmit side]
    exact (turnsNeeded_of_txDr_none rfl).trans hneed
  | load b q turn reg oldest side =>
    have hbusy := buffering_of_contents h oldest
    rw [turnsNeeded_of_buffering reg hbusy, oldest, List.length_cons, queueTurns_succ, turn,
      List.cons_sublist_cons] at hneed
    rw [turnsNeeded_of_sameTransmit side, turnsNeeded_of_txDr rfl]
    exact hneed
  | stop turn reg empty side =>
    rw [turnsNeeded_of_idle (side.reg.trans reg) side.driver]
    exact List.nil_sublist _

/-- An agent that is not the foreground leaves GIE and the refusals as they were and uses up its turn. -/
theorem step_uses_turn {s t : State} (h : Inv s) (hc : ForegroundClient s) (hd : Dispatching s)
    (hn : nextTurn s ≠ .fg) (hs : step s = .next t) : t.turns = s.turns.drop 1 ∧ Dispatching t := by
  obtain ⟨-, -, ⟨hb, -⟩ | ⟨-, hagent⟩⟩ := step_next_cases (queuesReady_of_inv h) hc hs
  · obtain ⟨hbooted, -⟩ := hd
    cases hb.symm.trans hbooted
  · rcases hagent with ⟨hfg, -⟩ | ⟨src, -, ⟨-, -, rfl⟩ | ⟨-, rfl⟩⟩ | ⟨-, rfl⟩ | ⟨-, rfl⟩ | ⟨i, -, rfl⟩ | ⟨-, rfl⟩
    · exact absurd hfg hn
    · rw [isrBody_frame]
      exact ⟨rfl, hd⟩
    · exact ⟨rfl, hd⟩
    · unfold lineTxStep
      split <;> exact ⟨rfl, hd⟩
    · unfold hostStep
      split <;> exact ⟨rfl, hd⟩
    · exact ⟨rfl, hd⟩
    · unfold timebaseStep
      (repeat' split) <;> exact ⟨rfl, hd⟩

/-- After turns that hold all those the transmitter needs it needs none, with the same stream. -/
theorem runSteps_drains {n : Nat} {s t : State} (h : Inv s) (hc : ForegroundClient s) (hd : Dispatching s)
    (hlen : n ≤ s.turns.length) (hfg : Turn.fg ∉ s.turns.take n) (hneed : (turnsNeeded s).Sublist (s.turns.take n))
    (hs : runSteps n s = some t) : Inv t ∧ sent t = sent s ∧ turnsNeeded t = [] := by
  induction n generalizing s with
  | zero =>
    obtain rfl := Option.some.inj hs
    exact ⟨h, rfl, List.sublist_nil.1 hneed⟩
  | succ n ih =>
    obtain ⟨u, hu, hrest⟩ := runSteps_succ hs
    obtain ⟨a, later, hturns⟩ := List.exists_cons_of_length_pos (Nat.lt_of_lt_of_le n.succ_pos hlen)
    have hnext : nextTurn s = a := by simp [nextTurn, hturns]
    rw [hturns] at hlen
    rw [hturns, List.take_succ_cons] at hfg hneed
    rw [← hnext] at hfg hneed
    obtain ⟨hne, hfg'⟩ := List.ne_and_not_mem_of_not_mem_cons hfg
    have hmove := step_transmitMove h hc hu hne.symm
    obtain ⟨huturns, hd'⟩ := step_uses_turn h hc hd hne.symm hu
    rw [hturns, List.drop_one, List.tail_cons] at huturns
    rw [← huturns] at hlen hfg' hneed
    obtain ⟨hinv, hsent, hnone⟩ := ih (step_inv h hc hu) (step_foregroundClient hc hu) hd'
      (Nat.le_of_succ_le_succ hlen) hfg' (turnsNeeded_of_transmitMove h hd hmove hneed) hrest
    exact ⟨hinv, hsent.trans (sent_of_transmitMove hmove), hnone⟩

/-- A transmitter that needs no turn has everything on the line. -/
theorem drained_of_turnsNeeded_nil {s : State} (h : Inv s) (hneed : turnsNeeded s = []) :
    s.txLine = sent s ∧ contents s.cfg.txqN s.txq = [] ∧ s.txDr = none ∧ s.txState = .idle ∧ s.udrie = false := by
  obtain ⟨hreg, hidle⟩ := turnsNeeded_eq_nil hneed
  obtain ⟨-, -, henable, hempty, -, ⟨-, hw⟩, -⟩ := h
  have hnil := (contents_empty_iff hw).1 (hempty hidle)
  exact ⟨by simp [sent, hreg, hnil], hnil, hreg, hidle, by rw [henable, hidle]; rfl⟩

/-! ## Statements -/

/-- Settles O21: an accepted string is put at the end of TXQ, and a step of another agent is a `TransmitMove`, which
keeps the stream. -/
theorem transmitStreamKeepsOrder : Obligations.TransmitStreamKeepsOrder := by
  unfold Obligations.TransmitStreamKeepsOrder
  refine ⟨fun b s t hi hw hx => ?writeByte, fun bs s t hi hn hw hx => ?write,
    fun s t h hc hs hn => sent_of_transmitMove (step_transmitMove h hc hs hn),
    fun n s t h hc hs => runSteps_related (R := fun s t => sent s <+: sent t) (fun _ => List.prefix_rfl)
      (fun _ _ _ => List.IsPrefix.trans) (fun _ _ => step_sent_prefix) h hc hs⟩
  case writeByte =>
    rw [exec_writeByte hi] at hx
    obtain rfl := Host.Outcome.next.inj hx
    rcases writeByteAttempt_spec b s hw with ⟨-, e⟩ | ⟨-, q, e, ha⟩
    · rw [e]
      rfl
    · rw [e]
      exact sent_of_appended rfl rfl rfl ha
  case write =>
    rw [exec_write hi] at hx
    obtain rfl := Host.Outcome.next.inj hx
    rcases writeAttempt_spec bs s hn hw with ⟨-, e⟩ | ⟨-, q, e, ha⟩
    · rw [e]
      rfl
    · rw [e]
      exact sent_of_appended rfl rfl rfl ha

/-- Settles O22: the foreground takes from the front of the held bytes; every other step only delivers at the end and
drops. -/
theorem receivedBytesKeepHostOrder : Obligations.ReceivedBytesKeepHostOrder := by
  unfold Obligations.ReceivedBytesKeepHostOrder
  intro s t got h hc hs hsub
  rcases step_receive h hc hs with ⟨hn, hfg⟩ | ⟨hwho, new, hnew, hheld⟩
  · obtain ⟨more, hmore, hdel⟩ := held_of_foregroundStep hfg
    refine ⟨more, ?_, fun hne => absurd hn hne, fun _ => hmore⟩
    rw [hmore, ← List.append_assoc] at hsub
    rw [← delivered, hdel]
    exact hsub
  · refine ⟨[], ?_, fun _ => rfl, fun hn => ?_⟩
    · rw [List.append_nil]
      have hkept : (got ++ held t).Sublist (got ++ held s ++ new) := by
        rw [List.append_assoc]
        exact hheld.append_left got
      rw [← delivered, hnew]
      exact hkept.trans (hsub.append_right new)
    · obtain rfl := hwho.resolve_right (absurd hn)
      rfl

/-- Settles O23: the script of the statement holds every turn the transmitter needs. -/
theorem transmitDrains : Obligations.TransmitDrains := by
  unfold Obligations.TransmitDrains
  rintro n s t h hc ⟨-, -, hb⟩ hg hi hlen hfg hscript hs
  obtain ⟨hinv, hsent, hnone⟩ := runSteps_drains h hc ⟨hb, hg, hi⟩ hlen hfg ((turnsNeeded_sublist s).trans hscript) hs
  rw [← hsent]
  exact drained_of_turnsNeeded_nil hinv hnone

/-- Settles O13: `writeAttempt_spec`. -/
theorem writeIsAllOrNothing : Obligations.WriteIsAllOrNothing := by
  unfold Obligations.WriteIsAllOrNothing
  refine ⟨fun _ _ => rfl, fun bs s hi hn hw => ?_⟩
  rw [exec_write hi]
  rcases writeAttempt_spec bs s hn hw with ⟨hlong, e⟩ | ⟨hfits, q, e, ha⟩
  · rw [e]
    exact ⟨fun _ => rfl, fun hfits => absurd hlong (Nat.not_lt.2 hfits)⟩
  · rw [e]
    exact ⟨fun hlong => absurd hlong (Nat.not_lt.2 hfits), fun _ => ⟨q, ha, rfl⟩⟩

/-- Settles O14: `readByteAttempt_spec`. -/
theorem readByteTakesTheOldest : Obligations.ReadByteTakesTheOldest := by
  unfold Obligations.ReadByteTakesTheOldest
  refine ⟨fun _ => rfl, fun s hi hw => ?_⟩
  rw [exec_readByte hi]
  rcases readByteAttempt_spec s hw with ⟨hnil, e⟩ | ⟨b, q, hcons, hr, e⟩
  · rw [e, hnil]
    exact ⟨fun _ => rfl, nofun⟩
  · rw [e, hcons]
    refine ⟨nofun, fun b' l hb => ?_⟩
    obtain ⟨rfl, -⟩ := List.cons.inj hb
    exact ⟨q, hr, rfl⟩

/-- Settles O15: `readAttempt_spec`. -/
theorem readIsAllOrNothing : Obligations.ReadIsAllOrNothing := by
  unfold Obligations.ReadIsAllOrNothing
  refine ⟨fun _ _ => rfl, fun len s hi hw => ?_⟩
  rw [exec_read hi, ← contents_length hw]
  rcases readAttempt_spec len.toNat s hw with ⟨hshort, e⟩ | ⟨henough, q, e, hr⟩
  · rw [e]
    exact ⟨fun _ => rfl, fun henough => absurd hshort (Nat.not_lt.2 henough)⟩
  · rw [e]
    exact ⟨fun hshort => absurd hshort (Nat.not_lt.2 henough),
      fun _ => ⟨_, q, List.length_take_of_le henough, hr, rfl⟩⟩

/-- Settles O18: the body of the ISR pops TXQ. -/
theorem transmitIsrMovesAByteOrStops : Obligations.TransmitIsrMovesAByteOrStops := by
  unfold Obligations.TransmitIsrMovesAByteOrStops
  refine ⟨fun _ => rfl, fun s hi hg hudre hudrie hw => ?_⟩
  have hr : requesting .usartUdre s = true := by simp [requesting, pending, enabled, hudre, hudrie]
  have hx : exec .isrUsartUdre s = .next (usartUdreBody s) := exec_isr_taken (src := .usartUdre) hi hg hr
  rw [hx, usartUdreBody_eq]
  rcases ringPop_spec hw with ⟨hnil, hp⟩ | ⟨b, q, hcons, hp, hq⟩
  · rw [hp, hnil]
    exact ⟨fun _ => rfl, nofun⟩
  · rw [hp, hcons]
    refine ⟨nofun, fun b' l hb => ?_⟩
    obtain ⟨rfl, -⟩ := List.cons.inj hb
    exact ⟨q, hq, rfl⟩

/-- Settles O20: the three cases of `step_udrie`. -/
theorem transmitEnableIsWrittenByTwoRules : Obligations.TransmitEnableIsWrittenByTwoRules := by
  unfold Obligations.TransmitEnableIsWrittenByTwoRules
  intro s t h hc hs
  rcases step_udrie h hc hs with hsame | ⟨hset, hstart⟩ | ⟨hclear, hstop⟩
  · rw [hsame]
    exact ⟨fun hu hu' => absurd hu (by simp [hu']), fun hu hu' => absurd hu' (by simp [hu])⟩
  · exact ⟨fun _ hu => absurd hset (by simp [hu]), fun _ _ => hstart⟩
  · exact ⟨fun _ _ => hstop, fun _ hu => absurd hu (by simp [hclear])⟩

/-- Settles O12: `writeByteAttempt_eq`, with the slot the push writes. -/
theorem writeByteQueuesAByte : Obligations.WriteByteQueuesAByte := by
  unfold Obligations.WriteByteQueuesAByte
  refine ⟨fun _ _ => rfl, fun b s hi => ?_⟩
  rw [exec_writeByte hi, writeByteAttempt_eq]
  by_cases hfull : s.txq.front = s.txq.back
  · rw [if_pos hfull, if_pos (by simpa [ringFull] using hfull)]
    rfl
  · have hfree : ringFull s.txq = false := by simpa [ringFull] using hfull
    rw [if_neg hfull, if_neg (by simp [hfree]), startTransmit_eq, ringPush_notFull b hfree]
    rfl

/-- Settles O17: the body of the ISR empties the register and pushes its byte. -/
theorem receiveIsrPushesOrDrops : Obligations.ReceiveIsrPushesOrDrops := by
  unfold Obligations.ReceiveIsrPushesOrDrops
  refine ⟨fun _ => rfl, fun b s hi hg hrxc hrxcie hreg => ?_⟩
  have hr : requesting .usartRx s = true := by simp [requesting, pending, enabled, hrxc, hrxcie]
  have hx : exec .isrUsartRx s = .next (usartRxBody s) := exec_isr_taken (src := .usartRx) hi hg hr
  rw [hx, usartRxBody_eq, hreg]
  dsimp only
  by_cases hfull : s.rxq.front = s.rxq.back
  · rw [if_pos hfull, ringPush_full b (by simpa [ringFull] using hfull)]
  · rw [if_neg hfull, ringPush_notFull b (by simpa [ringFull] using hfull)]
    rfl

/-- Settles O24: the two agents' rules, with the turn used up. -/
theorem lineAgentsMoveOneByte : Obligations.LineAgentsMoveOneByte := by
  unfold Obligations.LineAgentsMoveOneByte
  intro s hrun
  refine ⟨fun b hn hreg => ⟨(takeTurn s).turns, (takeTurn s).turnNo, ?lineTx⟩,
    fun b hn hnext => ⟨(takeTurn s).turns, (takeTurn s).turnNo, ?host⟩⟩
  case lineTx =>
    rw [step_of_running hrun hn, agentStep, lineTxStep_of_byte (s := takeTurn s) hreg]
    rfl
  case host =>
    rw [step_of_running hrun hn, agentStep, hostStep_of_byte (s := takeTurn s) hnext]
    rfl

end Sys2Proof.Laws
end

section
/-! Support for the statements about the framer (43_framer.md). FR.HANDSHAKE and FR.SERVE_ONE are followed phase by
phase, a request's row through its handler, and the points of a selection record by record through both passes; the
sample arithmetic has its own part below. -/

namespace Sys2Proof.Laws

open Sys2Proof.Machine Sys2Proof.Safety

/-! ## FR.HANDSHAKE (R255 to R257; logs 12 and 16) -/

/-- FR.HANDSHAKE in a send phase, or when no handshake is under way, runs in that send phase or in the first. -/
theorem exec_frHandshake_send {c : Nat} {s : State} (hi : s.issuer = .fg)
    (h : (s.phase = .hsSend c ∧ c < 2) ∨ (inHandshake s.phase = false ∧ c = 0)) :
    c < 2 ∧ exec .frHandshake s = exec .frHandshake (setPhase (.hsSend c) s) := by
  rcases h with ⟨hp, hc⟩ | ⟨hp, rfl⟩
  · exact ⟨hc, by rw [setPhase_self hp]⟩
  · exact ⟨Nat.zero_lt_two, exec_frHandshake_start hi hp⟩

/-- A handshake phase whose condition does not hold stays as it is (R250). -/
theorem exec_frHandshake_waits {s : State} (hi : s.issuer = .fg) (h : inHandshake s.phase = true)
    (hwait : sequencerStep s = s) : exec .frHandshake s = .next { s with result := some .pending } := by
  rw [exec_frHandshake_phase hi h, hwait, if_pos h]
  rfl

/-- The send attempt (R250): the phase stays without room, else the signature is appended and the phase left. -/
theorem exec_frHandshake_hsSend {c : Nat} {s : State} (hi : s.issuer = .fg) (hp : s.phase = .hsSend c) (hc : c < 2)
    (hn : 2 ≤ s.cfg.txqN) (hw : RingWf s.cfg.txqN s.txq) :
    (txqFree s < 8 → exec .frHandshake s = .next { s with result := some .pending }) ∧
    (8 ≤ txqFree s → ∃ q, Appended s.cfg.txqN s.txq (le8 s.cfg.signature) q ∧
      exec .frHandshake s = .next { s with
        txq := q
        txState := .buffering
        udrie := if s.txState = .idle then true else s.udrie
        phase := if c = 0 then .hsSend 1 else .hsRecv
        hsWin := if c = 0 then s.hsWin else []
        result := some .pending }) := by
  have hstep : sequencerStep s = hsSendStep c s := by simp only [sequencerStep, hp]
  have hphase : inHandshake s.phase = true := by rw [hp]; rfl
  rcases hsSendStep_spec c hn hw with ⟨hfull, e⟩ | ⟨hroom, q, ha, e⟩
  · exact ⟨fun _ => exec_frHandshake_waits hi hphase (hstep.trans e), fun h => by omega⟩
  · refine ⟨fun h => by omega, fun _ => ⟨q, ha, ?_⟩⟩
    rw [exec_frHandshake_phase hi hphase, hstep, e]
    obtain rfl | rfl : c = 0 ∨ c = 1 := by omega
    · rfl
    · rfl

/-- The receive attempt of the sliding reading (R256). -/
theorem exec_frHandshake_sliding {s : State} (hi : s.issuer = .fg) (hp : s.phase = .hsRecv)
    (hm : s.cfg.handshakeMatch = .sliding) (hw : RingWf s.cfg.rxqN s.rxq) :
    (contents s.cfg.rxqN s.rxq = [] → exec .frHandshake s = .next { s with result := some .pending }) ∧
    (∀ b l, contents s.cfg.rxqN s.rxq = b :: l → ∃ q, Removed s.cfg.rxqN s.rxq [b] q ∧
      exec .frHandshake s = .next { s with
        rxq := q
        hsWin := slideWindow s.hsWin b
        phase := if slideWindow s.hsWin b = le8 s.cfg.signature then .srvRead else .hsRecv
        result := some (if slideWindow s.hsWin b = le8 s.cfg.signature then .ok else .pending) }) := by
  have hstep : sequencerStep s = hsRecvSliding s := by simp only [sequencerStep, hp, hsRecvStep, hm]
  have hphase : inHandshake s.phase = true := by rw [hp]; rfl
  rcases hsRecvSliding_spec hw with ⟨hnil, e⟩ | ⟨b, q, hcons, hr, e⟩
  · exact ⟨fun _ => exec_frHandshake_waits hi hphase (hstep.trans e), fun b l h => by simp [hnil] at h⟩
  · refine ⟨fun h => by simp [hcons] at h, fun b' l h => ?_⟩
    obtain ⟨rfl, -⟩ := List.cons.inj (hcons.symm.trans h)
    refine ⟨q, hr, ?_⟩
    rw [exec_frHandshake_phase hi hphase, hstep, e]
    by_cases hsig : slideWindow s.hsWin b = le8 s.cfg.signature <;>
      simp [endWith, signatureBytes, inHandshake, hsig, hp]

/-- The receive attempt of the chunked reading (R257). -/
theorem exec_frHandshake_chunked {s : State} (hi : s.issuer = .fg) (hp : s.phase = .hsRecv)
    (hm : s.cfg.handshakeMatch = .chunked8) (hw : RingWf s.cfg.rxqN s.rxq) :
    (ringSize s.cfg.rxqN s.rxq < 8 → exec .frHandshake s = .next { s with result := some .pending }) ∧
    (8 ≤ ringSize s.cfg.rxqN s.rxq → ∃ w q, w.length = 8 ∧ Removed s.cfg.rxqN s.rxq w q ∧
      exec .frHandshake s = .next { s with
        rxq := q
        phase := if w = le8 s.cfg.signature then .srvRead else .hsRecv
        result := some (if w = le8 s.cfg.signature then .ok else .pending) }) := by
  have hstep : sequencerStep s = hsRecvChunked s := by simp only [sequencerStep, hp, hsRecvStep, hm]
  have hphase : inHandshake s.phase = true := by rw [hp]; rfl
  rw [← contents_length hw]
  rcases hsRecvChunked_spec hw with ⟨hfew, e⟩ | ⟨henough, q, hr, e⟩
  · exact ⟨fun _ => exec_frHandshake_waits hi hphase (hstep.trans e), fun h => by omega⟩
  · refine ⟨fun h => by omega, fun _ => ⟨_, q, List.length_take_of_le henough, hr, ?_⟩⟩
    rw [exec_frHandshake_phase hi hphase, hstep, e]
    by_cases hsig : (contents s.cfg.rxqN s.rxq).take 8 = le8 s.cfg.signature <;>
      simp [endWith, signatureBytes, inHandshake, hsig, hp]

/-! ## The sliding window holds the last eight bytes received (R256) -/

/-- A window that holds the last eight of the bytes received so far does so after one more. -/
theorem slideWindow_rtake (received : List Byte) (b : Byte) :
    slideWindow (received.rtake 8) b = (received ++ [b]).rtake 8 := by
  unfold slideWindow sigLen List.rtake
  rw [List.drop_append_of_le_length, List.drop_append_of_le_length, List.drop_drop]
  · simp only [List.length_drop, List.length_append, List.length_singleton]
    congr 2
    omega
  · simp
  · simp

theorem rtake_append_le8 (received : List Byte) (v : BitVec 64) : (received ++ le8 v).rtake 8 = le8 v := by
  have hl := le8_length v
  rw [List.rtake, List.length_append, hl, Nat.add_sub_cancel, List.drop_left]

/-- With the last eight received bytes in the window, and the signature the last eight once `coming` has come, the
handshake ends by the last byte of `coming`, one byte an attempt. -/
theorem sliding_ends {coming received rest : List Byte} {s : State} (hi : s.issuer = .fg) (hp : s.phase = .hsRecv)
    (hm : s.cfg.handshakeMatch = .sliding) (hw : RingWf s.cfg.rxqN s.rxq) (hwin : s.hsWin = received.rtake 8)
    (hc : contents s.cfg.rxqN s.rxq = coming ++ rest) (hne : coming ≠ [])
    (hsig : (received ++ coming).rtake 8 = le8 s.cfg.signature) :
    ∃ k t, k ≤ coming.length ∧ execTimes .frHandshake k s = some t ∧ t.phase = .srvRead ∧
      t.result = some .ok ∧ contents t.cfg.rxqN t.rxq = (contents s.cfg.rxqN s.rxq).drop k := by
  induction coming generalizing received s with
  | nil => exact absurd rfl hne
  | cons b coming ih =>
    obtain ⟨q, hr, hexec⟩ := (exec_frHandshake_sliding hi hp hm hw).2 b (coming ++ rest) hc
    rw [hwin, slideWindow_rtake] at hexec
    have hq : contents s.cfg.rxqN q = (contents s.cfg.rxqN s.rxq).drop 1 := removed_contents hr
    by_cases hmatch : (received ++ [b]).rtake 8 = le8 s.cfg.signature
    · rw [if_pos hmatch, if_pos hmatch] at hexec
      exact ⟨1, _, by simp, by simp only [execTimes, hexec]; rfl, rfl, rfl, hq⟩
    · rw [if_neg hmatch, if_neg hmatch] at hexec
      have hmore : coming ≠ [] := by
        rintro rfl
        exact hmatch hsig
      have hq' : contents s.cfg.rxqN q = coming ++ rest := by rw [hq, hc]; rfl
      obtain ⟨k, t, hk, hrun, hphase, hres, hleft⟩ :=
        ih (received := received ++ [b])
          (s := { s with rxq := q, hsWin := (received ++ [b]).rtake 8, phase := .hsRecv, result := some .pending })
          hi rfl hm hr.1 rfl hq' hmore (by rw [List.append_assoc]; exact hsig)
      refine ⟨k + 1, t, by simpa using hk, by simp only [execTimes, hexec]; exact hrun, hphase, hres, ?_⟩
      rw [hleft, hc]
      show (contents s.cfg.rxqN q).drop k = _
      rw [hq']
      rfl

/-! ## FR.SERVE_ONE (R250, R260, R261; logs 12 and 16) -/

/-- FR.SERVE_ONE issued in a phase of the handshake starts at SRV_READ. -/
theorem exec_frServeOne_start {s : State} (hi : s.issuer = .fg) (h : inHandshake s.phase = true) :
    exec .frServeOne s = exec .frServeOne (setPhase .srvRead s) := by
  simp only [exec, execFrServeOne]
  rw [issue_allowed (by simp [hi]), issue_allowed (by simp [hi])]
  simp only [serveOp, h, if_true]
  rfl

/-- Outside the phases of the handshake and SRV_READ the operation ends when its step returns to SRV_READ. -/
theorem exec_frServeOne_serving {s u : State} (hi : s.issuer = .fg) (h : inHandshake s.phase = false)
    (hp : s.phase ≠ .srvRead) (hu : sequencerStep s = u) :
    exec .frServeOne s = .next (endWith (if u.phase = .srvRead then .ok else .pending) u) := by
  rw [exec_frServeOne_phase hi h, hu]
  simp only [hp, ne_eq, not_false_eq_true, and_true]

/-- A serve phase whose condition does not hold stays as it is (R250). -/
theorem exec_frServeOne_waits {s : State} (hi : s.issuer = .fg) (h : inHandshake s.phase = false)
    (hwait : sequencerStep s = s) : exec .frServeOne s = .next { s with result := some .pending } := by
  rw [exec_frServeOne_phase hi h, hwait, if_neg (fun hleft => hleft.2 hleft.1)]
  rfl

/-- SRV_READ (R250, R196). -/
theorem exec_frServeOne_srvRead {s : State} (hi : s.issuer = .fg) (hp : s.phase = .srvRead)
    (hw : RingWf s.cfg.rxqN s.rxq) :
    (ringSize s.cfg.rxqN s.rxq < 16 → exec .frServeOne s = .next { s with result := some .pending }) ∧
    (16 ≤ ringSize s.cfg.rxqN s.rxq → ∃ p q, p.length = 16 ∧ Removed s.cfg.rxqN s.rxq p q ∧
      exec .frServeOne s =
        .next { s with rxq := q, req := p, phase := .srvDispatch, result := some .pending }) := by
  have hstep : sequencerStep s = srvReadStep s := by simp only [sequencerStep, hp]
  have hphase : inHandshake s.phase = false := by rw [hp]; rfl
  rw [← contents_length hw]
  rcases srvReadStep_spec hw with ⟨hfew, e⟩ | ⟨henough, q, hr, e⟩
  · exact ⟨fun _ => exec_frServeOne_waits hi hphase (hstep.trans e), fun h => by omega⟩
  · refine ⟨fun h => by omega, fun _ => ⟨_, q, List.length_take_of_le henough, hr, ?_⟩⟩
    rw [exec_frServeOne_phase hi hphase, hstep, e]
    rfl

/-- SRV_SEND (R250, R192). -/
theorem exec_frServeOne_srvSend {s : State} (hi : s.issuer = .fg) (hp : s.phase = .srvSend) (hn : 2 ≤ s.cfg.txqN)
    (hw : RingWf s.cfg.txqN s.txq) :
    (txqFree s < s.out.length → exec .frServeOne s = .next { s with result := some .pending }) ∧
    (s.out.length ≤ txqFree s → ∃ q, Appended s.cfg.txqN s.txq s.out q ∧
      exec .frServeOne s = .next { s with
        txq := q
        txState := if s.out = [] then s.txState else .buffering
        udrie := if s.out ≠ [] ∧ s.txState = .idle then true else s.udrie
        phase := .srvRead
        result := some .ok }) := by
  have hstep : sequencerStep s = srvSendStep s := by simp only [sequencerStep, hp]
  have hphase : inHandshake s.phase = false := by rw [hp]; rfl
  rcases srvSendStep_spec hn hw with ⟨hfull, e⟩ | ⟨hroom, q, ha, e⟩
  · exact ⟨fun _ => exec_frServeOne_waits hi hphase (hstep.trans e), fun h => by omega⟩
  · refine ⟨fun h => by omega, fun _ => ⟨q, ha, ?_⟩⟩
    rw [exec_frServeOne_serving hi hphase (by rw [hp]; decide) (hstep.trans e)]
    rfl

/-- SRV_DISPATCH (R261, R265). -/
theorem exec_frServeOne_srvDispatch {s : State} (hi : s.issuer = .fg) (hp : s.phase = .srvDispatch) :
    exec .frServeOne s =
      .next (endWith (if (srvDispatchStep s).phase = .srvRead then .ok else .pending) (srvDispatchStep s)) :=
  exec_frServeOne_serving hi (by rw [hp]; rfl) (by rw [hp]; decide) (by simp only [sequencerStep, hp])

/-- A malformed request raises its fault and leaves the packet in S.req (R265). -/
theorem exec_frServeOne_malformed {s : State} {c : FaultCode} (hi : s.issuer = .fg) (hp : s.phase = .srvDispatch)
    (hd : decodeRequest s.req = .error c) :
    exec .frServeOne s = .next { s with fault := some c, result := some .pending } := by
  have hstep : srvDispatchStep s = raise c s := by rw [srvDispatchStep, hd]
  rw [exec_frServeOne_srvDispatch hi hp, hstep, raise_phase, if_neg (by rw [hp]; decide)]
  rfl

/-! ## The tests of a request, in their order (R262, R364) -/

theorem decodeRequest_tag {p : List Byte} (h : 2 < (byteAt p 0).toNat) : decodeRequest p = .error .panicReqTag := by
  have h0 : byteAt p 0 ≠ tagFunctionPoints := fun e => by rw [e] at h; exact absurd h (by decide)
  have h1 : byteAt p 0 ≠ tagInitialApproximations := fun e => by rw [e] at h; exact absurd h (by decide)
  have h2 : byteAt p 0 ≠ tagComputeRoot := fun e => by rw [e] at h; exact absurd h (by decide)
  simp only [decodeRequest, h0, h1, h2, if_false]

theorem decodeRequest_selection {p : List Byte} (h0 : (byteAt p 0).toNat = 0) (h : 1 < (byteAt p 1).toNat) :
    decodeRequest p = .error .panicSelection := by
  have htag : byteAt p 0 = tagFunctionPoints := BitVec.eq_of_toNat_eq h0
  have hsel : decodeSelection p = .error .panicSelection := by
    unfold decodeSelection
    split
    · omega
    · omega
    · rfl
  simp only [decodeRequest, htag, if_true, hsel]

/-- A ComputeRoot request fails with its mode's fault. -/
theorem decodeRequest_mode {p : List Byte} {c : FaultCode} (h0 : (byteAt p 0).toNat = 2)
    (h : decodeMode p = .error c) : decodeRequest p = .error c := by
  have htag : byteAt p 0 = tagComputeRoot := BitVec.eq_of_toNat_eq h0
  rw [decodeRequest, htag, if_neg (by decide), if_neg (by decide), if_pos rfl, h]

theorem decodeMode_tag {p : List Byte} (h : 1 < (byteAt p 9).toNat) : decodeMode p = .error .panicMode := by
  unfold decodeMode
  split
  · omega
  · omega
  · rfl

theorem decodeMode_method {p : List Byte} (h9 : (byteAt p 9).toNat = 0) (h : 2 < (byteAt p 10).toNat) :
    decodeMode p = .error .panicMethod := by
  have hmethod : decodeMethod p = .error .panicMethod := by
    unfold decodeMethod
    split
    · omega
    · omega
    · omega
    · rfl
  simp only [decodeMode, h9, hmethod]

/-! ## The request rows (R241, R261, R266; log 14) -/

theorem exec_requestInstr (r : Request) (s : State) : exec (requestInstr r) s = .next (dispatchRequest r s) := by
  rcases r with (_ | _) | _ | ⟨_, (⟨⟨⟩, _⟩ | _)⟩ <;> rfl

/-- `a` is a port's answer: the next one fixed at launch, any value when none is left (R241; log 10). -/
abbrev NextAnswer {α : Type} (answers : List α) (a : α) : Prop := ∀ b l, answers = b :: l → a = b

theorem callApprox_spec (s : State) :
    NextAnswer s.approxAnswers (callApprox s).1 ∧
      (callApprox s).2 = { s with
        calls := s.calls ++ [.approx]
        approxAnswers := s.approxAnswers.drop 1
        draws := if s.approxAnswers = [] then s.draws + 1 else s.draws } := by
  unfold callApprox
  cases h : s.approxAnswers with
  | nil => exact ⟨fun b l e => by simp at e, by simp⟩
  | cons a rest => exact ⟨fun b l e => (List.cons.inj e).1, by simp⟩

theorem callRoot_spec (eps : F64) (mode : Mode) (s : State) :
    NextAnswer s.rootAnswers (callRoot eps mode s).1 ∧
      (callRoot eps mode s).2 = { s with
        calls := s.calls ++ [.root eps mode]
        rootAnswers := s.rootAnswers.drop 1
        draws := if s.rootAnswers = [] then s.draws + 1 else s.draws } := by
  unfold callRoot
  cases h : s.rootAnswers with
  | nil => exact ⟨fun b l e => by simp at e, by simp⟩
  | cons a rest => exact ⟨fun b l e => (List.cons.inj e).1, by simp⟩

theorem callPoints_spec (sel : Selection) (pass : Pass) (x : F64) (s : State) :
    NextAnswer s.pointAnswers (callPoints sel pass x s).1 ∧
      (callPoints sel pass x s).2 = { s with
        calls := s.calls ++ [.points sel pass x]
        pointAnswers := s.pointAnswers.drop 1
        draws := if s.pointAnswers = [] then s.draws + 1 else s.draws } := by
  unfold callPoints
  cases h : s.pointAnswers with
  | nil => exact ⟨fun b l e => by simp at e, by simp⟩
  | cons a rest => exact ⟨fun b l e => (List.cons.inj e).1, by simp⟩

theorem dispatch_approximations {s : State} (h : s.cfg.hasApprox = true) :
    ∃ a : F64 × F64, NextAnswer s.approxAnswers a ∧ dispatchRequest .initialApproximations s = { s with
      out := le8 a.1 ++ le8 a.2
      phase := .srvSend
      calls := s.calls ++ [.approx]
      approxAnswers := s.approxAnswers.drop 1
      draws := if s.approxAnswers = [] then s.draws + 1 else s.draws } := by
  obtain ⟨ha, e⟩ := callApprox_spec s
  refine ⟨(callApprox s).1, ha, ?_⟩
  simp only [dispatchRequest, h, if_true, e]
  rfl

theorem dispatch_computeRoot {s : State} (h : s.cfg.hasRoot = true) (eps : F64) (mode : Mode) :
    ∃ a : RootAnswer, NextAnswer s.rootAnswers a ∧ dispatchRequest (.computeRoot eps mode) s = { s with
      out := encodeRoot a
      phase := .srvSend
      calls := s.calls ++ [.root eps mode]
      rootAnswers := s.rootAnswers.drop 1
      draws := if s.rootAnswers = [] then s.draws + 1 else s.draws } := by
  obtain ⟨ha, e⟩ := callRoot_spec eps mode s
  refine ⟨(callRoot eps mode s).1, ha, ?_⟩
  simp only [dispatchRequest, h, if_true, e]
  rfl

theorem dispatch_functionPoints {s : State} (h : s.cfg.hasPoints = true) (sel : Selection) :
    dispatchRequest (.functionPoints sel) s = beginPoints sel s := by
  simp only [dispatchRequest, h, if_true]

/-- The handler a request needs is absent (R266). -/
def handlerAbsent (c : Config) : Request → Bool
  | .initialApproximations => !c.hasApprox
  | .computeRoot _ _ => !c.hasRoot
  | .functionPoints _ => !c.hasPoints

theorem dispatch_absent {r : Request} {s : State} (h : handlerAbsent s.cfg r = true) :
    dispatchRequest r s = { s with phase := .srvRead } := by
  cases r <;>
  · simp only [handlerAbsent, Bool.not_eq_true'] at h
    simp only [dispatchRequest, h, Bool.false_eq_true, if_false]
    rfl

theorem exec_requestInstr_absent {r : Request} {s : State} (h : handlerAbsent s.cfg r = true) :
    exec (requestInstr r) s = .next { s with phase := .srvRead } := by
  rw [exec_requestInstr, dispatch_absent h]

/-! ## Streaming the points of a selection (R264, R270, R272) -/

/-- The state in which H_POINTS has answered `p` for point `k` and the record is to be written (R264, step A). -/
def pointPrepared (p : Point) (s : State) : State :=
  { s with
    out := encodePoint p
    phase := .srvPtSend
    calls := s.calls ++ [.points s.sel s.pass (sampleX s.cfg s.k)]
    pointAnswers := s.pointAnswers.drop 1
    draws := if s.pointAnswers = [] then s.draws + 1 else s.draws
    result := some .pending }

/-- Step A: point `k` is computed at x_k and encoded (R264, R270). -/
theorem exec_frServeOne_srvPoints {s : State} (hi : s.issuer = .fg) (hp : s.phase = .srvPoints) :
    ∃ p : Point, NextAnswer s.pointAnswers p ∧ exec .frServeOne s = .next (pointPrepared p s) := by
  have hstep : sequencerStep s = srvPointsStep s := by simp only [sequencerStep, hp]
  obtain ⟨ha, e⟩ := callPoints_spec s.sel s.pass (sampleX s.cfg s.k) s
  refine ⟨_, ha, ?_⟩
  rw [exec_frServeOne_serving hi (by rw [hp]; rfl) (by rw [hp]; decide) hstep]
  simp only [srvPointsStep, e]
  rfl

/-- Step B: the prepared point is written when it fits, and the sequencer goes on to the next point, to the second pass
of a system, or back to SRV_READ (R264). -/
theorem exec_frServeOne_srvPtSend {s : State} (hi : s.issuer = .fg) (hp : s.phase = .srvPtSend)
    (hn : 2 ≤ s.cfg.txqN) (hw : RingWf s.cfg.txqN s.txq) (ho : s.out ≠ []) :
    (txqFree s < s.out.length → exec .frServeOne s = .next { s with result := some .pending }) ∧
    (s.out.length ≤ txqFree s →
      let again := s.pass = .first ∧ isSystem s.sel = true
      ∃ q, Appended s.cfg.txqN s.txq s.out q ∧
        exec .frServeOne s = .next { s with
          txq := q
          txState := .buffering
          udrie := if s.txState = .idle then true else s.udrie
          k := if s.k < 255 then s.k + 1 else if again then 0 else s.k
          pass := if s.k < 255 then s.pass else if again then .second else s.pass
          phase := if s.k < 255 ∨ again then .srvPoints else .srvRead
          result := some (if s.k < 255 ∨ again then .pending else .ok) }) := by
  have hstep : sequencerStep s = srvPtSendStep s := by simp only [sequencerStep, hp]
  have hphase : inHandshake s.phase = false := by rw [hp]; rfl
  rcases srvPtSendStep_spec hn hw ho with ⟨hfull, e⟩ | ⟨hroom, q, ha, e⟩
  · exact ⟨fun _ => exec_frServeOne_waits hi hphase (hstep.trans e), fun h => by omega⟩
  · refine ⟨fun h => by omega, fun _ => ⟨q, ha, ?_⟩⟩
    rw [exec_frServeOne_serving hi hphase (by rw [hp]; decide) (hstep.trans e)]
    by_cases hmore : s.k < 255 ∨ (s.pass = .first ∧ isSystem s.sel = true) <;> simp [endWith, hmore]

/-- `ps` are the answers to as many calls: those fixed at launch while they last, and then any values; `left` are the
fixed answers not used (R241; log 10). -/
abbrev AnswersUsed (answers ps left : List Point) : Prop :=
  ps.take answers.length = answers.take ps.length ∧ left = answers.drop ps.length

theorem answersUsed_one {answers : List Point} {p : Point} (h : NextAnswer answers p) :
    AnswersUsed answers [p] (answers.drop 1) := by
  refine ⟨?_, rfl⟩
  cases answers with
  | nil => rfl
  | cons b l => simp [h b l rfl]

theorem answersUsed_append {answers ps left ps' left' : List Point} (h : AnswersUsed answers ps left)
    (h' : AnswersUsed left ps' left') : AnswersUsed answers (ps ++ ps') left' := by
  obtain ⟨htake, rfl⟩ := h
  obtain ⟨htake', rfl⟩ := h'
  rw [List.length_drop] at htake'
  refine ⟨?_, by rw [List.drop_drop, List.length_append]⟩
  rw [List.take_append, htake, htake', List.length_append, List.take_add]

/-- What serving points does, wherever the sequencer then stands: H_POINTS is called by `calls`, and the records of its
answers `ps` are in TXQ in that order. -/
structure PointsServed (calls : List HandlerCall) (ps : List Point) (s t : State) : Prop where
  cfg : t.cfg = s.cfg
  sel : t.sel = s.sel
  issuer : t.issuer = s.issuer
  appended : Appended s.cfg.txqN s.txq (ps.flatMap encodePoint) t.txq
  answers : AnswersUsed s.pointAnswers ps t.pointAnswers
  calls : t.calls = s.calls ++ calls

theorem pointsServed_append {calls calls' : List HandlerCall} {ps ps' : List Point} {s t u : State}
    (h : PointsServed calls ps s t) (h' : PointsServed calls' ps' t u) :
    PointsServed (calls ++ calls') (ps ++ ps') s u where
  cfg := h'.cfg.trans h.cfg
  sel := h'.sel.trans h.sel
  issuer := h'.issuer.trans h.issuer
  appended := by
    have ha' := h'.appended
    rw [h.cfg] at ha'
    rw [List.flatMap_append]
    exact appended_trans h.appended ha'
  answers := answersUsed_append h.answers h'.answers
  calls := by rw [h'.calls, h.calls, List.append_assoc]

/-- TXQ stays well formed, and each point takes 16 bytes of its room. -/
theorem pointsServed_room {calls : List HandlerCall} {ps : List Point} {s t : State} (h : PointsServed calls ps s t)
    (hw : RingWf s.cfg.txqN s.txq) :
    RingWf t.cfg.txqN t.txq ∧ txqFree t = txqFree s - 16 * ps.length := by
  refine ⟨by rw [h.cfg]; exact h.appended.1, ?_⟩
  rw [txqFree_appended h.cfg hw h.appended, points_length]

/-- Where the sequencer stands after the last point of a pass (R264). -/
def PassEnded (sel : Selection) (pass : Pass) (t : State) : Prop :=
  if pass = .first ∧ isSystem sel = true then t.phase = .srvPoints ∧ t.pass = .second ∧ t.k = 0
  else t.phase = .srvRead ∧ t.result = some .ok

theorem execTimes_two {i : Instr} {s t u : State} (hst : exec i s = .next t) (htu : exec i t = .next u) :
    execTimes i 2 s = some u := by
  simp only [execTimes, hst, htu]

theorem execTimes_add {i : Instr} {m : Nat} {s t : State} (h : execTimes i m s = some t) (n : Nat) :
    execTimes i (m + n) s = execTimes i n t := by
  induction m generalizing s with
  | zero =>
    rw [Nat.zero_add, Option.some.inj h]
  | succ m ih =>
    rw [Nat.succ_add]
    simp only [execTimes] at h ⊢
    cases hexec : exec i s with
    | next u =>
      simp only [hexec] at h
      exact ih h
    | fault f => simp [hexec] at h
    | refused r => simp [hexec] at h

/-- The two executions that serve point `k`, steps A and B (R264). -/
theorem serve_point {s : State} (hi : s.issuer = .fg) (hp : s.phase = .srvPoints) (hw : RingWf s.cfg.txqN s.txq)
    (hroom : 16 ≤ txqFree s) :
    ∃ p t, execTimes .frServeOne 2 s = some t ∧
      PointsServed [.points s.sel s.pass (sampleX s.cfg s.k)] [p] s t ∧
      (s.k < 255 → t.phase = .srvPoints ∧ t.pass = s.pass ∧ t.k = s.k + 1) ∧
      (s.k = 255 → PassEnded s.sel s.pass t) := by
  have hn : 2 ≤ s.cfg.txqN := by
    unfold txqFree at hroom
    omega
  obtain ⟨p, hanswer, hA⟩ := exec_frServeOne_srvPoints hi hp
  have hlen := encodePoint_length p
  have hne : encodePoint p ≠ [] := fun h => by simp [h] at hlen
  obtain ⟨q, ha, hB⟩ :=
    (exec_frServeOne_srvPtSend (s := pointPrepared p s) hi rfl hn hw hne).2 (hlen.trans_le hroom)
  refine ⟨p, _, execTimes_two hA hB, ⟨rfl, rfl, rfl, ?_, answersUsed_one hanswer, rfl⟩, ?_, ?_⟩
  · rw [List.flatMap_singleton]
    exact ha
  · intro hk
    simp [pointPrepared, hk]
  · intro hk
    unfold PassEnded
    split
    · next hagain => simp [pointPrepared, hk, hagain]
    · next hagain => simp [pointPrepared, hk, hagain]

/-- The calls of `n` points of a pass from point `m` on (R264, R270). -/
def passCalls (s : State) (pass : Pass) (m n : Nat) : List HandlerCall :=
  (List.range' m n).map (fun k => .points s.sel pass (sampleX s.cfg k))

theorem passCalls_succ (s : State) (pass : Pass) (m n : Nat) :
    passCalls s pass m (n + 1) = .points s.sel pass (sampleX s.cfg m) :: passCalls s pass (m + 1) n := by
  simp only [passCalls, List.range'_succ, List.map_cons]

theorem passCalls_congr {s t : State} (hc : t.cfg = s.cfg) (hs : t.sel = s.sel) (pass : Pass) (m n : Nat) :
    passCalls t pass m n = passCalls s pass m n := by
  simp only [passCalls, hc, hs]

/-- From point `k` on, the two executions for each of the `n + 1` points left of the pass serve them in order. -/
theorem serve_pass (n : Nat) {s : State} (hi : s.issuer = .fg) (hp : s.phase = .srvPoints) (hk : s.k + n = 255)
    (hw : RingWf s.cfg.txqN s.txq) (hroom : 16 * (n + 1) ≤ txqFree s) :
    ∃ ps t, execTimes .frServeOne (2 * (n + 1)) s = some t ∧ ps.length = n + 1 ∧
      PointsServed (passCalls s s.pass s.k (n + 1)) ps s t ∧ PassEnded s.sel s.pass t := by
  obtain ⟨p, t, hrun, hserved, hgo, hend⟩ := serve_point hi hp hw (by omega)
  rw [passCalls_succ]
  cases n with
  | zero => exact ⟨[p], t, hrun, rfl, hserved, hend hk⟩
  | succ n =>
    obtain ⟨hp', hpass, hk'⟩ := hgo (by omega)
    obtain ⟨hw', hfree⟩ := pointsServed_room hserved hw
    rw [List.length_singleton] at hfree
    obtain ⟨ps, u, hrun', hlen, hserved', hend'⟩ :=
      serve_pass n (hserved.issuer.trans hi) hp' (by omega) hw' (by omega)
    rw [passCalls_congr hserved.cfg hserved.sel, hpass, hk'] at hserved'
    rw [hserved.sel, hpass] at hend'
    refine ⟨p :: ps, u, ?_, by rw [List.length_cons, hlen], pointsServed_append hserved hserved', hend'⟩
    rw [show 2 * (n + 1 + 1) = 2 + 2 * (n + 1) by omega, execTimes_add hrun, hrun']

/-- A pass from its first point on. -/
theorem serve_whole_pass {s : State} (hi : s.issuer = .fg) (hp : s.phase = .srvPoints) (hk : s.k = 0)
    (hw : RingWf s.cfg.txqN s.txq) (hroom : 4096 ≤ txqFree s) :
    ∃ ps t, execTimes .frServeOne 512 s = some t ∧ ps.length = 256 ∧
      PointsServed (passCalls s s.pass 0 256) ps s t ∧ PassEnded s.sel s.pass t := by
  have h := serve_pass 255 hi hp (by omega) hw (by omega)
  rw [hk] at h
  exact h

/-- Every point of a selection: one pass of a single equation, two of a system. -/
theorem serve_selection {s : State} (hi : s.issuer = .fg) (hp : s.phase = .srvPoints) (hfirst : s.pass = .first)
    (hk : s.k = 0) (hw : RingWf s.cfg.txqN s.txq)
    (hroom : 16 * (if isSystem s.sel = true then 512 else 256) ≤ txqFree s) :
    ∃ ps t, execTimes .frServeOne (2 * (if isSystem s.sel = true then 512 else 256)) s = some t ∧
      ps.length = (if isSystem s.sel = true then 512 else 256) ∧
      PointsServed (passCalls s .first 0 256 ++ if isSystem s.sel = true then passCalls s .second 0 256 else [])
        ps s t ∧ t.phase = .srvRead ∧ t.result = some .ok := by
  have hroom' : 4096 ≤ txqFree s := by
    split at hroom <;> omega
  obtain ⟨ps, t, hrun, hlen, hserved, hend⟩ := serve_whole_pass hi hp hk hw hroom'
  rw [hfirst] at hserved hend
  by_cases hsys : isSystem s.sel = true
  · simp only [hsys, if_true] at hroom ⊢
    rw [PassEnded, if_pos ⟨rfl, hsys⟩] at hend
    obtain ⟨hp2, hsecond, hk2⟩ := hend
    obtain ⟨hw2, hfree⟩ := pointsServed_room hserved hw
    obtain ⟨ps2, u, hrun2, hlen2, hserved2, hend2⟩ :=
      serve_whole_pass (hserved.issuer.trans hi) hp2 hk2 hw2 (by omega)
    rw [passCalls_congr hserved.cfg hserved.sel, hsecond] at hserved2
    rw [PassEnded, hsecond, if_neg (fun h => by cases h.1)] at hend2
    exact ⟨ps ++ ps2, u, (execTimes_add hrun 512).trans hrun2, by rw [List.length_append, hlen, hlen2],
      pointsServed_append hserved hserved2, hend2⟩
  · simp only [hsys, if_false, Bool.false_eq_true, List.append_nil]
    rw [PassEnded, if_neg (fun h => hsys h.2)] at hend
    exact ⟨ps, t, hrun, hlen, hserved, hend⟩

/-- Step B of a long-packet row (R264; log 14). -/
theorem streamStep_waiting {p : Pass} {ps : List Point} {s : State} (hp : s.phase = .srvPtSend) (hpass : s.pass = p)
    (hn : 2 ≤ s.cfg.txqN) (hw : RingWf s.cfg.txqN s.txq) (ho : s.out ≠ []) :
    (txqFree s < s.out.length → streamStep p ps s = { s with result := some .pending }) ∧
    (s.out.length ≤ txqFree s →
      let again := p = .first ∧ isSystem s.sel = true
      ∃ q, Appended s.cfg.txqN s.txq s.out q ∧
        streamStep p ps s = { s with
          txq := q
          txState := .buffering
          udrie := if s.txState = .idle then true else s.udrie
          k := if s.k < 255 then s.k + 1 else if again then 0 else s.k
          pass := if s.k < 255 then p else if again then .second else p
          phase := if s.k < 255 ∨ again then .srvPoints else .srvRead
          result := some (if s.k < 255 then .pending else .ok) }) := by
  subst hpass
  have hwaits : recordWaits s.pass s = true := by simp [recordWaits, hp]
  simp only [streamStep, hwaits, if_true]
  rcases srvPtSendStep_spec hn hw ho with ⟨hfull, e⟩ | ⟨hroom, q, ha, e⟩
  · exact ⟨fun _ => by rw [e, if_pos (.inr hp)]; rfl, fun h => by omega⟩
  · refine ⟨fun h => by omega, fun _ => ⟨q, ha, ?_⟩⟩
    rw [e]
    by_cases hk : s.k < 255
    · simp [endWith, pointsPerPass, hk]
    · by_cases hagain : s.pass = .first ∧ isSystem s.sel = true <;> simp [endWith, pointsPerPass, hk, hagain]

/-! ## Statements -/

/-- Settles O34: `setPhase` names the send phase the attempt is made in. -/
theorem handshakeSendsTheSignature : Obligations.HandshakeSendsTheSignature := by
  unfold Obligations.HandshakeSendsTheSignature
  refine ⟨fun _ => rfl, fun c s hi hn hw h => ?_⟩
  obtain ⟨hc, e⟩ := exec_frHandshake_send hi h
  rw [e]
  exact exec_frHandshake_hsSend (s := setPhase (.hsSend c) s) hi rfl hc hn hw

/-- Settles O35: the attempts of the two readings. -/
theorem handshakeReceiveAttempt : Obligations.HandshakeReceiveAttempt := by
  unfold Obligations.HandshakeReceiveAttempt
  refine fun s hi hp hw => ⟨fun hm => ?_, fun hm => exec_frHandshake_chunked hi hp hm hw⟩
  obtain ⟨hempty, htaken⟩ := exec_frHandshake_sliding hi hp hm hw
  refine ⟨hempty, fun b l hcons => ?_⟩
  rw [← slideWindow_eq]
  exact htaken b l hcons

/-- Settles O36: with nothing received yet, by `sliding_ends` for the bytes up to the signature's last. -/
theorem slidingHandshakeToleratesSpuriousBytes : Obligations.SlidingHandshakeToleratesSpuriousBytes := by
  unfold Obligations.SlidingHandshakeToleratesSpuriousBytes
  intro junk rest s hi hp hwin hm hw hc
  have hl := le8_length s.cfg.signature
  have hne : junk ++ le8 s.cfg.signature ≠ [] := fun h => by simp [(List.append_eq_nil_iff.1 h).2] at hl
  obtain ⟨k, t, hk, hrun⟩ :=
    sliding_ends (received := []) hi hp hm hw hwin hc hne (by rw [List.nil_append, rtake_append_le8])
  rw [List.length_append, hl] at hk
  exact ⟨k, t, hk, hrun⟩

/-- Settles O37: SRV_READ, entered from the handshake too, and SRV_SEND. -/
theorem serveReadsAndSends : Obligations.ServeReadsAndSends := by
  unfold Obligations.ServeReadsAndSends
  refine ⟨fun _ => rfl, fun s hi => ⟨fun hp hw => ?_, fun hp hn hw => exec_frServeOne_srvSend hi hp hn hw⟩⟩
  have e : exec .frServeOne s = exec .frServeOne (setPhase .srvRead s) := by
    rcases hp with hp | hp
    · rw [setPhase_self hp]
    · exact exec_frServeOne_start hi hp
  rw [e]
  exact exec_frServeOne_srvRead (s := setPhase .srvRead s) hi rfl hw

/-- Settles O38: SRV_DISPATCH and the request's row run the same dispatch. -/
theorem serveDispatchesTheRequest : Obligations.ServeDispatchesTheRequest := by
  unfold Obligations.ServeDispatchesTheRequest
  intro r s hi hp hd
  have hstep : srvDispatchStep s = dispatchRequest r s := by rw [srvDispatchStep, hd]
  refine ⟨dispatchRequest r s, exec_requestInstr r s, ?_⟩
  rw [exec_frServeOne_srvDispatch hi hp, hstep]
  rfl

/-- Settles O39: each test that fails first gives the decoder's error, and a faulted block has no step. -/
theorem malformedRequestHaltsTheBlock : Obligations.MalformedRequestHaltsTheBlock := by
  unfold Obligations.MalformedRequestHaltsTheBlock
  intro s hi hp faulted
  have hfault : ∀ {c}, decodeRequest s.req = .error c → exec .frServeOne s = .next (faulted c) :=
    fun hd => exec_frServeOne_malformed hi hp hd
  refine ⟨fun h => hfault (decodeRequest_tag h), fun h0 h => hfault (decodeRequest_selection h0 h),
    fun h0 h => hfault (decodeRequest_mode h0 (decodeMode_tag h)),
    fun h0 h9 h => hfault (decodeRequest_mode h0 (decodeMode_method h9 h)), fun c hc => ?_⟩
  have hlegal : configLegal (faulted c).cfg = true := hc
  simp only [step, hlegal, if_true, faulted]

/-- Settles O41: the dispatch of each kind of request whose handler is present. -/
theorem requestRowsCallTheirHandlers : Obligations.RequestRowsCallTheirHandlers := by
  unfold Obligations.RequestRowsCallTheirHandlers
  refine fun s => ⟨fun h => ?_, fun h eps i mode e hrow => ?_, fun h index => ?_⟩
  · obtain ⟨a, hanswer, hdispatch⟩ := dispatch_approximations h
    exact ⟨a, hanswer, (exec_requestInstr .initialApproximations s).trans (by rw [hdispatch])⟩
  · have hi : i = requestInstr (.computeRoot eps mode) := by
      simp only [List.mem_cons, List.not_mem_nil, or_false, Prod.mk.injEq] at hrow
      rcases hrow with ⟨rfl, rfl⟩ | ⟨rfl, rfl⟩ | ⟨rfl, rfl⟩ | ⟨rfl, rfl⟩ <;> rfl
    obtain ⟨a, hanswer, hdispatch⟩ := dispatch_computeRoot h eps mode
    exact ⟨a, hanswer, by rw [hi, exec_requestInstr, hdispatch]⟩
  · exact ⟨(exec_requestInstr (.functionPoints (.single index)) s).trans (by rw [dispatch_functionPoints h]; rfl),
      (exec_requestInstr (.functionPoints (.system index)) s).trans (by rw [dispatch_functionPoints h]; rfl)⟩

/-- Settles O44: steps A and B. -/
theorem streamingStepsAAndB : Obligations.StreamingStepsAAndB := by
  unfold Obligations.StreamingStepsAAndB
  exact fun s hi => ⟨fun hp => exec_frServeOne_srvPoints hi hp,
    fun hp hn hw ho => exec_frServeOne_srvPtSend hi hp hn hw ho⟩

/-- Settles O45: step A while no record of the pass waits, step B while one does. -/
theorem longPacketRowsStream : Obligations.LongPacketRowsStream := by
  unfold Obligations.LongPacketRowsStream
  intro i p ps s hrow _
  have hexec : exec i s = .next (streamStep p ps s) := by
    simp only [List.mem_cons, List.not_mem_nil, or_false, Prod.mk.injEq] at hrow
    rcases hrow with ⟨rfl, rfl⟩ | ⟨rfl, rfl⟩ <;> rfl
  rw [hexec]
  refine ⟨fun hnot => ?_, fun hp hpass hn hw ho => ?_⟩
  · intro k r hr
    have hat : AtRecord p k s := ⟨by simpa [recordWaits] using hnot, rfl⟩
    rw [streamStep_prepares hat hr]
    rfl
  · obtain ⟨hfull, hroom⟩ := streamStep_waiting (ps := ps) hp hpass hn hw ho
    refine ⟨fun h => by rw [hfull h], fun h => ?_⟩
    obtain ⟨q, ha, e⟩ := hroom h
    exact ⟨q, ha, by rw [e]⟩

/-- Settles O47: both passes of a system, or the one of a single equation, by `serve_selection`. -/
theorem servedPointsAreStreamedInOrder : Obligations.ServedPointsAreStreamedInOrder := by
  unfold Obligations.ServedPointsAreStreamedInOrder
  intro s hi hp hfirst hk hw total hroom
  obtain ⟨ps, t, hrun, hlen, hserved, hphase, hres⟩ := serve_selection hi hp hfirst hk hw hroom
  obtain ⟨htake, hleft⟩ := hserved.answers
  rw [hlen] at htake hleft
  obtain ⟨-, -, -, hcontents, -⟩ := hserved.appended
  refine ⟨ps, t, hrun, hlen, htake, hleft, hphase, hres, ?_, ?_⟩
  · rw [hserved.cfg, hcontents]
    rfl
  · rw [hserved.calls, List.range_eq_range', List.append_assoc]
    rfl

/-- Settles O42: the dispatch of a request whose handler is absent. -/
theorem absentHandlerIsSilent : Obligations.AbsentHandlerIsSilent := by
  unfold Obligations.AbsentHandlerIsSilent
  intro s
  have hsilent : ∀ r, handlerAbsent s.cfg r = true → exec (requestInstr r) s = .next { s with phase := .srvRead } :=
    fun _ => exec_requestInstr_absent
  refine ⟨fun h => hsilent .initialApproximations (by simp [handlerAbsent, h]), fun h eps e => ?_, fun h index => ?_⟩
  · have hroot : ∀ mode, handlerAbsent s.cfg (.computeRoot eps mode) = true := fun _ => by simp [handlerAbsent, h]
    exact ⟨hsilent _ (hroot (.single .chord e)), hsilent _ (hroot (.single .secant e)),
      hsilent _ (hroot (.single .simpleIterationSingle e)), hsilent _ (hroot (.system e))⟩
  · have hpoints : ∀ sel, handlerAbsent s.cfg (.functionPoints sel) = true := fun _ => by simp [handlerAbsent, h]
    exact ⟨hsilent _ (hpoints (.single index)), hsilent _ (hpoints (.system index))⟩

end Sys2Proof.Laws
end

section
/-! Support for the statement about the sample arithmetic (R10, R270): rounding to nearest, ties to even, is shown once
for `f64Round`, also where its mantissa only stands for the exact value (the sticky bit of a quotient), and each
operation on finite values is one such rounding of its exact result. -/

namespace Sys2Proof.Laws

open Sys2Proof.Machine Sys2Proof.Safety

/-! ## Rounding a shifted mantissa -/

theorem roundShift_eq (m n : Nat) :
    roundShift m n =
      if 2 ^ n < 2 * (m % 2 ^ n) ∨ (2 * (m % 2 ^ n) = 2 ^ n ∧ m / 2 ^ n % 2 = 1) then m / 2 ^ n + 1
      else m / 2 ^ n := rfl

/-- The rounded quotient is within half a unit of the exact one, and even on a tie (R270). -/
theorem roundShift_spec (m n : Nat) :
    2 * m ≤ 2 ^ n * (2 * roundShift m n + 1) ∧ 2 ^ n * (2 * roundShift m n) ≤ 2 * m + 2 ^ n ∧
      (2 * m = 2 ^ n * (2 * roundShift m n + 1) ∨ 2 * m + 2 ^ n = 2 ^ n * (2 * roundShift m n) →
        roundShift m n % 2 = 0) := by
  have hdiv := Nat.div_add_mod m (2 ^ n)
  have hlt : m % 2 ^ n < 2 ^ n := Nat.mod_lt _ (by positivity)
  rw [roundShift_eq]
  generalize m / 2 ^ n = q at *
  generalize m % 2 ^ n = r at *
  generalize 2 ^ n = N at *
  split
  · next hup =>
    rw [show N * (2 * (q + 1) + 1) = 2 * (N * q) + 3 * N by ring, show N * (2 * (q + 1)) = 2 * (N * q) + 2 * N by ring]
    omega
  · next hdown =>
    rw [show N * (2 * q + 1) = 2 * (N * q) + N by ring, show N * (2 * q) = 2 * (N * q) by ring]
    omega

/-- `x` is the natural number `m`, or `m` is odd and stands for a value strictly between its neighbours: the last bit
of `m` then says only that something is left over. -/
def Sticky (x : ℚ) (m : Nat) : Prop := x = m ∨ (m % 2 = 1 ∧ 2 ^ 55 ≤ m ∧ (m : ℚ) - 1 < x ∧ x < m + 1)

theorem sticky_pos {x : ℚ} {m : Nat} (hm : m ≠ 0) (h : Sticky x m) : 0 < x := by
  have h1 : (1 : ℚ) ≤ m := by exact_mod_cast Nat.one_le_iff_ne_zero.2 hm
  rcases h with rfl | ⟨-, -, hlo, -⟩ <;> linarith

/-- The leading bit of `m` is no more than what it stands for. -/
theorem sticky_log2_le {x : ℚ} {m : Nat} (hm : m ≠ 0) (h : Sticky x m) : (2 : ℚ) ^ Nat.log2 m ≤ x := by
  have hle := Nat.log2_self_le hm
  rcases h with rfl | ⟨hodd, hlong, hlo, -⟩
  · exact_mod_cast hle
  · have h55 : 55 ≤ Nat.log2 m := (Nat.le_log2 hm).2 hlong
    have hle' : 2 ^ Nat.log2 m + 1 ≤ m := by
      have heven : 2 ^ Nat.log2 m % 2 = 0 := Nat.mod_eq_zero_of_dvd (dvd_pow_self 2 (by omega))
      omega
    have : (2 : ℚ) ^ Nat.log2 m + 1 ≤ m := by exact_mod_cast hle'
    linarith

/-- The rounded mantissa is within half a unit of what `m` stands for, and even on a tie: between the neighbours of an
odd `m` there is no value halfway between two kept mantissas. -/
theorem roundShift_near {x : ℚ} {m n : Nat} (h : Sticky x m) (hn : 2 ^ 55 ≤ m → 2 ≤ n) :
    |x - roundShift m n * 2 ^ n| ≤ 2 ^ n / 2 ∧
      (|x - roundShift m n * 2 ^ n| = 2 ^ n / 2 → roundShift m n % 2 = 0) := by
  obtain ⟨hup, hdown, heven⟩ := roundShift_spec m n
  generalize roundShift m n = K at *
  have hN : (0 : ℚ) < 2 ^ n := by positivity
  rcases h with rfl | ⟨hodd, hlong, hlo, hhi⟩
  · have hup' : 2 * (m : ℚ) ≤ 2 ^ n * (2 * K + 1) := by exact_mod_cast hup
    have hdown' : (2 : ℚ) ^ n * (2 * K) ≤ 2 * m + 2 ^ n := by exact_mod_cast hdown
    refine ⟨abs_le.2 ⟨by linarith, by linarith⟩, fun htie => heven ?_⟩
    rcases (abs_eq (by positivity)).1 htie with h | h
    · left
      have : 2 * (m : ℚ) = 2 ^ n * (2 * K + 1) := by linarith
      exact_mod_cast this
    · right
      have : 2 * (m : ℚ) + 2 ^ n = 2 ^ n * (2 * K) := by linarith
      exact_mod_cast this
  · obtain ⟨c, hc⟩ : 4 ∣ 2 ^ n := pow_dvd_pow 2 (hn hlong)
    have hup' : 2 * m + 2 ≤ 2 ^ n * (2 * K + 1) := by
      rw [hc, mul_assoc] at hup ⊢
      omega
    have hdown' : 2 ^ n * (2 * K) + 2 ≤ 2 * m + 2 ^ n := by
      rw [hc, mul_assoc] at hdown ⊢
      omega
    have hup'' : 2 * (m : ℚ) + 2 ≤ 2 ^ n * (2 * K + 1) := by exact_mod_cast hup'
    have hdown'' : (2 : ℚ) ^ n * (2 * K) + 2 ≤ 2 * m + 2 ^ n := by exact_mod_cast hdown'
    have hlt : |x - K * 2 ^ n| < 2 ^ n / 2 := abs_lt.2 ⟨by linarith, by linarith⟩
    exact ⟨hlt.le, fun htie => absurd htie hlt.ne⟩

/-! ## What `f64Round` keeps -/

/-- The exponent of the last bit kept. -/
def keptExponent (m : Nat) (e : Int) : Int := max (e + Nat.log2 m - 52) (-1074)

/-- The mantissa kept. -/
def keptMantissa (m : Nat) (e : Int) : Nat :=
  if e ≤ keptExponent m e then roundShift m (keptExponent m e - e).toNat
  else m * 2 ^ (e - keptExponent m e).toNat

/-- Exponent field and fraction of the rounded value, before the overflow to infinity. -/
def keptBits (m : Nat) (e : Int) : Nat := (keptExponent m e + 1074).toNat * 2 ^ 52 + keptMantissa m e

theorem f64Round_zero (negative : Bool) (e : Int) : f64Round negative 0 e = f64Zero negative := rfl

theorem f64Round_eq (negative : Bool) {m : Nat} (e : Int) (hm : m ≠ 0) :
    f64Round negative m e =
      if 2047 * 2 ^ 52 ≤ keptBits m e then f64Infinity negative
      else BitVec.ofNat 64 (f64SignBit negative + keptBits m e) := by
  rw [f64Round, if_neg hm]
  rfl

theorem keptExponent_ge (m : Nat) (e : Int) : -1074 ≤ keptExponent m e := le_max_right _ _

theorem keptExponent_cases (m : Nat) (e : Int) :
    e + Nat.log2 m - 52 ≤ keptExponent m e ∧
      (keptExponent m e = e + Nat.log2 m - 52 ∨ keptExponent m e = -1074) := by
  unfold keptExponent
  omega

/-- The kept mantissa has at most 53 bits, or is 2^53 after a carry, and has 53 unless the exponent is the least. -/
theorem keptMantissa_range {m : Nat} (e : Int) (hm : m ≠ 0) :
    keptMantissa m e ≤ 2 ^ 53 ∧ (2 ^ 52 ≤ keptMantissa m e ∨ keptExponent m e = -1074) := by
  obtain ⟨hge, hcases⟩ := keptExponent_cases m e
  have hlo := Nat.log2_self_le hm
  have hhi : m < 2 ^ (Nat.log2 m + 1) := Nat.lt_log2_self
  unfold keptMantissa
  generalize keptExponent m e = L at *
  generalize Nat.log2 m = g at *
  split
  · next hle =>
    obtain ⟨n, hn⟩ : ∃ n : Nat, (L - e).toNat = n := ⟨_, rfl⟩
    rw [hn]
    obtain ⟨hup, hdown, -⟩ := roundShift_spec m n
    have hpos : 0 < 2 ^ n := by positivity
    constructor
    · have hm' : m < 2 ^ n * 2 ^ 53 := by
        rw [← pow_add]
        exact hhi.trans_le (Nat.pow_le_pow_right (by norm_num) (by omega))
      have : 2 ^ n * (2 * roundShift m n) < 2 ^ n * (2 ^ 54 + 1) := by omega
      have := Nat.lt_of_mul_lt_mul_left this
      omega
    · refine hcases.imp_left fun hL => ?_
      have hm' : 2 ^ n * 2 ^ 52 ≤ m := by
        rw [← pow_add]
        exact (Nat.pow_le_pow_right (by norm_num) (by omega)).trans hlo
      have : 2 ^ n * (2 * 2 ^ 52) ≤ 2 ^ n * (2 * roundShift m n + 1) := by
        rw [Nat.mul_left_comm]
        exact (Nat.mul_le_mul_left 2 hm').trans hup
      have := Nat.le_of_mul_le_mul_left this hpos
      omega
  · next hgt =>
    obtain ⟨n, hn⟩ : ∃ n : Nat, (e - L).toNat = n := ⟨_, rfl⟩
    rw [hn]
    constructor
    · calc m * 2 ^ n ≤ 2 ^ (g + 1) * 2 ^ n := Nat.mul_le_mul_right _ hhi.le
        _ = 2 ^ (g + 1 + n) := (pow_add ..).symm
        _ ≤ 2 ^ 53 := Nat.pow_le_pow_right (by norm_num) (by omega)
    · refine hcases.imp_left fun hL => ?_
      calc 2 ^ 52 ≤ 2 ^ (g + n) := Nat.pow_le_pow_right (by norm_num) (by omega)
        _ = 2 ^ g * 2 ^ n := pow_add ..
        _ ≤ m * 2 ^ n := Nat.mul_le_mul_right _ hlo

/-- A rounded value that does not overflow. -/
theorem f64Round_finite (negative : Bool) {m : Nat} {e : Int} (hm : m ≠ 0) (hb : keptBits m e < 2047 * 2 ^ 52) :
    f64Finite (f64Round negative m e) = true ∧ f64Sign (f64Round negative m e) = negative ∧
      f64Value (f64Round negative m e) = dyadic negative (keptMantissa m e) (keptExponent m e) ∧
      (f64Round negative m e).toNat % 2 = keptMantissa m e % 2 := by
  obtain ⟨hk, hnormal⟩ := keptMantissa_range e hm
  rw [f64Round_eq negative e hm, if_neg (not_le.2 hb)]
  unfold keptBits at hb ⊢
  exact f64Assembled negative (keptMantissa m e) (keptExponent m e) (keptExponent_ge m e) hk hnormal hb

/-- A mantissa that is shifted right is rounded on the grid of the kept exponent. -/
theorem kept_of_shift {m : Nat} {e : Int} (h : e ≤ keptExponent m e) :
    ∃ n : Nat, keptExponent m e = e + n ∧ keptMantissa m e = roundShift m n := by
  refine ⟨(keptExponent m e - e).toNat, by omega, ?_⟩
  rw [keptMantissa, if_pos h]

/-- A mantissa that is shifted left is kept as it is. -/
theorem kept_exact {m : Nat} {e : Int} (h : keptExponent m e ≤ e) :
    (keptMantissa m e : ℚ) * 2 ^ keptExponent m e = m * 2 ^ e := by
  obtain ⟨n, hn⟩ : ∃ n : Nat, e = keptExponent m e + n := ⟨(e - keptExponent m e).toNat, by omega⟩
  have hk : keptMantissa m e = m * 2 ^ n := by
    rw [keptMantissa]
    split
    · next hle =>
      obtain rfl : n = 0 := by omega
      rw [show (keptExponent m e - e).toNat = 0 by omega, roundShift_eq]
      simp [Nat.mod_one]
    · rw [show (e - keptExponent m e).toNat = n by omega]
  rw [hk]
  conv_rhs => rw [hn, zpow_add₀ (by norm_num), zpow_natCast]
  push_cast
  ring

/-- The kept value is within half a unit of what the mantissa stands for, and even on a tie. -/
theorem kept_near {x : ℚ} {m : Nat} (e : Int) (hm : m ≠ 0) (h : Sticky x m) :
    |x * 2 ^ e - keptMantissa m e * 2 ^ keptExponent m e| ≤ 2 ^ keptExponent m e / 2 ∧
      (|x * 2 ^ e - keptMantissa m e * 2 ^ keptExponent m e| = 2 ^ keptExponent m e / 2 →
        keptMantissa m e % 2 = 0) := by
  have he : (0 : ℚ) < 2 ^ e := by positivity
  obtain ⟨hge, -⟩ := keptExponent_cases m e
  have hlong : 2 ^ 55 ≤ m → 55 ≤ Nat.log2 m := (Nat.le_log2 hm).2
  rcases le_or_gt e (keptExponent m e) with hle | hgt
  · obtain ⟨n, hn, hk⟩ := kept_of_shift hle
    obtain ⟨hnear, heven⟩ := roundShift_near h (n := n) fun h55 => by have := hlong h55; omega
    have hunit : (2 : ℚ) ^ keptExponent m e = 2 ^ n * 2 ^ e := by
      rw [hn, zpow_add₀ (by norm_num), zpow_natCast, mul_comm]
    rw [hunit, hk, show x * 2 ^ e - roundShift m n * (2 ^ n * 2 ^ e) = (x - roundShift m n * 2 ^ n) * 2 ^ e by ring,
      abs_mul, abs_of_pos he, mul_div_right_comm]
    exact ⟨mul_le_mul_of_nonneg_right hnear he.le, fun htie => heven (mul_right_cancel₀ he.ne' htie)⟩
  · have hx : x = m := by
      rcases h with hx | ⟨-, h55, -⟩
      · exact hx
      · have := hlong h55
        omega
    have hu : (0 : ℚ) < 2 ^ keptExponent m e := by positivity
    rw [hx, kept_exact hgt.le, sub_self, abs_zero]
    exact ⟨by positivity, fun htie => by linarith⟩

/-- Above the least exponent the value stood for is not below the least normal one of the kept exponent. -/
theorem kept_binade {x : ℚ} {m : Nat} {e : Int} (hm : m ≠ 0) (h : Sticky x m) (hne : keptExponent m e ≠ -1074) :
    2 ^ 52 * 2 ^ keptExponent m e ≤ x * 2 ^ e := by
  obtain ⟨-, hcases⟩ := keptExponent_cases m e
  have hunit : 2 ^ 52 * 2 ^ keptExponent m e = (2 : ℚ) ^ Nat.log2 m * 2 ^ e := by
    rw [← zpow_natCast, ← zpow_natCast, ← zpow_add₀ (by norm_num), ← zpow_add₀ (by norm_num),
      hcases.resolve_right hne]
    congr 1
    push_cast
    ring
  rw [hunit]
  exact mul_le_mul_of_nonneg_right (sticky_log2_le hm h) (by positivity)

/-- The bits reach the infinity's where the mantissa carries at the largest exponent, or past that exponent. -/
theorem keptBits_overflow_iff {m : Nat} (e : Int) (hm : m ≠ 0) :
    2047 * 2 ^ 52 ≤ keptBits m e ↔
      (keptExponent m e = 971 ∧ keptMantissa m e = 2 ^ 53) ∨ 971 < keptExponent m e := by
  obtain ⟨hk, hnormal⟩ := keptMantissa_range e hm
  have hge := keptExponent_ge m e
  unfold keptBits
  omega

/-- Without a carry the value stood for is below half a unit under 2^53: there the tie would go to the even 2^53. -/
theorem kept_below_carry {x : ℚ} {m : Nat} (e : Int) (hm : m ≠ 0) (h : Sticky x m)
    (hk : keptMantissa m e < 2 ^ 53) : x * 2 ^ e < (2 ^ 53 - 1 / 2) * 2 ^ keptExponent m e := by
  obtain ⟨hnear, heven⟩ := kept_near e hm h
  have hu : (0 : ℚ) < 2 ^ keptExponent m e := by positivity
  generalize keptMantissa m e = K at *
  generalize (2 : ℚ) ^ keptExponent m e = u at *
  obtain hlt | hlast : K + 2 ≤ 2 ^ 53 ∨ K + 1 = 2 ^ 53 := by omega
  · have hlt' : (K : ℚ) + 2 ≤ 2 ^ 53 := by exact_mod_cast hlt
    have hscaled := mul_le_mul_of_nonneg_right hlt' hu.le
    have hhigh := (abs_le.1 hnear).2
    linarith only [hscaled, hhigh, hu]
  · have hlast' : (K : ℚ) = 2 ^ 53 - 1 := by
      rw [eq_sub_iff_add_eq]
      exact_mod_cast hlast
    have hnotie : |x * 2 ^ e - K * u| ≠ u / 2 := fun htie => by have := heven htie; omega
    have hhigh := (abs_lt.1 (lt_of_le_of_ne hnear hnotie)).2
    rw [hlast'] at hhigh
    linarith only [hhigh]

/-- Half a unit past the largest finite value, on the grid of the largest exponent. -/
theorem overflowBound_eq : (2 : ℚ) ^ 1024 - 2 ^ 970 = (2 ^ 53 - 1 / 2) * 2 ^ (971 : Int) := by
  rw [show (2 : ℚ) ^ (971 : Int) = 2 * 2 ^ 970 by rw [← pow_succ']; exact zpow_natCast 2 971,
    show (2 : ℚ) ^ 1024 = 2 ^ 54 * 2 ^ 970 by rw [← pow_add]]
  generalize (2 : ℚ) ^ 970 = half
  ring

theorem zpow_double_le {l l' : Int} (h : l < l') : (2 : ℚ) ^ l * 2 ≤ 2 ^ l' := by
  rw [← zpow_add_one₀ (by norm_num)]
  exact zpow_le_zpow_right₀ (by norm_num) h

/-- The rounded value overflows from half a unit past the largest finite value on (R270; log 11). -/
theorem overflow_iff {x : ℚ} {m : Nat} (e : Int) (hm : m ≠ 0) (h : Sticky x m) :
    2047 * 2 ^ 52 ≤ keptBits m e ↔ 2 ^ 1024 - 2 ^ 970 ≤ x * 2 ^ e := by
  obtain ⟨hk, -⟩ := keptMantissa_range e hm
  obtain ⟨hlow, hhigh⟩ := abs_le.1 (kept_near e hm h).1
  have hu : (0 : ℚ) < 2 ^ keptExponent m e := by positivity
  rw [keptBits_overflow_iff e hm, overflowBound_eq]
  rcases lt_trichotomy (keptExponent m e) 971 with hL | hL | hL
  · have hunit := zpow_double_le hL
    have hcarry : keptMantissa m e * (2 : ℚ) ^ keptExponent m e ≤ 2 ^ 53 * 2 ^ keptExponent m e :=
      mul_le_mul_of_nonneg_right (by exact_mod_cast hk) hu.le
    refine iff_of_false (by omega) (not_le.2 ?_)
    generalize (2 : ℚ) ^ (971 : Int) = bound at *
    linarith only [hunit, hcarry, hhigh, hu]
  · rcases hk.lt_or_eq with hlt | hcarry
    · have hbelow := kept_below_carry e hm h hlt
      rw [hL] at hbelow
      exact iff_of_false (by omega) (not_le.2 hbelow)
    · rw [hcarry, hL, Nat.cast_pow, Nat.cast_ofNat] at hlow
      refine iff_of_true (.inl ⟨hL, hcarry⟩) ?_
      generalize (2 : ℚ) ^ (971 : Int) = bound at *
      linarith only [hlow]
  · have hunit := zpow_double_le hL
    have hbinade := kept_binade hm h (by omega : keptExponent m e ≠ -1074)
    refine iff_of_true (.inr hL) ?_
    generalize (2 : ℚ) ^ (971 : Int) = bound at *
    linarith only [hunit, hbinade, hu]

/-! ## `f64Round` rounds (R270) -/

/-- A magnitude with a sign. -/
def withSign (negative : Bool) (v : ℚ) : ℚ := if negative then -v else v

theorem dyadic_eq_withSign (negative : Bool) (m : Nat) (e : Int) :
    dyadic negative m e = withSign negative (m * 2 ^ e) := by
  cases negative <;> simp [dyadic, withSign]

theorem withSign_mul (s t : Bool) (v w : ℚ) : withSign s v * withSign t w = withSign (s ^^ t) (v * w) := by
  cases s <;> cases t <;> simp [withSign]

theorem withSign_div (s t : Bool) (v w : ℚ) : withSign s v / withSign t w = withSign (s ^^ t) (v / w) := by
  cases s <;> cases t <;> simp [withSign, neg_div, div_neg]

theorem abs_withSign_sub (negative : Bool) (v w : ℚ) : |withSign negative v - withSign negative w| = |v - w| := by
  cases negative
  · rfl
  · simp only [withSign, if_true]
    rw [← abs_neg]
    congr 1
    ring

theorem withSign_of_pos {negative : Bool} {v : ℚ} (hv : 0 < v) :
    withSign negative v ≠ 0 ∧ |withSign negative v| = v ∧ decide (withSign negative v < 0) = negative := by
  cases negative
  · simp [withSign, hv.ne', hv.le, abs_of_pos hv]
  · simp [withSign, hv.ne', hv, abs_of_pos hv]

/-- A signed value seen from another sign. -/
theorem dyadic_from_sign (negative t : Bool) (m : Nat) (e : Int) :
    dyadic t m e = withSign negative (dyadic (t ^^ negative) m e) := by
  cases negative <;> cases t <;> simp [dyadic, withSign]

theorem withSign_injective (negative : Bool) : Function.Injective (withSign negative) := by
  intro v w h
  cases negative
  · exact h
  · exact neg_injective h

theorem roundedTo_zero {q : ℚ} {zn : Bool} {w : F64} (hq : q = 0) (hw : w = f64Zero zn) : RoundedTo q zn w := by
  rw [RoundedTo, if_pos hq]
  exact hw

/-- `f64Round` rounds the value its mantissa stands for. -/
theorem f64Round_rounds {x : ℚ} {m : Nat} (e : Int) (hm : m ≠ 0) (h : Sticky x m) (negative zn : Bool) :
    RoundedTo (withSign negative (x * 2 ^ e)) zn (f64Round negative m e) := by
  have hv : 0 < x * 2 ^ e := mul_pos (sticky_pos hm h) (by positivity)
  obtain ⟨hne, habs, hneg⟩ := withSign_of_pos (negative := negative) hv
  rw [RoundedTo, if_neg hne, habs, hneg]
  by_cases hover : 2047 * 2 ^ 52 ≤ keptBits m e
  · rw [if_pos ((overflow_iff e hm h).1 hover), f64Round_eq negative e hm, if_pos hover]
  · rw [if_neg (fun hbig => hover ((overflow_iff e hm h).2 hbig))]
    obtain ⟨hfin, hsign, hvalue, hlast⟩ := f64Round_finite negative hm (not_le.1 hover)
    obtain ⟨hnear, heven⟩ := kept_near e hm h
    refine ⟨hfin, hsign, fun y hy => ?_⟩
    obtain ⟨n, l, -, hy, hn, hl, -⟩ := f64Unpack_finite y hy
    rw [hvalue, hlast, hy, dyadic_eq_withSign, dyadic_from_sign negative (f64Sign y), abs_withSign_sub,
      abs_withSign_sub, (withSign_injective negative).ne_iff]
    exact kept_nearest hnear heven (kept_binade hm h) _ hn hl

theorem f64Round_dyadic (negative : Bool) (m : Nat) (e : Int) :
    RoundedTo (dyadic negative m e) negative (f64Round negative m e) := by
  by_cases hm : m = 0
  · subst hm
    exact roundedTo_zero (by simp [dyadic]) (f64Round_zero negative e)
  · rw [dyadic_eq_withSign]
    exact f64Round_rounds e hm (.inl rfl) negative negative

/-! ## The operations on finite values (R270) -/

theorem f64Add_finite {a b : F64} {s t : Bool} {m n : Nat} {e f : Int} (ha : f64Unpack a = .finite s m e)
    (hb : f64Unpack b = .finite t n f) :
    f64Add a b =
      let g := min e f
      let sum := signedMantissa s (m * 2 ^ (e - g).toNat) + signedMantissa t (n * 2 ^ (f - g).toNat)
      if sum = 0 then f64Zero (s && t && m == 0 && n == 0) else f64Round (decide (sum < 0)) sum.natAbs g := by
  rw [f64Add, ha, hb]

/-- A value as a signed multiple of a smaller power of two. -/
theorem dyadic_eq_signedMantissa (s : Bool) (m : Nat) {e g : Int} (h : g ≤ e) :
    dyadic s m e = signedMantissa s (m * 2 ^ (e - g).toNat) * 2 ^ g := by
  obtain ⟨n, rfl⟩ : ∃ n : Nat, e = g + n := ⟨(e - g).toNat, by omega⟩
  rw [add_sub_cancel_left, Int.toNat_natCast, dyadic, zpow_add₀ (by norm_num), zpow_natCast]
  cases s <;> simp [signedMantissa] <;> ring

/-- An integer as a sign and a magnitude. -/
theorem dyadic_natAbs (i : Int) (g : Int) : dyadic (decide (i < 0)) i.natAbs g = i * 2 ^ g := by
  rcases lt_or_ge i 0 with h | h
  · simp [dyadic, h, Nat.cast_natAbs, abs_of_neg]
  · simp [dyadic, h, not_lt.2 h, Nat.cast_natAbs]

/-- Two magnitudes of one sign have the sum zero only if both are zero. -/
theorem zeroSum_sign {s t : Bool} {m n i j : Nat}
    (h : signedMantissa s (m * 2 ^ i) + signedMantissa t (n * 2 ^ j) = 0) :
    (s && t && m == 0 && n == 0) = (s && t) := by
  cases s <;> cases t
  case true.true =>
    have h0 : m * 2 ^ i = 0 ∧ n * 2 ^ j = 0 := by
      simp only [signedMantissa, if_true] at h
      omega
    have hi : (2 : Nat) ^ i ≠ 0 := by positivity
    have hj : (2 : Nat) ^ j ≠ 0 := by positivity
    simp [(Nat.mul_eq_zero.1 h0.1).resolve_right hi, (Nat.mul_eq_zero.1 h0.2).resolve_right hj]
  all_goals rfl

theorem f64Add_rounds {a b : F64} (ha : f64Finite a = true) (hb : f64Finite b = true) :
    RoundedTo (f64Value a + f64Value b) (f64Sign a && f64Sign b) (f64Add a b) := by
  obtain ⟨m, e, hua, hva, -⟩ := f64Unpack_finite a ha
  obtain ⟨n, f, hub, hvb, -⟩ := f64Unpack_finite b hb
  rw [f64Add_finite hua hub, hva, hvb, dyadic_eq_signedMantissa _ m (min_le_left e f),
    dyadic_eq_signedMantissa _ n (min_le_right e f), ← add_mul, ← Int.cast_add]
  dsimp only
  split
  · next hzero =>
    exact roundedTo_zero (by rw [hzero, Int.cast_zero, zero_mul]) (by rw [zeroSum_sign hzero])
  · next hsum =>
    rw [← dyadic_natAbs, dyadic_eq_withSign]
    exact f64Round_rounds _ (Int.natAbs_ne_zero.2 hsum) (.inl rfl) _ _

/-! ## The fields of a pattern (R10) -/

theorem f64Sign_eq_msb (w : F64) : f64Sign w = w.msb := by
  rw [BitVec.msb_eq_decide, f64Sign, Bool.eq_iff_iff, beq_iff_eq, decide_eq_true_iff]
  have := w.isLt
  omega

theorem f64Exponent_eq_extract (w : F64) : f64Exponent w = (w.extractLsb' 52 11).toNat := by
  rw [BitVec.extractLsb'_toNat, Nat.shiftRight_eq_div_pow]
  rfl

theorem f64Fraction_eq_extract (w : F64) : f64Fraction w = (w.extractLsb' 0 52).toNat := by
  rw [BitVec.extractLsb'_toNat, Nat.shiftRight_zero]
  rfl

theorem f64Neg_fields (a : F64) :
    f64Sign (f64Neg a) = (!f64Sign a) ∧ f64Exponent (f64Neg a) = f64Exponent a ∧
      f64Fraction (f64Neg a) = f64Fraction a := by
  refine ⟨?_, ?_, ?_⟩
  · rw [f64Sign_eq_msb, f64Sign_eq_msb, f64Neg, BitVec.msb_xor,
      show (0x8000000000000000#64).msb = true by decide, Bool.xor_true]
  · rw [f64Exponent_eq_extract, f64Exponent_eq_extract, f64Neg, BitVec.extractLsb'_xor,
      show (0x8000000000000000#64).extractLsb' 52 11 = 0#11 by decide, BitVec.xor_zero]
  · rw [f64Fraction_eq_extract, f64Fraction_eq_extract, f64Neg, BitVec.extractLsb'_xor,
      show (0x8000000000000000#64).extractLsb' 0 52 = 0#52 by decide, BitVec.xor_zero]

/-- A NaN pattern (R10). -/
def IsNaN (w : F64) : Prop := f64Exponent w = 2047 ∧ f64Fraction w ≠ 0

theorem isNaN_f64NaN (a b : F64) : IsNaN (f64NaN a b) := by
  unfold IsNaN
  rw [f64Exponent_eq_extract, f64Fraction_eq_extract, f64NaN, BitVec.extractLsb'_or, BitVec.extractLsb'_or,
    show (0x7FF8000000000000#64).extractLsb' 52 11 = BitVec.allOnes 11 by decide, BitVec.allOnes_or]
  refine ⟨by decide, ?_⟩
  rw [BitVec.toNat_or]
  exact Nat.ne_of_gt (lt_of_lt_of_le (by decide) Nat.left_le_or)

theorem f64Unpack_nan {w : F64} (h : IsNaN w) : f64Unpack w = .nan := by
  obtain ⟨hexp, hfrac⟩ := h
  rw [f64Unpack, if_pos hexp, if_neg hfrac]

theorem f64Unpack_infinity (negative : Bool) : f64Unpack (f64Infinity negative) = .infinite negative := by
  cases negative <;> decide

theorem f64Unpack_neg {a : F64} (ha : f64Finite a = true) {s : Bool} {m : Nat} {e : Int}
    (h : f64Unpack a = .finite s m e) : f64Unpack (f64Neg a) = .finite (!s) m e := by
  obtain ⟨hsign, hexp, hfrac⟩ := f64Neg_fields a
  have hne : f64Exponent a ≠ 2047 := by simpa [f64Finite] using ha
  rw [f64Unpack, if_neg hne] at h
  rw [f64Unpack, hexp, hfrac, hsign, if_neg hne]
  split
  · next hsub =>
    rw [if_pos hsub] at h
    cases h
    rfl
  · next hnormal =>
    rw [if_neg hnormal] at h
    cases h
    rfl

/-- Changing the sign bit negates a finite value (R10). -/
theorem f64Neg_value {a : F64} (ha : f64Finite a = true) :
    f64Finite (f64Neg a) = true ∧ f64Value (f64Neg a) = -f64Value a := by
  obtain ⟨-, hexp, -⟩ := f64Neg_fields a
  obtain ⟨m, e, hu, hv, -⟩ := f64Unpack_finite a ha
  refine ⟨by rw [f64Finite, hexp]; exact ha, ?_⟩
  rw [f64Value_of_unpack (f64Unpack_neg ha hu), hv]
  cases f64Sign a <;> simp [dyadic]

theorem f64Sub_finite {a b : F64} (ha : f64Finite a = true) (hb : f64Finite b = true) :
    f64Sub a b = f64Add a (f64Neg b) := by
  obtain ⟨m, e, hua, -⟩ := f64Unpack_finite a ha
  obtain ⟨n, f, hub, -⟩ := f64Unpack_finite b hb
  rw [f64Sub, hub, hua]

theorem f64Sub_rounds {a b : F64} (ha : f64Finite a = true) (hb : f64Finite b = true) :
    RoundedTo (f64Value a - f64Value b) (f64Sign a && !f64Sign b) (f64Sub a b) := by
  obtain ⟨hfin, hvalue⟩ := f64Neg_value hb
  obtain ⟨hsign, -, -⟩ := f64Neg_fields b
  rw [f64Sub_finite ha hb, sub_eq_add_neg, ← hvalue, ← hsign]
  exact f64Add_rounds ha hfin

theorem f64Mul_rounds {a b : F64} (ha : f64Finite a = true) (hb : f64Finite b = true) :
    RoundedTo (f64Value a * f64Value b) (f64Sign a ^^ f64Sign b) (f64Mul a b) := by
  obtain ⟨m, e, hua, hva, -⟩ := f64Unpack_finite a ha
  obtain ⟨n, f, hub, hvb, -⟩ := f64Unpack_finite b hb
  have hmul : f64Mul a b = f64Round (f64Sign a ^^ f64Sign b) (m * n) (e + f) := by rw [f64Mul, hua, hub]
  have hvalue : f64Value a * f64Value b = dyadic (f64Sign a ^^ f64Sign b) (m * n) (e + f) := by
    rw [hva, hvb, dyadic_eq_withSign, dyadic_eq_withSign, dyadic_eq_withSign, withSign_mul, mul_mul_mul_comm,
      ← zpow_add₀ (by norm_num), Nat.cast_mul]
  rw [hmul, hvalue]
  exact f64Round_dyadic _ _ _

/-- The mantissa of a quotient: 121 bits more than the quotient of the mantissas, the last saying whether anything is
left over. -/
def quotientMantissa (m n : Nat) : Nat := 2 * (m * 2 ^ 120 / n) + if m * 2 ^ 120 % n = 0 then 0 else 1

/-- It stands for the exact quotient. -/
theorem quotientMantissa_sticky {m n : Nat} (hm : m ≠ 0) (hn : n ≠ 0) (hn53 : n < 2 ^ 53) :
    quotientMantissa m n ≠ 0 ∧ Sticky ((m : ℚ) / n * 2 ^ 121) (quotientMantissa m n) := by
  have hdiv := Nat.div_add_mod (m * 2 ^ 120) n
  have hlt : m * 2 ^ 120 % n < n := Nat.mod_lt _ (Nat.pos_of_ne_zero hn)
  have hbig : 2 ^ 67 ≤ m * 2 ^ 120 / n := by
    rw [Nat.le_div_iff_mul_le (Nat.pos_of_ne_zero hn)]
    calc 2 ^ 67 * n ≤ 2 ^ 67 * 2 ^ 53 := Nat.mul_le_mul_left _ hn53.le
      _ = 1 * 2 ^ 120 := by norm_num
      _ ≤ m * 2 ^ 120 := Nat.mul_le_mul_right _ (Nat.one_le_iff_ne_zero.2 hm)
  unfold quotientMantissa
  have hnq : (0 : ℚ) < n := by exact_mod_cast Nat.pos_of_ne_zero hn
  have hexact : (m : ℚ) / n * 2 ^ 121 = 2 * (m * 2 ^ 120 / n : Nat) + 2 * (m * 2 ^ 120 % n : Nat) / n := by
    have : (n : ℚ) * (m * 2 ^ 120 / n : Nat) + (m * 2 ^ 120 % n : Nat) = m * 2 ^ 120 := by exact_mod_cast hdiv
    field_simp
    linarith
  rw [hexact]
  generalize m * 2 ^ 120 / n = q at *
  generalize m * 2 ^ 120 % n = r at *
  split
  · next hr =>
    refine ⟨by omega, .inl ?_⟩
    rw [hr]
    push_cast
    simp
  · next hr =>
    refine ⟨by omega, .inr ⟨by omega, by omega, ?_, ?_⟩⟩
    · have : (0 : ℚ) < 2 * r / n := by
        have : (0 : ℚ) < r := by exact_mod_cast Nat.pos_of_ne_zero hr
        positivity
      push_cast
      linarith
    · have : 2 * (r : ℚ) / n < 2 := by
        rw [div_lt_iff₀ hnq]
        have : (r : ℚ) < n := by exact_mod_cast hlt
        linarith
      push_cast
      linarith

theorem f64Div_finite {a b : F64} {s t : Bool} {m n : Nat} {e f : Int} (ha : f64Unpack a = .finite s m e)
    (hb : f64Unpack b = .finite t n f) (hn : n ≠ 0) :
    f64Div a b = f64Round (s ^^ t) (quotientMantissa m n) (e - f - 121) := by
  rw [f64Div, ha, hb]
  dsimp only
  rw [if_neg hn]
  rfl

theorem f64Div_rounds {a b : F64} (ha : f64Finite a = true) (hb : f64Finite b = true) (hb0 : f64Value b ≠ 0) :
    RoundedTo (f64Value a / f64Value b) (f64Sign a ^^ f64Sign b) (f64Div a b) := by
  obtain ⟨m, e, hua, hva, -⟩ := f64Unpack_finite a ha
  obtain ⟨n, f, hub, hvb, hn53, -⟩ := f64Unpack_finite b hb
  have hn : n ≠ 0 := by
    rintro rfl
    exact hb0 (by rw [hvb]; simp [dyadic])
  have hvalue : f64Value a / f64Value b =
      withSign (f64Sign a ^^ f64Sign b) ((m : ℚ) / n * 2 ^ 121 * 2 ^ (e - f - 121)) := by
    rw [hva, hvb, dyadic_eq_withSign, dyadic_eq_withSign, withSign_div, mul_div_mul_comm, ← zpow_sub₀ (by norm_num),
      mul_assoc, ← zpow_natCast, ← zpow_add₀ (by norm_num)]
    congr 3
    push_cast
    ring
  rw [hvalue, f64Div_finite hua hub hn]
  by_cases hm : m = 0
  · subst hm
    exact roundedTo_zero (by simp [withSign]) (by simp [quotientMantissa, f64Round_zero])
  · obtain ⟨hne, hsticky⟩ := quotientMantissa_sticky hm hn hn53
    exact f64Round_rounds _ hne hsticky _ _

/-! ## The sample positions (R270) -/

/-- `k as binary64` is exact below 256. -/
theorem f64OfNat_exact {k : Nat} (hk : k < 256) :
    f64Finite (f64OfNat k) = true ∧ f64Sign (f64OfNat k) = false ∧ f64Value (f64OfNat k) = k := by
  by_cases h0 : k = 0
  · subst h0
    refine ⟨by decide, by decide, ?_⟩
    rw [f64Value_of_unpack (show f64Unpack (f64OfNat 0) = .finite false 0 (-1074) by decide)]
    simp [dyadic]
  · have hlog : Nat.log2 k < 8 := (Nat.log2_lt h0).2 hk
    obtain ⟨hge, hcases⟩ := keptExponent_cases k 0
    obtain ⟨hrange, -⟩ := keptMantissa_range 0 h0
    have hb : keptBits k 0 < 2047 * 2 ^ 52 := by
      unfold keptBits
      omega
    obtain ⟨hfin, hsign, hvalue, -⟩ := f64Round_finite false h0 hb
    refine ⟨hfin, hsign, ?_⟩
    rw [f64OfNat, hvalue, dyadic_eq_withSign, kept_exact (by omega)]
    simp [withSign]

theorem f64TwoFiftySix_unpack : f64Unpack 0x4070000000000000#64 = .finite false (2 ^ 52) (-44) := by decide

theorem f64TwoFiftySix_exact :
    f64Finite 0x4070000000000000#64 = true ∧ f64Value 0x4070000000000000#64 = 256 := by
  refine ⟨by decide, ?_⟩
  rw [f64Value_of_unpack f64TwoFiftySix_unpack]
  norm_num [dyadic]

theorem sampleX_eq (c : Config) (k : Nat) :
    sampleX c k = f64Add c.leftBorder
      (f64Mul (f64OfNat k) (f64Div (f64Sub c.rightBorder c.leftBorder) 0x4070000000000000#64)) := rfl

/-- An infinite difference of the borders gives an infinite step. -/
theorem sampleStep_infinite {c : Config} (h : f64Sub c.rightBorder c.leftBorder = f64Infinity false) :
    sampleStep c = f64Infinity false := by
  rw [sampleStep, h, f64Div, f64Unpack_infinity, f64TwoFiftySix, f64TwoFiftySix_unpack]
  rfl

theorem configLegal_leftBorder {c : Config} (h : configLegal c = true) : f64Finite c.leftBorder = true := by
  simp only [configLegal, Bool.and_eq_true] at h
  obtain ⟨⟨⟨-, hleft⟩, -⟩, -⟩ := h
  exact hleft

/-- 0 times an infinite step is a NaN, and so is x_0 (log 11). -/
theorem sampleX_zero_isNaN {c : Config} (hc : configLegal c = true)
    (h : f64Sub c.rightBorder c.leftBorder = f64Infinity false) : IsNaN (sampleX c 0) := by
  obtain ⟨m, e, hleft, -⟩ := f64Unpack_finite _ (configLegal_leftBorder hc)
  have hmul : f64Mul (f64OfNat 0) (sampleStep c) = f64NaN (f64OfNat 0) (f64Infinity false) := by
    rw [sampleStep_infinite h, f64Mul, f64Unpack_infinity,
      show f64Unpack (f64OfNat 0) = .finite false 0 (-1074) by decide]
    rfl
  rw [sampleX, hmul, f64Add, hleft, f64Unpack_nan (isNaN_f64NaN _ _)]
  exact isNaN_f64NaN _ _

/-- Every other point of an infinite step is infinite (log 11). -/
theorem sampleX_infinite {c : Config} (hc : configLegal c = true)
    (h : f64Sub c.rightBorder c.leftBorder = f64Infinity false) {k : Nat} (h0 : 0 < k) (hk : k < 256) :
    sampleX c k = f64Infinity false := by
  obtain ⟨m, e, hleft, -⟩ := f64Unpack_finite _ (configLegal_leftBorder hc)
  obtain ⟨hfin, hsign, hvalue⟩ := f64OfNat_exact hk
  obtain ⟨n, f, hu, hv, -⟩ := f64Unpack_finite _ hfin
  have hn : n ≠ 0 := by
    rintro rfl
    have : (k : ℚ) = 0 := by rw [← hvalue, hv]; simp [dyadic]
    have : k = 0 := by exact_mod_cast this
    omega
  have hmul : f64Mul (f64OfNat k) (sampleStep c) = f64Infinity false := by
    rw [sampleStep_infinite h, f64Mul, f64Unpack_infinity, hu, hsign]
    simp [hn]
  rw [sampleX, hmul, f64Add, hleft, f64Unpack_infinity]

/-! ## Statement -/

/-- Settles O49: each operation is one rounding of its exact result. -/
theorem roundingIsToNearestTiesToEven : Obligations.RoundingIsToNearestTiesToEven := by
  unfold Obligations.RoundingIsToNearestTiesToEven
  refine ⟨roundShift_spec, f64Round_dyadic, fun a b ha hb => ?_, fun k hk => ?_, sampleX_eq, f64TwoFiftySix_exact,
    fun c hc h => ⟨sampleX_zero_isNaN hc h, fun k h0 hk => sampleX_infinite hc h h0 hk⟩⟩
  · exact ⟨f64Add_rounds ha hb, f64Sub_rounds ha hb, f64Mul_rounds ha hb, f64Div_rounds ha hb⟩
  · obtain ⟨hfin, -, hvalue⟩ := f64OfNat_exact hk
    exact ⟨hfin, hvalue⟩

end Sys2Proof.Laws
end

section
/-! Support for the statements about the debouncer (44_debouncer.md). What the two ISRs do is read off for one button,
the press events and the timer; then a step is said once for one button (`ButtonMove`): it stays, is pressed, is
released, has ticks taken off, or fires. The statements over runs follow a press through these moves: what is left of
its delay is its remaining time less the timer's count, and every tick takes one off. The eight statements are settled
at the end. -/

namespace Sys2Proof.Laws

open Sys2Proof.Machine Sys2Proof.Safety

/-! ## One button of the two (R301) -/

theorem buttonGet_map {α β : Type} (f : α → β) (p : PerButton α) (i : Button) :
    buttonGet ⟨f p.b0, f p.b1⟩ i = f (buttonGet p i) := (apply_ite f _ _ _).symm

theorem buttonGet_map₂ {α β γ : Type} (f : α → β → γ) (p : PerButton α) (q : PerButton β) (i : Button) :
    buttonGet ⟨f p.b0 q.b0, f p.b1 q.b1⟩ i = f (buttonGet p i) (buttonGet q i) := by
  unfold buttonGet
  split <;> rfl

theorem buttonBounded_buttonGet {s : State} (h : Inv s) (i : Button) : ButtonBounded s (buttonGet s.btn i) := by
  obtain ⟨-, hb0, hb1, -⟩ := debouncerBounded_of_inv h
  unfold buttonGet
  split
  · exact hb0
  · exact hb1

/-- A Down button keeps the timer on (R53(g), R324). -/
theorem timer_on_of_down {s : State} {i : Button} {r : Nat} (h : Inv s) (hd : buttonGet s.btn i = .down r) :
    s.tmr.state ≠ .disabled := by
  obtain ⟨-, -, hon, -⟩ := (buttonBounded_iff _ _).1 (buttonBounded_buttonGet h i) r hd
  exact hon

/-- A Down button crosses the threshold only when the timer is Expired (R317): until then it has more time than the
ticks counted. -/
theorem tcnt_lt_of_down {s : State} {i : Button} {r : Nat} (h : Inv s) (hd : buttonGet s.btn i = .down r)
    (hx : s.tmr.state ≠ .expired) : s.tmr.tcnt < r := by
  obtain ⟨-, -, hon, hocr⟩ := (buttonBounded_iff _ _).1 (buttonBounded_buttonGet h i) r hd
  obtain ⟨⟨hrunning, -⟩, -⟩ := debouncerBounded_of_inv h
  cases hs : s.tmr.state with
  | disabled => exact absurd hs hon
  | running => exact (hrunning hs).trans_le hocr
  | expired => exact absurd hs hx

theorem isDown_iff (b : ButtonState) : isDown b = true ↔ ∃ r, b = .down r := by
  cases b <;> simp [isDown]

/-! ## The pin-change ISR (R310) -/

theorem sampleButton_released (r : Nat) (b : ButtonState) : sampleButton r false b = .up := rfl

theorem sampleButton_press (r : Nat) : sampleButton r true .up = .down r := rfl

theorem sampleButton_held (r : Nat) {b : ButtonState} (h : b ≠ .up) : sampleButton r true b = b := by
  cases b with
  | up => exact absurd rfl h
  | down _ => rfl
  | pressed => rfl

theorem requesting_pinChange {s : State} (hf : s.pcif = true) (he : s.pcie = true) :
    requesting .pinChange s = true := Bool.and_eq_true_iff.2 ⟨hf, he⟩

theorem exec_isrPcint {s : State} (hi : s.issuer = .int) (hg : s.gie = true) (hf : s.pcif = true)
    (he : s.pcie = true) : exec .isrPcint s = .next (pcintBody s) :=
  exec_isr_taken (src := .pinChange) hi hg (requesting_pinChange hf he)

theorem pcintBody_button (s : State) (i : Button) :
    buttonGet (pcintBody s).btn i =
      sampleButton (s.cfg.debounceDelay + pressOffset s) (buttonGet s.pin i) (buttonGet s.btn i) := by
  rw [pcintBody_eq]
  exact buttonGet_map₂ _ _ _ _

theorem pcintBody_press (s : State) : (pcintBody s).press = s.press := by rw [pcintBody_eq]

theorem pcintBody_tmr (s : State) :
    (pcintBody s).tmr = afterPins (pcintBody s).btn s.cfg.debounceDelay s.tmr := by rw [pcintBody_eq]

theorem afterPins_of_down {p : PerButton ButtonState} {i : Button} {r : Nat} (h : buttonGet p i = .down r)
    (delay : Nat) (t : Timer) :
    afterPins p delay t = if t.state = .disabled then ⟨.running, 0, delay⟩ else t := by
  have hnot : ¬ allUp p = true := by
    rw [allUp_iff]
    rintro ⟨h0, h1⟩
    unfold buttonGet at h
    split at h <;> simp_all
  exact if_neg hnot

/-- A button that a pin-change ISR leaves Down with the timer on leaves the timer as it was (R310). -/
theorem pcintBody_tmr_of_on {s : State} {i : Button} {r : Nat} (h : buttonGet (pcintBody s).btn i = .down r)
    (hon : s.tmr.state ≠ .disabled) : (pcintBody s).tmr = s.tmr := by
  rw [pcintBody_tmr, afterPins_of_down h, if_neg hon]

theorem pressOffset_compensated {s : State} (hm : s.cfg.debounceMode = .compensated) :
    pressOffset s = if s.tmr.state = .disabled then 0 else s.tmr.tcnt := by
  unfold pressOffset
  rw [hm]
  cases s.tmr.state <;> rfl

/-- In Compensated mode a new press gets the ticks already counted on top of its delay, whether the timer was on or is
armed now (R311). -/
theorem pcintBody_tcnt_of_press {s : State} {i : Button} {r : Nat} (hm : s.cfg.debounceMode = .compensated)
    (h : buttonGet (pcintBody s).btn i = .down r) : (pcintBody s).tmr.tcnt = pressOffset s := by
  rw [pcintBody_tmr, afterPins_of_down h, pressOffset_compensated hm]
  exact apply_ite Timer.tcnt _ _ _

/-! ## The timer ISR (R315) -/

theorem timerBody_button (s : State) (i : Button) :
    buttonGet (timerBody s).btn i = afterTimer s.tmr.tcnt (buttonGet s.btn i) := by
  rw [timerBody_eq]
  exact buttonGet_map _ _ _

theorem requesting_timer_iff (s : State) : requesting .timer s = true ↔ s.tmr.state = .expired := by
  cases hx : s.tmr.state <;> simp [requesting, pending, enabled, hx]

theorem exec_isrTimer {s : State} (hi : s.issuer = .int) (hg : s.gie = true) (hx : s.tmr.state = .expired) :
    exec .isrTimer s = .next (timerBody s) :=
  exec_isr_taken (src := .timer) hi hg ((requesting_timer_iff s).2 hx)

/-- The buttons with the elapsed ticks taken off, before those that crossed the threshold fire (R315). -/
def elapsed (s : State) : PerButton ButtonState :=
  ⟨elapse s.tmr.tcnt s.btn.b0, elapse s.tmr.tcnt s.btn.b1⟩

theorem elapsed_button (s : State) (i : Button) : buttonGet (elapsed s) i = elapse s.tmr.tcnt (buttonGet s.btn i) :=
  buttonGet_map _ _ _

theorem timerBody_tmr (s : State) : (timerBody s).tmr = rearmed (elapsed s) s.tmr.ocr := by
  rw [timerBody_eq]
  rfl

/-- A timer ISR leaves the timer Disabled or running anew (R315). -/
theorem rearmed_fresh (p : PerButton ButtonState) (ocr : Nat) :
    (rearmed p ocr).tcnt = 0 ∧ (rearmed p ocr).state ≠ .expired := by
  unfold rearmed
  split <;> exact ⟨rfl, nofun⟩

theorem timerBody_press_count (s : State) (i : Button) :
    (timerBody s).press.count i = s.press.count i +
      if crosses s.tmr.tcnt (buttonGet s.btn i) = true ∧ hasCallback s.cfg i = true then 1 else 0 := by
  rw [timerBody_eq]
  obtain rfl | rfl : i = 0 ∨ i = 1 := Fin.exists_fin_two.1 ⟨i, rfl⟩
  · cases hc : crosses s.tmr.tcnt s.btn.b0 <;> cases hcb : s.cfg.hasCallback0 <;>
      simp [buttonGet, hasCallback, hc, hcb, List.count_append, apply_ite (List.count (0 : Button))]
  · cases hc : crosses s.tmr.tcnt s.btn.b1 <;> cases hcb : s.cfg.hasCallback1 <;>
      simp [buttonGet, hasCallback, hc, hcb, List.count_append, apply_ite (List.count (1 : Button))]

theorem crosses_down (e r : Nat) : crosses e (.down r) = true ↔ r ≤ e := decide_eq_true_iff

/-- A button that does not cross the threshold in a timer ISR adds no event (R316, R318). -/
theorem timerBody_press_count_of_not_crossed {s : State} {i : Button}
    (h : ¬ crosses s.tmr.tcnt (buttonGet s.btn i) = true) : (timerBody s).press.count i = s.press.count i := by
  rw [timerBody_press_count, if_neg fun hc => h hc.1]
  rfl

/-- A button is Down after a timer ISR exactly for its live time. -/
theorem timerBody_down_iff (s : State) (i : Button) (r : Nat) :
    buttonGet (timerBody s).btn i = .down r ↔ liveTime (buttonGet (elapsed s) i) = some r := by
  rw [timerBody_button, elapsed_button, afterTimer_down]

theorem leastLive_none_iff (p : PerButton ButtonState) :
    leastLive p = none ↔ ∀ i, liveTime (buttonGet p i) = none := by
  rw [Fin.forall_fin_two]
  refine ⟨leastLive_none, fun ⟨h0, h1⟩ => ?_⟩
  change liveTime p.b0 = none at h0
  change liveTime p.b1 = none at h1
  rw [leastLive, h0, h1]

theorem leastLive_some_least {p : PerButton ButtonState} {m : Nat} (h : leastLive p = some m) :
    (∃ i, liveTime (buttonGet p i) = some m) ∧ ∀ i r, liveTime (buttonGet p i) = some r → m ≤ r := by
  rw [Fin.exists_fin_two, Fin.forall_fin_two]
  exact leastLive_some h

/-- The timer is off after a timer ISR exactly when no button is Down (R324). -/
theorem timerBody_disabled_iff (s : State) :
    (timerBody s).tmr.state = .disabled ↔ ∀ i, isDown (buttonGet (timerBody s).btn i) = false := by
  have hdown : (∀ i, isDown (buttonGet (timerBody s).btn i) = false) ↔ leastLive (elapsed s) = none := by
    rw [leastLive_none_iff]
    refine forall_congr' fun i => ?_
    rw [Option.eq_none_iff_forall_ne_some, ← Bool.not_eq_true, isDown_iff, not_exists]
    exact forall_congr' fun r => not_congr (timerBody_down_iff s i r)
  rw [hdown, timerBody_tmr, rearmed]
  cases leastLive (elapsed s) <;> simp

/-- From the invariants the least time left is at most the debounce delay, so the clamp to TIMER_SPAN never acts
(R317). -/
theorem timerBody_tmr_of_live {s : State} {m : Nat} (h : Inv s) (hl : leastLive (elapsed s) = some m) :
    (timerBody s).tmr = ⟨.running, 0, m⟩ := by
  obtain ⟨⟨i, hi⟩, -⟩ := leastLive_some_least hl
  rw [elapsed_button] at hi
  obtain ⟨-, hdelay⟩ := liveTime_elapse_bounded (buttonBounded_buttonGet h i) hi
  obtain ⟨hcfg, -⟩ := h
  obtain ⟨-, -, -, hspan⟩ := configLegal_spec hcfg
  have hclamp : min m timerSpan = m := Nat.min_eq_left (hdelay.trans hspan)
  rw [timerBody_tmr, rearmed, hl]
  exact congrArg (Timer.mk .running 0) hclamp

/-! ## A tick (R304) -/

theorem timebaseStep_of_running {s : State} (h : s.tmr.state = .running) :
    timebaseStep s = { s with
      tmr := ⟨if s.tmr.tcnt + 1 = s.tmr.ocr then .expired else .running, s.tmr.tcnt + 1, s.tmr.ocr⟩ } := by
  rw [timebaseStep, h]
  by_cases hm : s.tmr.tcnt + 1 = s.tmr.ocr <;> simp only [hm, if_true, if_false]

theorem timebaseStep_of_overrun {s : State} (h : s.tmr.state = .expired) (hspan : s.tmr.tcnt = 16) :
    timebaseStep s = raise .timerOverrun s := by
  rw [timebaseStep, h]
  exact if_pos hspan

theorem timebaseStep_of_expired {s : State} (h : s.tmr.state = .expired) (hspan : s.tmr.tcnt ≠ 16) :
    timebaseStep s = { s with tmr := ⟨.expired, s.tmr.tcnt + 1, s.tmr.ocr⟩ } := by
  rw [timebaseStep, h]
  exact if_neg hspan

theorem timebaseStep_frame (s : State) :
    timebaseStep s = { s with fault := (timebaseStep s).fault, tmr := (timebaseStep s).tmr } := by
  unfold timebaseStep
  (repeat' split) <;> rfl

theorem timebaseStep_btn (s : State) : (timebaseStep s).btn = s.btn := by rw [timebaseStep_frame]

theorem timebaseStep_press (s : State) : (timebaseStep s).press = s.press := by rw [timebaseStep_frame]

/-- A timer that is on counts the tick, or overruns with its count as it was. -/
theorem timebaseStep_tcnt {s : State} (hon : s.tmr.state ≠ .disabled) :
    (timebaseStep s).tmr.tcnt = s.tmr.tcnt + 1 ∨
      (s.tmr.state = .expired ∧ (timebaseStep s).tmr.tcnt = s.tmr.tcnt) := by
  cases hx : s.tmr.state with
  | disabled => exact absurd hx hon
  | running => exact .inl (by rw [timebaseStep_of_running hx])
  | expired =>
    by_cases hspan : s.tmr.tcnt = 16
    · exact .inr ⟨rfl, by rw [timebaseStep_of_overrun hx hspan, raise_tmr]⟩
    · exact .inl (by rw [timebaseStep_of_expired hx hspan])

/-- Only a tick that comes while a compare match waits can raise a fault. -/
theorem timebaseStep_fault {s : State} (h : s.tmr.state ≠ .expired) : (timebaseStep s).fault = s.fault := by
  cases hx : s.tmr.state with
  | disabled => rw [timebaseStep_of_disabled hx]
  | running => rw [timebaseStep_of_running hx]
  | expired => exact absurd hx h

/-! ## One button along a step -/

/-- The ticks of the next turn: one if it is the timebase's. -/
def tick (s : State) : Nat := if nextTurn s = .timebase then 1 else 0

theorem tick_of_timebase {s : State} (h : nextTurn s = .timebase) : tick s = 1 := if_pos h

theorem tick_of_other {s : State} (h : nextTurn s ≠ .timebase) : tick s = 0 := if_neg h

/-- The timer counts the ticks of the step, unless one comes to an Expired timer that overruns (R304). -/
abbrev CountsTick (s t : State) : Prop :=
  t.tmr.tcnt = s.tmr.tcnt + tick s ∨
    (nextTurn s = .timebase ∧ s.tmr.state = .expired ∧ t.tmr.tcnt = s.tmr.tcnt)

/-- What a step can do to button `i` and its events: nothing, while the timer of a Down button goes on counting; or a
pin-change ISR samples a press of an Up button or a release (R310); or a timer ISR takes the elapsed ticks off the time
left, or fires the button when none is left (R315). -/
inductive ButtonMove (i : Button) (s t : State) : Prop
  | stays (state : buttonGet t.btn i = buttonGet s.btn i) (events : t.press.count i = s.press.count i)
      (clock : s.booted = true → ∀ r, buttonGet s.btn i = .down r → CountsTick s t)
  | press (turn : nextTurn s = .int .pinChange) (level : buttonGet s.pin i = true) (before : buttonGet s.btn i = .up)
      (after : buttonGet t.btn i = .down (s.cfg.debounceDelay + pressOffset s))
      (events : t.press.count i = s.press.count i)
      (clock : s.cfg.debounceMode = .compensated → t.tmr.tcnt = pressOffset s)
  | release (turn : nextTurn s = .int .pinChange) (level : buttonGet s.pin i = false) (after : buttonGet t.btn i = .up)
      (events : t.press.count i = s.press.count i)
  | elapse (r : Nat) (turn : nextTurn s = .int .timer) (before : buttonGet s.btn i = .down r) (left : s.tmr.tcnt < r)
      (after : buttonGet t.btn i = .down (r - s.tmr.tcnt)) (events : t.press.count i = s.press.count i)
      (clock : t.tmr.tcnt = 0)
  | fire (r : Nat) (turn : nextTurn s = .int .timer) (before : buttonGet s.btn i = .down r) (crossed : r ≤ s.tmr.tcnt)
      (after : buttonGet t.btn i = .pressed)
      (events : t.press.count i = s.press.count i + if hasCallback s.cfg i = true then 1 else 0)

/-- A step that leaves the debouncer alone and is no tick. -/
theorem buttonMove_of_same (i : Button) {s t : State} (hbtn : t.btn = s.btn) (hpress : t.press = s.press)
    (htmr : t.tmr = s.tmr) (hturn : s.booted = true → nextTurn s ≠ .timebase) : ButtonMove i s t :=
  .stays (by rw [hbtn]) (by rw [hpress]) fun hb _ _ => .inl (by rw [htmr, tick_of_other (hturn hb)]; rfl)

/-- The state in which the dispatcher issues an ISR in its turn (R355). -/
abbrev dispatched (s : State) : State := { takeTurn s with issuer := .int }

theorem buttonMove_pinChange (i : Button) {s : State} (h : Inv s) (hn : nextTurn s = .int .pinChange) :
    ButtonMove i s (pcintBody (dispatched s)) := by
  have hafter : buttonGet (pcintBody (dispatched s)).btn i =
      sampleButton (s.cfg.debounceDelay + pressOffset s) (buttonGet s.pin i) (buttonGet s.btn i) :=
    pcintBody_button (dispatched s) i
  have hevents : (pcintBody (dispatched s)).press.count i = s.press.count i := by rw [pcintBody_press]; rfl
  cases hpin : buttonGet s.pin i with
  | false =>
    rw [hpin, sampleButton_released] at hafter
    exact .release hn hpin hafter hevents
  | true =>
    rw [hpin] at hafter
    cases hb : buttonGet s.btn i with
    | up =>
      rw [hb, sampleButton_press] at hafter
      exact .press hn hpin hb hafter hevents fun hm => pcintBody_tcnt_of_press (s := dispatched s) hm hafter
    | pressed =>
      rw [sampleButton_held _ (by simp [hb])] at hafter
      exact .stays hafter hevents fun _ r hr => by simp [hb] at hr
    | down r =>
      rw [sampleButton_held _ (by simp [hb])] at hafter
      refine .stays hafter hevents fun _ _ _ => .inl ?_
      have hon : (dispatched s).tmr.state ≠ .disabled := timer_on_of_down h hb
      rw [pcintBody_tmr_of_on (hafter.trans hb) hon, tick_of_other (by simp [hn])]
      rfl

theorem buttonMove_timer (i : Button) {s : State} (hn : nextTurn s = .int .timer) :
    ButtonMove i s (timerBody (dispatched s)) := by
  have hafter : buttonGet (timerBody (dispatched s)).btn i = afterTimer s.tmr.tcnt (buttonGet s.btn i) :=
    timerBody_button (dispatched s) i
  rw [afterTimer_eq] at hafter
  cases hb : buttonGet s.btn i with
  | up | pressed =>
    rw [hb] at hafter
    have hevents := timerBody_press_count_of_not_crossed (s := dispatched s) (i := i) (by simp [hb, crosses])
    exact .stays (hafter.trans hb.symm) hevents fun _ r hr => by simp [hb] at hr
  | down r =>
    rw [hb] at hafter
    by_cases hr : s.tmr.tcnt < r
    · have hnot : ¬ crosses s.tmr.tcnt (buttonGet s.btn i) = true := by rw [hb, crosses_down]; omega
      have hevents := timerBody_press_count_of_not_crossed (s := dispatched s) hnot
      refine .elapse r hn hb hr (hafter.trans (if_pos hr)) hevents ?_
      rw [timerBody_tmr]
      exact (rearmed_fresh _ _).1
    · refine .fire r hn hb (by omega) (hafter.trans (if_neg hr)) ?_
      have hcross : crosses s.tmr.tcnt (buttonGet s.btn i) = true := by rw [hb, crosses_down]; omega
      rw [timerBody_press_count]
      simp [hcross]

theorem buttonMove_timebase (i : Button) {s : State} (h : Inv s) (hn : nextTurn s = .timebase) :
    ButtonMove i s (timebaseStep (takeTurn s)) := by
  refine .stays (by rw [timebaseStep_btn]; rfl) (by rw [timebaseStep_press]; rfl) fun _ r hr => ?_
  have hon : (takeTurn s).tmr.state ≠ .disabled := timer_on_of_down h hr
  rw [CountsTick, tick_of_timebase hn]
  exact (timebaseStep_tcnt hon).imp_right fun hx => ⟨hn, hx⟩

theorem isrBody_debouncer {src : Source} (hp : src ≠ .pinChange) (ht : src ≠ .timer) (s : State) :
    (isrBody src s).btn = s.btn ∧ (isrBody src s).press = s.press ∧ (isrBody src s).tmr = s.tmr := by
  cases src with
  | usartRx =>
    rw [isrBody, usartRxBody_eq]
    exact ⟨rfl, rfl, rfl⟩
  | usartUdre =>
    rw [isrBody, usartUdreBody_eq]
    split <;> exact ⟨rfl, rfl, rfl⟩
  | pinChange => exact absurd rfl hp
  | timer => exact absurd rfl ht

theorem buttonMove_isr (i : Button) {src : Source} {s : State} (h : Inv s) (hn : nextTurn s = .int src) :
    ButtonMove i s (isrBody src (dispatched s)) := by
  by_cases hp : src = .pinChange
  · subst hp
    exact buttonMove_pinChange i h hn
  · by_cases ht : src = .timer
    · subst ht
      exact buttonMove_timer i hn
    · obtain ⟨hbtn, hpress, htmr⟩ := isrBody_debouncer hp ht (dispatched s)
      exact buttonMove_of_same i hbtn hpress htmr fun _ => by simp [hn]

/-- A step of the block moves each button as the debouncer's rules do. -/
theorem step_buttonMove (i : Button) {s t : State} (h : Inv s) (hc : ForegroundClient s) (hs : step s = .next t) :
    ButtonMove i s t := by
  obtain ⟨-, -, ⟨hb, rfl⟩ | ⟨-, hagent⟩⟩ := step_next_cases (queuesReady_of_inv h) hc hs
  · exact buttonMove_of_same i rfl rfl rfl fun e => by simp [hb] at e
  · rcases hagent with ⟨hn, hfg⟩ | ⟨src, hn, ⟨-, -, rfl⟩ | ⟨-, rfl⟩⟩ | ⟨hn, rfl⟩ | ⟨hn, rfl⟩ | ⟨j, hn, rfl⟩ | ⟨hn, rfl⟩
    · have hframe := hfg.frame
      exact buttonMove_of_same i (by rw [hframe]) (by rw [hframe]) (by rw [hframe]) fun _ => by simp [hn]
    · exact buttonMove_isr i h hn
    · exact buttonMove_of_same i rfl rfl rfl fun _ => by simp [hn]
    · refine buttonMove_of_same i ?_ ?_ ?_ fun _ => by simp [hn]
      all_goals unfold lineTxStep; split <;> rfl
    · refine buttonMove_of_same i ?_ ?_ ?_ fun _ => by simp [hn]
      all_goals unfold hostStep; split <;> rfl
    · exact buttonMove_of_same i rfl rfl rfl fun _ => by simp [hn]
    · exact buttonMove_timebase i h hn

/-- A press sampled in Compensated mode has the whole delay left on top of the ticks counted (R311). -/
theorem ButtonMove.delay_of_press {i : Button} {s t : State} (hmove : ButtonMove i s t)
    (hm : s.cfg.debounceMode = .compensated) (hup : buttonGet s.btn i = .up)
    (hdown : isDown (buttonGet t.btn i) = true) :
    buttonGet t.btn i = .down (s.cfg.debounceDelay + t.tmr.tcnt) ∧ t.press.count i = s.press.count i := by
  cases hmove with
  | stays state events _ => simp [state, hup, isDown] at hdown
  | press _ _ _ after events clock => exact ⟨by rw [after, clock hm], events⟩
  | release _ _ after _ => simp [after, isDown] at hdown
  | elapse r _ before _ _ _ _ => cases hup.symm.trans before
  | fire r _ before _ _ _ => cases hup.symm.trans before

/-! ## Runs and their ticks -/

/-- What every state of a run from a booted block of a foreground client keeps. -/
abbrev Live (s : State) : Prop := Inv s ∧ ForegroundClient s ∧ s.booted = true

theorem step_cfg_booted {s t : State} (h : Inv s) (hc : ForegroundClient s) (hs : step s = .next t) :
    t.cfg = s.cfg ∧ t.booted = true := by
  obtain ⟨-, -, ⟨-, rfl⟩ | ⟨hb, hagent⟩⟩ := step_next_cases (queuesReady_of_inv h) hc hs
  · exact ⟨rfl, rfl⟩
  · rcases hagent with ⟨-, hfg⟩ | ⟨src, -, ⟨-, -, rfl⟩ | ⟨-, rfl⟩⟩ | ⟨-, rfl⟩ | ⟨-, rfl⟩ | ⟨j, -, rfl⟩ | ⟨-, rfl⟩
    · rw [hfg.frame]
      exact ⟨rfl, hb⟩
    · rw [isrBody_frame]
      exact ⟨rfl, hb⟩
    · exact ⟨rfl, hb⟩
    · unfold lineTxStep
      split <;> exact ⟨rfl, hb⟩
    · unfold hostStep
      split <;> exact ⟨rfl, hb⟩
    · exact ⟨rfl, hb⟩
    · rw [timebaseStep_frame]
      exact ⟨rfl, hb⟩

theorem step_live {s t : State} (h : Inv s) (hc : ForegroundClient s) (hs : step s = .next t) : Live t :=
  ⟨step_inv h hc hs, step_foregroundClient hc hs, (step_cfg_booted h hc hs).2⟩

theorem runSteps_live {n : Nat} {s t : State} (h : Live s) (hs : runSteps n s = some t) : Live t := by
  obtain ⟨hinv, hc, hb⟩ := h
  exact runSteps_related (R := fun s t => Live s → Live t) (fun _ => id) (fun _ _ _ hsu hut => hut ∘ hsu)
    (fun _ _ hi hc hst _ => step_live hi hc hst) hinv hc hs ⟨hinv, hc, hb⟩

theorem runSteps_cons {n : Nat} {s u t : State} (hs : step s = .next u) (h : runSteps n u = some t) :
    runSteps (n + 1) s = some t := by
  simp [runSteps, hs, h]

theorem runSteps_append {m n : Nat} {s u t : State} (hs : runSteps m s = some u) (h : runSteps n u = some t) :
    runSteps (m + n) s = some t := by
  induction m generalizing s with
  | zero =>
    obtain rfl := Option.some.inj hs
    rwa [Nat.zero_add]
  | succ m ih =>
    obtain ⟨v, hv, hrest⟩ := runSteps_succ hs
    rw [Nat.succ_add]
    exact runSteps_cons hv (ih hrest)

theorem tickTurns_cons {n : Nat} {s u : State} (hs : step s = .next u) :
    tickTurns (n + 1) s = tick s + tickTurns n u := by
  simp [tickTurns, tick, hs]

/-- The last step of a run, and its tick. -/
theorem runSteps_last {n : Nat} {s t : State} (h : runSteps (n + 1) s = some t) :
    ∃ v, runSteps n s = some v ∧ step v = .next t ∧ tickTurns (n + 1) s = tickTurns n s + tick v := by
  induction n generalizing s with
  | zero =>
    obtain ⟨u, hu, hrest⟩ := runSteps_succ h
    obtain rfl := Option.some.inj hrest
    exact ⟨s, rfl, hu, (tickTurns_cons hu).trans (Nat.add_comm _ _)⟩
  | succ n ih =>
    obtain ⟨u, hu, hrest⟩ := runSteps_succ h
    obtain ⟨v, hv, hstep, hticks⟩ := ih hrest
    refine ⟨v, runSteps_cons hu hv, hstep, ?_⟩
    rw [tickTurns_cons hu, hticks, tickTurns_cons hu, Nat.add_assoc]

/-! ## A press that stays Down (R322) -/

/-- Button `i` is Down with at least what `k` ticks leave of the delay `d`, on top of the ticks the timer has
counted. -/
def DelayOwed (i : Button) (d k : Nat) (s : State) : Prop :=
  ∃ r, buttonGet s.btn i = .down r ∧ d + s.tmr.tcnt ≤ r + k

theorem delayOwed_of_move {i : Button} {d k : Nat} {s t : State} (hb : s.booted = true) (hmove : ButtonMove i s t)
    (hdown : isDown (buttonGet t.btn i) = true) (h : DelayOwed i d k s) : DelayOwed i d (k + tick s) t := by
  obtain ⟨r, hr, howed⟩ := h
  cases hmove with
  | stays state _ clock =>
    refine ⟨r, state.trans hr, ?_⟩
    rcases clock hb r hr with hcount | ⟨-, -, hcount⟩ <;> omega
  | press _ _ before _ _ _ => cases hr.symm.trans before
  | release _ _ after _ => simp [after, isDown] at hdown
  | elapse r' _ before left after _ clock =>
    obtain rfl : r = r' := by simpa [hr] using before
    exact ⟨_, after, by omega⟩
  | fire _ _ _ _ after _ => simp [after, isDown] at hdown

theorem delayOwed_of_run {i : Button} {d n : Nat} {s t : State} (hl : Live s)
    (hdown : ∀ m, m ≤ n → ∀ v, runSteps m s = some v → isDown (buttonGet v.btn i) = true)
    (h : DelayOwed i d 0 s) (hs : runSteps n s = some t) : DelayOwed i d (tickTurns n s) t := by
  induction n generalizing t with
  | zero =>
    obtain rfl := Option.some.inj hs
    exact h
  | succ n ih =>
    obtain ⟨v, hv, hstep, hticks⟩ := runSteps_last hs
    obtain ⟨hinv, hc, hb⟩ := runSteps_live hl hv
    rw [hticks]
    exact delayOwed_of_move hb (step_buttonMove i hinv hc hstep) (hdown _ le_rfl t hs)
      (ih (fun m hm => hdown m (Nat.le_succ_of_le hm)) hv)

/-- A button that fires owes nothing. -/
theorem delay_le_of_fire {i : Button} {d k : Nat} {s t : State} (hmove : ButtonMove i s t) (h : DelayOwed i d k s)
    (hp : buttonGet t.btn i = .pressed) : d ≤ k := by
  obtain ⟨r, hr, howed⟩ := h
  cases hmove with
  | stays state _ _ => cases hr.symm.trans (state.symm.trans hp)
  | press _ _ before _ _ _ => cases hr.symm.trans before
  | release _ _ after _ => cases hp.symm.trans after
  | elapse _ _ _ _ after _ _ => cases hp.symm.trans after
  | fire r' _ before crossed _ _ =>
    obtain rfl : r = r' := by simpa [hr] using before
    omega

/-! ## A press held until it fires (R321) -/

/-- Where a press of button `i` sampled in `s₀` and held stands after `k` ticks: it waits with the rest of its delay
left on top of the ticks counted, and no event; or the delay is over and it has fired once. -/
inductive HeldPress (i : Button) (s₀ : State) (k : Nat) (s : State) : Prop
  | waits (left : Nat) (total : left + k = s₀.cfg.debounceDelay)
      (state : buttonGet s.btn i = .down (left + s.tmr.tcnt)) (events : s.press.count i = s₀.press.count i)
  | fired (total : s₀.cfg.debounceDelay ≤ k) (state : buttonGet s.btn i = .pressed)
      (events : s.press.count i = s₀.press.count i + if hasCallback s₀.cfg i = true then 1 else 0)

theorem heldPress_of_press {i : Button} {s t : State} (hmove : ButtonMove i s t)
    (hm : s.cfg.debounceMode = .compensated) (hup : buttonGet s.btn i = .up)
    (hdown : isDown (buttonGet t.btn i) = true) : HeldPress i s 0 t := by
  obtain ⟨hstate, hevents⟩ := hmove.delay_of_press hm hup hdown
  exact .waits _ rfl hstate hevents

theorem heldPress_of_move {i : Button} {k : Nat} {s₀ s t : State} (h : Inv s) (hb : s.booted = true)
    (hmove : ButtonMove i s t) (hcfg : s.cfg = s₀.cfg) (hpin : buttonGet s.pin i = true)
    (htick : nextTurn s = .timebase → s.tmr.state ≠ .expired) (hp : HeldPress i s₀ k s) :
    HeldPress i s₀ (k + tick s) t := by
  cases hp with
  | waits left total state events =>
    cases hmove with
    | stays same noEvent clock =>
      have hcount := (clock hb _ state).resolve_right fun ⟨hn, hx, _⟩ => htick hn hx
      by_cases hn : nextTurn s = .timebase
      · have hpos := tcnt_lt_of_down h state (htick hn)
        rw [tick_of_timebase hn] at hcount ⊢
        refine .waits (left - 1) (by omega) ?_ (noEvent.trans events)
        rw [same, state, hcount]
        congr 1
        omega
      · rw [tick_of_other hn] at hcount ⊢
        exact .waits left total (by rw [same, state, hcount]; rfl) (noEvent.trans events)
    | press _ _ before _ _ _ => cases state.symm.trans before
    | release _ level _ _ => cases hpin.symm.trans level
    | elapse r turn before more after noEvent clock =>
      obtain rfl : left + s.tmr.tcnt = r := by simpa [state] using before
      rw [tick_of_other (by simp [turn])]
      exact .waits left total (by rw [after, clock, Nat.add_sub_cancel]; rfl) (noEvent.trans events)
    | fire r turn before crossed after event =>
      obtain rfl : left + s.tmr.tcnt = r := by simpa [state] using before
      exact .fired (by omega) after (by rw [event, events, hcfg])
  | fired total state events =>
    cases hmove with
    | stays same noEvent _ => exact .fired (by omega) (same.trans state) (noEvent.trans events)
    | press _ _ before _ _ _ => cases state.symm.trans before
    | release _ level _ _ => cases hpin.symm.trans level
    | elapse _ _ before _ _ _ _ => cases state.symm.trans before
    | fire _ _ before _ _ _ => cases state.symm.trans before

/-- Before the delay's last tick the press waits; from then on it waits only for a timer ISR that is due. -/
theorem heldPress_outcome {i : Button} {k : Nat} {s t : State} (h : Inv t) (hp : HeldPress i s k t) :
    (k < s.cfg.debounceDelay → isDown (buttonGet t.btn i) = true ∧ t.press.count i = s.press.count i) ∧
    (s.cfg.debounceDelay ≤ k → t.tmr.state ≠ .expired → buttonGet t.btn i = .pressed ∧
      t.press.count i = s.press.count i + if hasCallback s.cfg i = true then 1 else 0) := by
  cases hp with
  | waits left total state events =>
    refine ⟨fun _ => ⟨by rw [state]; rfl, events⟩, fun hk hx => ?_⟩
    have := tcnt_lt_of_down h state hx
    omega
  | fired total state events => exact ⟨fun hk => by omega, fun _ _ => ⟨state, events⟩⟩

theorem runSteps_cfg {n : Nat} {s t : State} (h : Live s) (hs : runSteps n s = some t) : t.cfg = s.cfg := by
  obtain ⟨hinv, hc, -⟩ := h
  exact runSteps_related (R := fun s t => t.cfg = s.cfg) (fun _ => rfl) (fun _ _ _ hsu hut => hut.trans hsu)
    (fun _ _ hi hc hst => (step_cfg_booted hi hc hst).1) hinv hc hs

theorem heldPress_of_run {i : Button} {n : Nat} {s₀ s t : State} (hl : Live s) (hcfg : s.cfg = s₀.cfg)
    (hrun : ∀ m, m ≤ n → ∀ v, runSteps m s = some v →
      buttonGet v.pin i = true ∧ (m < n → nextTurn v = .timebase → v.tmr.state ≠ .expired))
    (hp : HeldPress i s₀ 0 s) (hs : runSteps n s = some t) : HeldPress i s₀ (tickTurns n s) t := by
  induction n generalizing t with
  | zero =>
    obtain rfl := Option.some.inj hs
    exact hp
  | succ n ih =>
    obtain ⟨v, hv, hstep, hticks⟩ := runSteps_last hs
    obtain ⟨hinv, hc, hb⟩ := runSteps_live hl hv
    obtain ⟨hpin, htick⟩ := hrun n n.le_succ v hv
    have hbefore : HeldPress i s₀ (tickTurns n s) v := by
      refine ih (fun m hm u hu => ?_) hv
      obtain ⟨hpin', htick'⟩ := hrun m (Nat.le_succ_of_le hm) u hu
      exact ⟨hpin', fun hlt => htick' (Nat.lt_succ_of_lt hlt)⟩
    rw [hticks]
    exact heldPress_of_move hinv hb (step_buttonMove i hinv hc hstep) ((runSteps_cfg hl hv).trans hcfg) hpin
      (htick n.lt_succ_self) hbefore

/-! ## The run in which the timer ISR follows every tick (R321) -/

/-- A block whose dispatcher and timebase may step. -/
abbrev Ready (s : State) : Prop := Inv s ∧ s.fault = none ∧ Dispatching s

theorem running_of_ready {s : State} (h : Ready s) : Running s := by
  obtain ⟨⟨hcfg, -⟩, hf, hb, -⟩ := h
  exact ⟨hcfg, hf, hb⟩

/-- A turn of the dispatcher or the timebase that leaves the block ready for the turns after it. -/
structure ReadyTurn (i : Button) (s t : State) : Prop where
  stepped : step s = .next t
  ready : Ready t
  turns : t.turns = s.turns.drop 1
  pin : t.pin = s.pin
  cfg : t.cfg = s.cfg
  move : ButtonMove i s t

theorem readyTurn_isr (i : Button) {src : Source} {s : State} (h : Ready s) (hn : nextTurn s = .int src)
    (hr : requesting src s = true) : ReadyTurn i s (isrBody src (dispatched s)) := by
  obtain ⟨hinv, hf, hb, hg, hi⟩ := h
  have hrun : exec (isrOf src) (dispatched s) = .next (isrBody src (dispatched s)) :=
    exec_isr_taken rfl hg ((requesting_takeTurn src s).trans hr)
  refine ⟨(step_interrupt (running_of_ready ⟨hinv, hf, hb, hg, hi⟩) hn hg hr hi).trans hrun,
    ⟨inv_isrBody src hinv, ?_⟩, ?_, ?_, ?_, buttonMove_isr i hinv hn⟩
  all_goals rw [isrBody_frame]
  · exact ⟨hf, hb, hg, hi⟩
  all_goals rfl

theorem readyTurn_not_requesting (i : Button) {src : Source} {s : State} (h : Ready s) (hn : nextTurn s = .int src)
    (hr : requesting src s = false) : ReadyTurn i s (takeTurn s) :=
  ⟨(step_of_running (running_of_ready h) hn).trans
      (interruptStep_of_not_taken (.inr ((requesting_takeTurn src s).trans hr))),
    h, rfl, rfl, rfl, buttonMove_of_same i rfl rfl rfl fun _ => by simp [hn]⟩

theorem readyTurn_timebase (i : Button) {s : State} (h : Ready s) (hn : nextTurn s = .timebase)
    (hx : s.tmr.state ≠ .expired) : ReadyTurn i s (timebaseStep (takeTurn s)) := by
  have hstep := step_of_running (running_of_ready h) hn
  obtain ⟨hinv, hf, hd⟩ := h
  have hfault : (timebaseStep (takeTurn s)).fault = none := (timebaseStep_fault (s := takeTurn s) hx).trans hf
  have hinv' : Inv (timebaseStep (takeTurn s)) := inv_timebaseStep (s := takeTurn s) hinv
  refine ⟨hstep, ⟨hinv', hfault, ?_⟩, ?_, ?_, ?_, buttonMove_timebase i hinv hn⟩
  all_goals rw [timebaseStep_frame]
  · exact hd
  all_goals rfl

/-- After a turn of the timer interrupt no compare match waits. -/
theorem readyTurn_timer (i : Button) {s : State} (h : Ready s) (hn : nextTurn s = .int .timer) :
    ∃ t, ReadyTurn i s t ∧ t.tmr.state ≠ .expired := by
  cases hr : requesting .timer s with
  | true =>
    refine ⟨_, readyTurn_isr i h hn hr, ?_⟩
    rw [isrBody, timerBody_tmr]
    exact (rearmed_fresh _ _).2
  | false =>
    refine ⟨_, readyTurn_not_requesting i h hn hr, fun hx => ?_⟩
    cases hr.symm.trans ((requesting_timer_iff s).2 hx)

/-- A press held for `k` ticks in a ready block with these turns to come. -/
structure Holding (i : Button) (s₀ : State) (k : Nat) (turns : List Turn) (s : State) : Prop where
  ready : Ready s
  turns : s.turns = turns
  pin : buttonGet s.pin i = true
  cfg : s.cfg = s₀.cfg
  held : HeldPress i s₀ k s

theorem Holding.nextTurn_eq {i : Button} {s₀ s : State} {k : Nat} {a : Turn} {rest : List Turn}
    (h : Holding i s₀ k (a :: rest) s) : nextTurn s = a := by
  simp [nextTurn, h.turns]

theorem Holding.of_readyTurn {i : Button} {s₀ s t : State} {k : Nat} {a : Turn} {rest : List Turn}
    (h : Holding i s₀ k (a :: rest) s) (hx : a = .timebase → s.tmr.state ≠ .expired) (ht : ReadyTurn i s t) :
    Holding i s₀ (k + tick s) rest t := by
  obtain ⟨hinv, -, hb, -⟩ := h.ready
  exact ⟨ht.ready, by rw [ht.turns, h.turns]; rfl, by rw [ht.pin]; exact h.pin, ht.cfg.trans h.cfg,
    heldPress_of_move hinv hb ht.move h.cfg h.pin (fun hn => hx (h.nextTurn_eq.symm.trans hn)) h.held⟩

theorem Holding.timer_turn {i : Button} {s₀ s : State} {k : Nat} {rest : List Turn}
    (h : Holding i s₀ k (.int .timer :: rest) s) :
    ∃ t, step s = .next t ∧ Holding i s₀ k rest t ∧ t.tmr.state ≠ .expired := by
  obtain ⟨t, ht, hx⟩ := readyTurn_timer i h.ready h.nextTurn_eq
  have hheld := h.of_readyTurn nofun ht
  rw [tick_of_other (by simp [h.nextTurn_eq])] at hheld
  exact ⟨t, ht.stepped, hheld, hx⟩

theorem Holding.tick_turn {i : Button} {s₀ s : State} {k : Nat} {rest : List Turn}
    (h : Holding i s₀ k (.timebase :: rest) s) (hx : s.tmr.state ≠ .expired) :
    ∃ t, step s = .next t ∧ Holding i s₀ (k + 1) rest t := by
  have ht := readyTurn_timebase i h.ready h.nextTurn_eq hx
  have hheld := h.of_readyTurn (fun _ => hx) ht
  rw [tick_of_timebase h.nextTurn_eq] at hheld
  exact ⟨_, ht.stepped, hheld⟩

/-- `j` rounds of a tick and a timer interrupt's turn count `j` ticks. -/
theorem Holding.rounds {i : Button} {s₀ s : State} {k : Nat} (j : Nat) {rest : List Turn}
    (h : Holding i s₀ k ((List.replicate j [Turn.timebase, Turn.int .timer]).flatten ++ rest) s)
    (hx : s.tmr.state ≠ .expired) :
    ∃ t, runSteps (2 * j) s = some t ∧ Holding i s₀ (k + j) rest t ∧ t.tmr.state ≠ .expired := by
  induction j generalizing s k with
  | zero => exact ⟨s, rfl, h, hx⟩
  | succ j ih =>
    obtain ⟨u, hu, hcounted⟩ := Holding.tick_turn h hx
    obtain ⟨v, hv, hserved, hx'⟩ := hcounted.timer_turn
    obtain ⟨t, ht, hlast, hx''⟩ := ih hserved hx'
    refine ⟨t, runSteps_cons hu (runSteps_cons hv ht), ?_, hx''⟩
    rwa [Nat.add_assoc, Nat.add_comm 1 j] at hlast

/-- The pin-change interrupt's turn that samples the press. -/
theorem holding_of_press {i : Button} {s : State} (h : Ready s) (hm : s.cfg.debounceMode = .compensated)
    (hf : s.pcif = true) (hpin : buttonGet s.pin i = true) (hup : buttonGet s.btn i = .up)
    (hn : nextTurn s = .int .pinChange) : ∃ p, step s = .next p ∧ Holding i s 0 (s.turns.drop 1) p := by
  have ⟨⟨_, ⟨_, hpcie⟩, _⟩, _⟩ := h
  have ht := readyTurn_isr i h hn (requesting_pinChange hf hpcie)
  have hafter := pcintBody_button (dispatched s) i
  simp only [takeTurn_pin, takeTurn_btn, hpin, hup, sampleButton_press] at hafter
  exact ⟨_, ht.stepped, ht.ready, ht.turns, by rw [ht.pin]; exact hpin, ht.cfg,
    heldPress_of_press ht.move hm hup ((isDown_iff _).2 ⟨_, hafter⟩)⟩

/-! ## Statements -/

/-- Settles O27: the body of the ISR, `pcintBody_eq`, with its timer and buttons written out. -/
theorem pinChangeIsrSamplesTheButtons : Obligations.PinChangeIsrSamplesTheButtons := by
  unfold Obligations.PinChangeIsrSamplesTheButtons
  refine ⟨fun _ => rfl, ?_⟩
  intro s hi hg hf he off sampled
  have hoff : pressOffset s = off := by
    unfold pressOffset off
    cases s.cfg.debounceMode <;> cases s.tmr.state <;> rfl
  have hsampled : ∀ level b, sampleButton (s.cfg.debounceDelay + off) level b = sampled level b := by
    intro level b
    cases level <;> cases b <;> rfl
  rw [exec_isrPcint hi hg hf he, pcintBody_eq, sampledButtons, hoff, hsampled, hsampled, afterPins]
  simp only [allUp_iff]

/-- Settles O28: the body of the ISR, `timerBody_eq`; the live times are the remaining times above the ticks counted. -/
theorem timerIsrFiresCrossedButtons : Obligations.TimerIsrFiresCrossedButtons := by
  unfold Obligations.TimerIsrFiresCrossedButtons
  refine ⟨fun _ => rfl, ?_⟩
  intro s hi hg hx e fires left after
  have hfires : ∀ b, crosses s.tmr.tcnt b = fires b := by
    intro b
    cases b <;> rfl
  have hleft : ∀ b, liveTime (elapse s.tmr.tcnt b) = left b := by
    intro b
    rw [liveTime_elapse]
    cases b <;> rfl
  have hafter : ∀ b, afterTimer s.tmr.tcnt b = after b := by
    intro b
    cases b with
    | up => rfl
    | pressed => rfl
    | down r =>
      rw [afterTimer_eq]
      by_cases hr : r ≤ e
      · exact (if_neg (Nat.not_lt.2 hr)).trans (if_pos hr).symm
      · exact (if_pos (Nat.lt_of_not_le hr)).trans (if_neg hr).symm
  rw [exec_isrTimer hi hg hx, timerBody_eq, rearmed, leastLive]
  simp only [hfires, hleft, hafter]
  cases left s.btn.b0 <;> cases left s.btn.b1 <;> rfl

/-- Settles O30: `HeldPress` holds from the sampling of the press along every run, and along the rounds of a tick and a
timer interrupt's turn, which exist. -/
theorem heldPressFiresOnceAfterTheDelay : Obligations.HeldPressFiresOnceAfterTheDelay := by
  unfold Obligations.HeldPressFiresOnceAfterTheDelay
  constructor
  · intro i n s p t h hc ⟨_, hf, hb⟩ hg hi hm hpcif hpin hup hn hp hrun ht
    obtain ⟨p', hp', hsampled⟩ := holding_of_press ⟨h, hf, hb, hg, hi⟩ hm hpcif hpin hup hn
    obtain rfl := Host.Outcome.next.inj (hp'.symm.trans hp)
    have hl := step_live h hc hp
    obtain ⟨hinv, -⟩ := runSteps_live hl ht
    exact heldPress_outcome hinv (heldPress_of_run hl hsampled.cfg hrun hsampled.held ht)
  · intro i s rest h ⟨_, hf, hb⟩ hg hi hm hpcif hpin hup hturns j hj
    obtain ⟨p, hp, hsampled⟩ :=
      holding_of_press ⟨h, hf, hb, hg, hi⟩ hm hpcif hpin hup (by simp [nextTurn, hturns])
    obtain ⟨d, hd⟩ := Nat.exists_eq_add_of_le hj
    rw [hturns, hd, List.replicate_add, List.flatten_append, List.append_assoc, List.append_assoc] at hsampled
    obtain ⟨q, hq, hserved, hx⟩ := Holding.timer_turn hsampled
    obtain ⟨t, ht, hheld, hx'⟩ := Holding.rounds j hserved hx
    obtain ⟨hinv, -⟩ := hheld.ready
    have hj0 := hheld.held
    rw [Nat.zero_add] at hj0
    obtain ⟨hbefore, hlast⟩ := heldPress_outcome hinv hj0
    exact ⟨t, runSteps_append (m := 2) (runSteps_cons hp (runSteps_cons hq rfl)) ht, hbefore,
      fun hjd => hlast hjd.ge hx'⟩

/-- Settles O31: `DelayOwed` holds from the press on while the button is Down, and a button that fires owes nothing. -/
theorem pressFiresOnlyAfterTheDelay : Obligations.PressFiresOnlyAfterTheDelay := by
  unfold Obligations.PressFiresOnlyAfterTheDelay
  intro i n s p t u h hc _ hm _ hup hp hdown hdowns ht hu hpressed
  have hl := step_live h hc hp
  obtain ⟨hpress, -⟩ := (step_buttonMove i h hc hp).delay_of_press hm hup hdown
  obtain ⟨hinv, hclient, -⟩ := runSteps_live hl ht
  have howed := delayOwed_of_run hl hdowns ⟨_, hpress, le_rfl⟩ ht
  exact delay_le_of_fire (step_buttonMove i hinv hclient hu) howed hpressed

/-- Settles O32: read off from the moves of a button. -/
theorem atMostOnePressEventPerPress : Obligations.AtMostOnePressEventPerPress := by
  unfold Obligations.AtMostOnePressEventPerPress
  intro i s t h hc hs
  cases step_buttonMove i h hc hs with
  | stays state events _ =>
    rw [state, events]
    exact ⟨Nat.le_succ _, fun hne => absurd rfl hne, .inl, .inl⟩
  | press turn level before after events _ =>
    exact ⟨by omega, fun hne => absurd events hne, fun _ => .inr ⟨before, turn, level⟩,
      fun hp => by cases before.symm.trans hp⟩
  | release turn level after events =>
    exact ⟨by omega, fun hne => absurd events hne, fun hd => by simp [after, isDown] at hd,
      fun _ => .inr ⟨after, turn, level⟩⟩
  | elapse r turn before _ after events _ =>
    exact ⟨by omega, fun hne => absurd events hne, fun _ => .inl ((isDown_iff _).2 ⟨r, before⟩),
      fun hp => by cases before.symm.trans hp⟩
  | fire r turn before _ after events =>
    exact ⟨by split at events <;> omega, fun _ => ⟨turn, (isDown_iff _).2 ⟨r, before⟩, after⟩,
      fun _ => .inl ((isDown_iff _).2 ⟨r, before⟩), fun hp => by cases before.symm.trans hp⟩

/-- Settles O33: the timer ISR re-arms for `leastLive`, which is one Down button's time and at most every one's; the
invariants bound it by the debounce delay, so the clamp to TIMER_SPAN never acts. -/
theorem timerIsArmedForTheLeastTimeLeft : Obligations.TimerIsArmedForTheLeastTimeLeft := by
  unfold Obligations.TimerIsArmedForTheLeastTimeLeft
  refine ⟨fun s t hi hg hf he ht hup => ?_, fun s t hi hg hx ht => ?_, fun s t h hi hg hx ht => ?_⟩
  · have hrun : exec .isrPcint s = .next (pcintBody s) := exec_isrPcint hi hg hf he
    obtain rfl := Host.Outcome.next.inj (ht.symm.trans hrun)
    rw [pcintBody_tmr, hup]
    rfl
  · obtain rfl := Host.Outcome.next.inj (ht.symm.trans (exec_isrTimer hi hg hx))
    rw [timerBody_disabled_iff, Fin.forall_fin_two]
    rfl
  · obtain rfl := Host.Outcome.next.inj (ht.symm.trans (exec_isrTimer hi hg hx))
    cases hl : leastLive (elapsed s) with
    | none =>
      refine ⟨fun i r hr => ?_, fun hrunning => ?_⟩
      · rw [timerBody_down_iff, (leastLive_none_iff _).1 hl i] at hr
        cases hr
      · rw [timerBody_tmr, rearmed, hl] at hrunning
        cases hrunning
    | some m =>
      obtain ⟨⟨j, hj⟩, hleast⟩ := leastLive_some_least hl
      rw [timerBody_tmr_of_live h hl]
      refine ⟨fun i r hr => ?_, fun _ => ⟨j, (timerBody_down_iff s j m).2 hj⟩⟩
      have hlive := (timerBody_down_iff s i r).1 hr
      have hleft := hleast i r hlive
      rw [elapsed_button] at hlive
      exact ⟨hleft, (liveTime_elapse_bounded (buttonBounded_buttonGet h i) hlive).2⟩

/-- Settles O26: the rules of PINS and TIMEBASE, case by case. -/
theorem pinsAndTimebaseStep : Obligations.PinsAndTimebaseStep := by
  unfold Obligations.PinsAndTimebaseStep
  intro s h
  have htick : nextTurn s = .timebase → step s = .next (timebaseStep (takeTurn s)) := step_of_running h
  refine ⟨fun hn => ?_, fun hn => ?_, fun hn hx => ?_, fun hn hx => ?_, fun hn hx hspan => ?_,
    fun hn hx hspan => ?_⟩ <;> refine ⟨s.turns.drop 1, s.turnNo + 1, ?_⟩
  · exact step_of_running h hn
  · exact step_of_running h hn
  · rw [htick hn, timebaseStep_of_disabled (s := takeTurn s) hx]
    rfl
  · rw [htick hn, timebaseStep_of_running (s := takeTurn s) hx]
    rfl
  · rw [htick hn, timebaseStep_of_overrun (s := takeTurn s) hx hspan]
    rfl
  · rw [htick hn, timebaseStep_of_expired (s := takeTurn s) hx hspan]
    rfl

/-- Settles O29: the operand's range is `legalTicks_iff`; within it the internal issuer is allowed. -/
theorem timerArmAndDisable : Obligations.TimerArmAndDisable := by
  unfold Obligations.TimerArmAndDisable
  refine ⟨fun _ _ => ⟨rfl, rfl⟩, fun s hi => ⟨fun d hlow hhigh => ?_, fun d hd => ?_, ?_⟩⟩
  · have hlegal := (legalTicks_iff d).2 ⟨hlow, hhigh⟩
    simp only [exec, execTimerArm, issueChecked, hlegal, if_true]
    exact congrArg _ (issue_allowed (by simp [hi]))
  · refine exec_timerArm_illegal (Bool.eq_false_iff.2 fun hl => ?_) s
    have := (legalTicks_iff d).1 hl
    omega
  · exact congrArg Host.Outcome.next (issue_allowed (by simp [hi]))

end Sys2Proof.Laws
end

section
/-! Support for the statements about exceptions (60_exceptions.md): interrupts, faults and refusals. No step takes a
refusal out of the record (R34), so an agent that is stopped stays stopped; what an ISR changes is read off the frame of
its body. The four statements are settled at the end. -/

namespace Sys2Proof.Laws

open Sys2Proof.Machine Sys2Proof.Safety

/-! ## Stopped agents (R362) -/

theorem stopped_iff (a : Issuer) (s : State) : stopped a s = true ↔ ∃ r, (a, r) ∈ s.refusals := by
  simp [stopped]

theorem stopped_refuse (r : RefuseReason) (s : State) : stopped s.issuer (refuse r s) = true := by
  rw [stopped_iff]
  exact ⟨r, by simp⟩

theorem stopped_of_refusals_prefix {a : Issuer} {s t : State} (h : s.refusals <+: t.refusals)
    (hs : stopped a s = true) : stopped a t = true := by
  obtain ⟨r, hr⟩ := (stopped_iff a s).1 hs
  exact (stopped_iff a t).2 ⟨r, h.subset hr⟩

theorem foregroundStep_of_stopped_fullEngine {s : State} (hl : s.cfg.launch = .fullEngine)
    (hs : stopped .fg s = true) : foregroundStep s = .next s := by
  simp [foregroundStep, hl, hs]

theorem foregroundStep_of_stopped_component {s : State} {e : PortEntry} (hl : s.cfg.launch = .component)
    (he : fetchEntry s = some e) (hs : stopped e.issuer s = true) : foregroundStep s = .next s := by
  simp [foregroundStep, hl, he, hs]

theorem interruptStep_of_stopped (src : Source) {s : State} (hs : stopped .int s = true) :
    interruptStep src s = .next s := by
  simp [interruptStep, hs]

/-! ## No step forgets a refusal (R34) -/

@[simp] theorem present_refusals (e : PortEntry) (s : State) : (present e s).refusals = s.refusals := by
  rw [present_frame]

@[simp] theorem settle_refusals (e : PortEntry) (i : Instr) (t : State) :
    (settle e i t).refusals = t.refusals := by
  rw [settle_frame]

theorem exec_refusals {i : Instr} {s t : State} (h : exec i s = .next t) : s.refusals <+: t.refusals := by
  obtain ⟨u, hx, -, hr, -⟩ := exec_frame i s
  obtain rfl := Host.Outcome.next.inj (hx.symm.trans h)
  exact hr

theorem issueEntry_refusals {e : PortEntry} {s t : State} (h : issueEntry e s = .next t) :
    s.refusals <+: t.refusals := by
  unfold issueEntry at h
  split at h
  case h_1 i _ =>
    obtain ⟨u, hx, -, hr, -⟩ := exec_frame i (present e s)
    rw [hx, mapNext] at h
    obtain rfl := Host.Outcome.next.inj h
    rwa [settle_refusals, ← present_refusals e s]
  case h_2 =>
    obtain rfl := Host.Outcome.next.inj h
    rw [refuse_refusals, present_refusals]
    exact List.prefix_append _ _
  case h_3 =>
    obtain rfl := Host.Outcome.next.inj h
    rw [raise_refusals, present_refusals]
  case h_4 => cases h
  case h_5 => cases h

theorem foregroundStep_refusals {s t : State} (h : foregroundStep s = .next t) : s.refusals <+: t.refusals := by
  have unchanged : ∀ {u : State}, Host.Outcome.next (φ := Fault) (ρ := Refusal) s = .next u →
      s.refusals <+: u.refusals := by
    rintro u ⟨⟩
    exact List.prefix_rfl
  cases hl : s.cfg.launch with
  | fullEngine =>
    cases hs : stopped .fg s with
    | true => exact unchanged ((foregroundStep_of_stopped_fullEngine hl hs).symm.trans h)
    | false => exact exec_refusals (s := { s with issuer := .fg }) ((foregroundStep_fullEngine hl hs).symm.trans h)
  | component =>
    cases he : fetchEntry s with
    | none => exact unchanged (by rwa [foregroundStep, hl, he] at h)
    | some e =>
      cases hs : stopped e.issuer s with
      | true => exact unchanged ((foregroundStep_of_stopped_component hl he hs).symm.trans h)
      | false => exact issueEntry_refusals ((foregroundStep_component hl he hs).symm.trans h)

theorem isrBody_refusals (src : Source) (s : State) : (isrBody src s).refusals = s.refusals := by
  rw [isrBody_frame]

theorem agentStep_refusals {a : Turn} {s t : State} (h : agentStep a s = .next t) : s.refusals <+: t.refusals := by
  cases a with
  | fg => exact foregroundStep_refusals h
  | int src =>
    rcases interruptStep_next h with ⟨-, -, rfl⟩ | ⟨-, rfl⟩
    · rw [isrBody_refusals]
    · exact List.prefix_rfl
  | lineTx =>
    obtain rfl := Host.Outcome.next.inj h
    unfold lineTxStep
    split <;> exact List.prefix_rfl
  | host =>
    obtain rfl := Host.Outcome.next.inj h
    unfold hostStep
    split <;> exact List.prefix_rfl
  | pins i =>
    obtain rfl := Host.Outcome.next.inj h
    exact List.prefix_rfl
  | timebase =>
    obtain rfl := Host.Outcome.next.inj h
    rw [timebaseStep_frame]

theorem step_refusals {s t : State} (h : step s = .next t) : s.refusals <+: t.refusals := by
  rcases step_cases s with ⟨-, e⟩ | ⟨-, c, -, e⟩ | ⟨-, -, -, e⟩ | ⟨-, -, -, e⟩
  · cases e.symm.trans h
  · cases e.symm.trans h
  · obtain rfl := Host.Outcome.next.inj (e.symm.trans h)
    exact List.prefix_rfl
  · exact agentStep_refusals (s := takeTurn s) (e.symm.trans h)

/-! ## Interrupts (R352 to R357) -/

/-- An ISR issued by the dispatcher changes at most its devices' registers, their queues and the press events. -/
theorem exec_isr_frame {src : Source} {s t : State} (hi : s.issuer = .int) (h : exec (isrOf src) s = .next t) :
    t = { s with
      rxq := t.rxq, rxDr := t.rxDr, rxc := t.rxc, txq := t.txq, txDr := t.txDr, udre := t.udre
      txState := t.txState, udrie := t.udrie, pcif := t.pcif, btn := t.btn, tmr := t.tmr, press := t.press } := by
  obtain rfl := Host.Outcome.next.inj ((exec_isr src hi).symm.trans h)
  split
  · exact isrBody_frame src s
  · rfl

theorem exec_isr_not_taken {src : Source} {s : State} (hi : s.issuer = .int)
    (h : s.gie = false ∨ requesting src s = false) : exec (isrOf src) s = .next s := by
  rw [exec_isr src hi, if_neg]
  rintro ⟨hg, hr⟩
  rcases h with h | h
  · cases hg.symm.trans h
  · cases hr.symm.trans h

/-! ## Faults (R360) -/

theorem step_of_fault {c : FaultCode} {s : State} (hl : configLegal s.cfg = true) (hf : s.fault = some c) :
    step s = .fault (.halted c) := by
  simp [step, hl, hf]

/-! ## The statements -/

/-- Settles O10: a refusal puts the issuer into the record, the record only grows (`step_refusals`), and an agent in it
has no step. -/
theorem refusedAgentHasNoFurtherStep : Obligations.RefusedAgentHasNoFurtherStep := by
  unfold Obligations.RefusedAgentHasNoFurtherStep
  exact ⟨fun r s => ⟨rfl, stopped_refuse r s⟩, fun _ => foregroundStep_of_stopped_fullEngine,
    fun _ _ => foregroundStep_of_stopped_component, fun src _ => interruptStep_of_stopped src,
    fun _ _ _ hs h => stopped_of_refusals_prefix (step_refusals h) hs⟩

/-- Settles O50: none of these fields is among those `exec_isr_frame` lets change. -/
theorem interruptsLeaveTheForegroundAlone : Obligations.InterruptsLeaveTheForegroundAlone := by
  unfold Obligations.InterruptsLeaveTheForegroundAlone
  intro src s t hi h
  rw [exec_isr_frame hi h]
  exact ⟨rfl, rfl, rfl, rfl, rfl, rfl, rfl, rfl, rfl, rfl, rfl, rfl⟩

/-- Settles O19: the dispatcher's own test, and the one made again at the ISR's entry, both ask for GIE and a
request. -/
theorem interruptIsTakenOnlyOnRequest : Obligations.InterruptIsTakenOnlyOnRequest := by
  unfold Obligations.InterruptIsTakenOnlyOnRequest
  refine ⟨fun s => ⟨rfl, rfl, rfl, ?timer⟩, fun src sig => ?vector, fun src s h => ?notTaken⟩
  case timer => rw [Bool.eq_iff_iff, requesting_timer_iff, beq_iff_eq]
  case vector => cases src <;> rfl
  case notTaken => exact ⟨interruptStep_of_not_taken h, fun hi => exec_isr_not_taken hi h⟩

/-- Settles O51: `step` looks at the fault before it gives any agent its turn (`step_of_fault`). -/
theorem faultStopsEveryAgent : Obligations.FaultStopsEveryAgent := by
  unfold Obligations.FaultStopsEveryAgent
  exact ⟨fun _ _ => rfl, fun _ _ => step_of_fault⟩

end Sys2Proof.Laws
end

section
/-! Support for the statements about reset, boot and what can hang the client (70_reset_and_hazards.md). A client that
waits with interrupts off (`MaskedWait`) is followed turn by turn: the foreground's attempt answers WouldBlock, the
dispatcher has no step, and no other agent writes what the wait depends on, so the wait goes on (`StillWaits`). The
three statements are settled at the end. -/

namespace Sys2Proof.Laws

open Sys2Proof.Machine Sys2Proof.Safety

/-! ## An attempt whose condition does not hold (R200 to R203, R205) -/

/-- Only the four blocking forms can be blocked, each by a well-formed operation that is repeated until it does not
answer WouldBlock (R108, R205). -/
theorem blocked_form {c : ClientOp} {s : State} (h : blocked c s = true) :
    issueMode c = .blocking ∧ endRule (realOp c) = .attempt ∧ unitClass (realOp c) = .operation ∧
      wellFormed (realOp c) = true := by
  cases c with
  | writeByteBlocking b => exact ⟨rfl, rfl, rfl, rfl⟩
  | writeBlocking bs =>
    obtain ⟨-, hlegal⟩ := (Bool.and_eq_true _ _).mp h
    exact ⟨rfl, rfl, rfl, hlegal⟩
  | readByteBlocking => exact ⟨rfl, rfl, rfl, rfl⟩
  | readBlocking len => exact ⟨rfl, rfl, rfl, rfl⟩
  | op i => cases h
  | criticalEnter => cases h
  | criticalExit => cases h

/-- The attempt of a blocked form answers WouldBlock and changes nothing (R190, R192, R194, R196). -/
theorem exec_realOp_of_blocked {c : ClientOp} {s : State} (hi : s.issuer = .fg) (h : blocked c s = true) :
    exec (realOp c) s = .next { s with result := some .wouldBlock } := by
  cases c with
  | writeByteBlocking b =>
    have hfull : ringFull s.txq = true := h
    rw [realOp, exec_writeByte hi, writeByteAttempt_eq, if_pos hfull]
    rfl
  | writeBlocking bs =>
    obtain ⟨hroom, -⟩ := (Bool.and_eq_true _ _).mp h
    rw [realOp, exec_write hi, writeAttempt_eq, if_pos (of_decide_eq_true hroom)]
    rfl
  | readByteBlocking =>
    have hempty : ringEmpty s.cfg.rxqN s.rxq = true := h
    rw [realOp, exec_readByte hi, readByteAttempt_eq, ringPop_empty hempty]
    rfl
  | readBlocking len =>
    rw [realOp, exec_read hi, readAttempt_eq, if_pos (of_decide_eq_true h)]
    rfl
  | op i => cases h
  | criticalEnter => cases h
  | criticalExit => cases h

/-! ## The wait -/

/-- With interrupts off, the client stands at the blocking form `c`, whose condition does not hold. -/
structure MaskedWait (c : ClientOp) (s : State) : Prop where
  legal : configLegal s.cfg = true
  booted : s.booted = true
  component : s.cfg.launch = .component
  masked : s.gie = false
  admitted : stopped .fg s = false
  fetched : fetchEntry s = some (portEntry s.cfg.signature .fg c)
  condition : blocked c s = true

/-- From `s` to `t` nothing changed that the wait depends on, and no fault arose but the overrun of a timer that is
on. -/
structure StillWaits (s t : State) : Prop where
  cfg : t.cfg = s.cfg
  booted : t.booted = s.booted
  gie : t.gie = s.gie
  refusals : t.refusals = s.refusals
  port : t.port = s.port
  idx : t.idx = s.idx
  rxq : t.rxq = s.rxq
  txq : t.txq = s.txq
  fault : t.fault = s.fault ∨ t.fault = some .timerOverrun
  disabled : s.tmr.state = .disabled → t.fault = s.fault ∧ t.tmr.state = .disabled

theorem StillWaits.refl (s : State) : StillWaits s s where
  cfg := rfl
  booted := rfl
  gie := rfl
  refusals := rfl
  port := rfl
  idx := rfl
  rxq := rfl
  txq := rfl
  fault := .inl rfl
  disabled := fun hd => ⟨rfl, hd⟩

theorem StillWaits.trans {s t u : State} (h : StillWaits s t) (h' : StillWaits t u) : StillWaits s u where
  cfg := h'.cfg.trans h.cfg
  booted := h'.booted.trans h.booted
  gie := h'.gie.trans h.gie
  refusals := h'.refusals.trans h.refusals
  port := h'.port.trans h.port
  idx := h'.idx.trans h.idx
  rxq := h'.rxq.trans h.rxq
  txq := h'.txq.trans h.txq
  fault := by
    rcases h'.fault with hf | hf
    · rw [hf]
      exact h.fault
    · exact .inr hf
  disabled := fun hd => by
    obtain ⟨hf, hd'⟩ := h.disabled hd
    obtain ⟨hf', hd''⟩ := h'.disabled hd'
    exact ⟨hf'.trans hf, hd''⟩

theorem MaskedWait.of_stillWaits {c : ClientOp} {s t : State} (h : MaskedWait c s) (hw : StillWaits s t) :
    MaskedWait c t where
  legal := by rw [hw.cfg, h.legal]
  booted := by rw [hw.booted, h.booted]
  component := by rw [hw.cfg, h.component]
  masked := by rw [hw.gie, h.masked]
  admitted := by rw [stopped, hw.refusals, ← stopped, h.admitted]
  fetched := by rw [fetchEntry, hw.port, hw.idx, ← fetchEntry, hw.cfg, h.fetched]
  condition := by
    rw [← h.condition]
    unfold blocked txqFree
    rw [hw.cfg, hw.rxq, hw.txq]

/-! ## The agents' turns while the client waits -/

theorem takeTurn_stillWaits (s : State) : StillWaits s (takeTurn s) :=
  { StillWaits.refl s with }

/-- The foreground's attempt answers WouldBlock, so the client stays (R205). -/
theorem foregroundStep_of_maskedWait {c : ClientOp} {s : State} (h : MaskedWait c s) :
    foregroundStep s = .next { s with issuer := .fg, result := some .wouldBlock } := by
  obtain ⟨hmode, hend, hclass, hwf⟩ := blocked_form h.condition
  let e := portEntry s.cfg.signature .fg c
  have hbytes : issuedBytes e s = encode s.cfg.signature (realOp c) :=
    issuedBytes_of_ne_restoreToken (e := e) (by simp [e, portEntry, hmode]) s
  have hdecode : decodeUnit s.cfg.signature e.cls (issuedBytes e s) = .ok (realOp c) := by
    rw [hbytes]
    exact decodeUnit_encode s.cfg.signature hwf
  have hpresent : present e s = { s with issuer := .fg } := by simp [present, e, portEntry, hclass]
  have hexec : exec (realOp c) (present e s) = .next { s with issuer := .fg, result := some .wouldBlock } := by
    rw [hpresent]
    exact exec_realOp_of_blocked rfl h.condition
  rw [foregroundStep_component h.component h.fetched h.admitted, issueEntry_of_decode hdecode, hexec, mapNext,
    settle_of_not_ended]
  intro hended
  obtain ⟨-, -, -, hanswer⟩ := (opEnded_iff _ _ _).1 hended
  exact hanswer ⟨hmode, hend, rfl⟩

theorem lineTxStep_stillWaits (s : State) : StillWaits s (lineTxStep s) := by
  cases hb : s.txDr with
  | none =>
    rw [lineTxStep_of_empty hb]
    exact .refl s
  | some b =>
    rw [lineTxStep_of_byte hb]
    exact { StillWaits.refl s with }

theorem hostStep_stillWaits (s : State) : StillWaits s (hostStep s) := by
  cases hb : s.hostRx[s.hostRxPos]? with
  | none =>
    rw [hostStep_of_exhausted (List.getElem?_eq_none_iff.1 hb)]
    exact .refl s
  | some b =>
    rw [hostStep_of_byte hb]
    exact { StillWaits.refl s with }

theorem pinsStep_stillWaits (i : Button) (s : State) : StillWaits s (pinsStep i s) :=
  { StillWaits.refl s with }

/-- A tick raises no fault but TIMER_OVERRUN (R304). -/
theorem timebaseStep_fault_cases (s : State) :
    (timebaseStep s).fault = s.fault ∨ (timebaseStep s).fault = some .timerOverrun := by
  by_cases hx : s.tmr.state = .expired
  · by_cases hspan : s.tmr.tcnt = 16
    · exact .inr (by rw [timebaseStep_of_overrun hx hspan, raise_fault])
    · exact .inl (by rw [timebaseStep_of_expired hx hspan])
  · exact .inl (timebaseStep_fault hx)

theorem timebaseStep_stillWaits (s : State) : StillWaits s (timebaseStep s) where
  cfg := by rw [timebaseStep_frame]
  booted := by rw [timebaseStep_frame]
  gie := by rw [timebaseStep_frame]
  refusals := by rw [timebaseStep_frame]
  port := by rw [timebaseStep_frame]
  idx := by rw [timebaseStep_frame]
  rxq := by rw [timebaseStep_frame]
  txq := by rw [timebaseStep_frame]
  fault := timebaseStep_fault_cases s
  disabled := fun hd => by
    rw [timebaseStep_of_disabled hd]
    exact ⟨rfl, hd⟩

/-- Whoever has the turn has a step, after which the client still waits (R410). -/
theorem agentStep_stillWaits {c : ClientOp} {s : State} (h : MaskedWait c s) (a : Turn) :
    ∃ t, agentStep a s = .next t ∧ StillWaits s t := by
  cases a with
  | fg => exact ⟨_, foregroundStep_of_maskedWait h, { StillWaits.refl s with }⟩
  | int src => exact ⟨s, interruptStep_of_not_taken (.inl h.masked), .refl s⟩
  | lineTx => exact ⟨_, rfl, lineTxStep_stillWaits s⟩
  | host => exact ⟨_, rfl, hostStep_stillWaits s⟩
  | pins i => exact ⟨_, rfl, pinsStep_stillWaits i s⟩
  | timebase => exact ⟨_, rfl, timebaseStep_stillWaits s⟩

theorem step_stillWaits {c : ClientOp} {s : State} (h : MaskedWait c s) (hf : s.fault = none) :
    ∃ t, step s = .next t ∧ StillWaits s t := by
  have hturn := takeTurn_stillWaits s
  obtain ⟨t, ht, hw⟩ := agentStep_stillWaits (h.of_stillWaits hturn) (nextTurn s)
  exact ⟨t, (step_running h.legal hf h.booted).trans ht, hturn.trans hw⟩

/-! ## Runs and executions -/

theorem runSteps_stillWaits {c : ClientOp} {n : Nat} {s t : State} (h : MaskedWait c s)
    (hs : runSteps n s = some t) : StillWaits s t := by
  induction n generalizing s with
  | zero =>
    obtain rfl := Option.some.inj hs
    exact .refl s
  | succ n ih =>
    obtain ⟨u, hu, hrest⟩ := runSteps_succ hs
    cases hf : s.fault with
    | some code => cases (step_of_fault h.legal hf).symm.trans hu
    | none =>
      obtain ⟨v, hv, hw⟩ := step_stillWaits h hf
      obtain rfl := Host.Outcome.next.inj (hv.symm.trans hu)
      exact hw.trans (ih (h.of_stillWaits hw) hrest)

/-- What holds at `s` and lets a step lead to where it holds again, holds along some infinite execution from `s`. -/
theorem exists_execution {P : State → Prop} {s : State} (hs : P s)
    (hstep : ∀ t, P t → ∃ u, step t = .next u ∧ P u) :
    ∃ run, run 0 = s ∧ Execution run ∧ ∀ n, P (run n) := by
  have : Nonempty State := ⟨s⟩
  choose! next hnext hkeeps using hstep
  have hall (n : Nat) : P (next^[n] s) := Function.Iterate.rec P hs hkeeps n
  refine ⟨fun n => next^[n] s, rfl, fun n => ?_, hall⟩
  simp only [Function.iterate_succ_apply']
  exact hnext _ (hall n)

/-- Without the timer nothing ends the wait, not even a fault (R410). -/
theorem hangs_of_maskedWait {c : ClientOp} {s : State} (h : MaskedWait c s) (hf : s.fault = none)
    (hd : s.tmr.state = .disabled) : Hangs s := by
  have hfault {t : State} (hw : StillWaits s t) : t.fault = none := (hw.disabled hd).1.trans hf
  obtain ⟨run, hstart, hrun, hwaits⟩ := exists_execution (P := StillWaits s) (StillWaits.refl s) fun t hw => by
    obtain ⟨u, hu, hw'⟩ := step_stillWaits (h.of_stillWaits hw) (hfault hw)
    exact ⟨u, hu, hw.trans hw'⟩
  exact ⟨run, hstart, hrun, fun n => ⟨(hwaits n).idx, hfault (hwaits n), (hwaits n).refusals⟩⟩

/-! ## Boot (R405) -/

/-- A block that has not booted boots, whoever has the turn. -/
theorem step_of_not_booted {s : State} (hc : configLegal s.cfg = true) (hf : s.fault = none) (hb : s.booted = false) :
    step s = .next (boot s) := by
  simp [step, hc, hf, hb]

/-! ## The statements -/

/-- Settles O16: along a run by `runSteps_stillWaits`, and for the infinite execution by `hangs_of_maskedWait`. -/
theorem blockingWithInterruptsOffHangs : Obligations.BlockingWithInterruptsOffHangs := by
  unfold Obligations.BlockingWithInterruptsOffHangs
  rintro c s ⟨hc, hf, hb⟩ hl hg hs he hblocked
  have hwait : MaskedWait c s := ⟨hc, hb, hl, hg, hs, he, hblocked⟩
  refine ⟨fun n t hrun => ?_, hangs_of_maskedWait hwait hf⟩
  have hw := runSteps_stillWaits hwait hrun
  exact ⟨hw.idx, hw.refusals, hw.fault.imp_left fun h => h.trans hf⟩

/-- Settles O53: the step is `boot`, and the configuration gives the value of GIE. -/
theorem bootComesFirst : Obligations.BootComesFirst := by
  unfold Obligations.BootComesFirst
  intro s hc hf hb
  rw [step_of_not_booted hc hf hb, boot]
  constructor <;> (intro h; rw [h])

/-- Settles O52: `resetWith` gives every field the value R400 lists, whatever the configuration. -/
theorem resetLeavesTheseValues : Obligations.ResetLeavesTheseValues := by
  unfold Obligations.ResetLeavesTheseValues
  refine ⟨fun c => ?_, rfl⟩
  and_intros <;> rfl

end Sys2Proof.Laws
end
